-- ==== Sys2Proof/Word.lean ====
section
/-! DEFINITION. The word types of LCDPC: nibbles, bytes and command words. -/

namespace Sys2Proof

/-- One 4-bit transfer unit, bit 0 the least significant (R9). -/
abbrev Nib := BitVec 4

/-- An 8-bit value: a transmitted byte, an LCD command byte, a character code (R9, R65). -/
abbrev Byte := BitVec 8

/-- A host command word, `op[31:24] a[23:16] b[15:8] n[7:0]` (R56). -/
abbrev CmdWord := BitVec 32

end Sys2Proof
end

