-- ==== Sys2Proof/Config.lean ====
section
/-! DEFINITION. The configuration record of one instance (R5 to R8, R167) and the values the spec leaves free. -/

namespace Sys2Proof

/-- The eight logical signals carried by the expander (R12). -/
inductive Signal where
  | rs | rw | e | bl | d4 | d5 | d6 | d7
  deriving DecidableEq, Repr

/-- `PM`, the pin mapping: one bit index per signal, raw (R5). The check of R124 is `PinMap.ok`. -/
structure PinMap where
  bRS : Nat
  bRW : Nat
  bE : Nat
  bBL : Nat
  bD4 : Nat
  bD5 : Nat
  bD6 : Nat
  bD7 : Nat
  deriving DecidableEq, Repr

/-- `CFG`: what construction fixes for the life of an instance (R5 to R8, R20, R167). Delays are minimums in
microseconds (R8, R166). -/
structure Cfg where
  pins : PinMap
  devAddr : BitVec 7
  cmdFunctionSet : Byte
  cmdClearDisplay : Byte
  cmdDisplayOn : Byte
  tPower : Nat
  tWake1 : Nat
  tWake2 : Nat
  tWake3 : Nat
  t4Bit : Nat
  tFunction : Nat
  tClear : Nat
  orReset : Byte
  deriving DecidableEq, Repr

/-- The suggested default mapping of R5. PRESUMED (log 2). -/
def PinMap.suggested : PinMap :=
  { bRS := 0, bRW := 1, bE := 2, bBL := 3, bD4 := 4, bD5 := 5, bD6 := 6, bD7 := 7 }

/-- The configuration of `State.reset`: the suggested or parameter values of R5, R6, R7, the delays of R8 and
`OR_RESET` of R167. PRESUMED (log 2). -/
def Cfg.suggested : Cfg :=
  { pins := PinMap.suggested
    devAddr := 0x27#7
    cmdFunctionSet := 0x28#8
    cmdClearDisplay := 0x01#8
    cmdDisplayOn := 0x0C#8
    tPower := 100000
    tWake1 := 5000
    tWake2 := 1000
    tWake3 := 1000
    t4Bit := 1000
    tFunction := 1000
    tClear := 2000
    orReset := 0x00#8 }

/-- `TEXT_MAX`, the longest text payload of one WRTEXT (R167, R65). -/
def Config.textMax : Nat := 255

/-- `XP` when power comes on: any value (R26, U8). A FREE VALUE: no body, so nothing can be proved of it (log 4). -/
opaque Config.xpPowerOn : Byte

/-- `F_CLK` in hertz, OPEN: no rule depends on it (R167). A FREE VALUE (log 21). -/
opaque Config.fClk : Nat

end Sys2Proof
end

