-- ==== Sys2Proof/Syntax.lean ====
section
/-! DEFINITION. The instructions of spec/opcode_table.json, one constructor a row, and the three encodings
they are written in. -/

namespace Sys2Proof

/-- The eight host commands (R57) and the seven items the block sends to the LCD (R53). -/
inductive Instr where
  /-- `INIT` (R88). -/
  | init
  /-- `BLON` (R100). -/
  | blon
  /-- `BLOFF` (R101). -/
  | bloff
  /-- `DISPON` (R102). -/
  | dispon
  /-- `DISPOFF` (R103). -/
  | dispoff
  /-- `CURMODE V, K`: cursor visible, cursor blink (R104, R63). -/
  | curmode (visible blink : Bool)
  /-- `CLEAR` (R112). -/
  | clear
  /-- `WRTEXT row, col` with `len` payload bytes on the text port (R113, R59, R65; log 11). -/
  | wrtext (row col : Byte) (len : Nat)
  /-- `LCD.WAKE`: the bare nibble `0x3` (R91, R53). -/
  | lcdWake
  /-- `LCD.SET4BIT`: the bare nibble `0x2` (R92, R53). -/
  | lcdSet4bit
  /-- `LCD.FUNCTION_SET`: the command byte `CMD_FUNCTION_SET` (R93, R53). -/
  | lcdFunctionSet
  /-- `LCD.CLEAR_DISPLAY`: the command byte `CMD_CLEAR_DISPLAY` (R94, R112, R53). -/
  | lcdClearDisplay
  /-- `LCD.DISPLAY_CONTROL`: `0b00001DCB`, display on, cursor visible, blink (R105, R53). -/
  | lcdDisplayControl (on cursor blink : Bool)
  /-- `LCD.SET_CURSOR_ADDRESS`: `0b1aaaaaaa` (R108, R54, R53). -/
  | lcdSetCursorAddress (a : BitVec 7)
  /-- `LCD.CHARACTER`: one character code sent as data (R84, R53). -/
  | lcdCharacter (c : Byte)
  deriving DecidableEq, Repr

/-- The encodings of the opcode table: format `CW32` on the command port (R56), and toward the LCD the formats
`LCDNIB` (a bare nibble), `LCDCMD` (a byte, RS low) and `LCDDATA` (a byte, RS high) (R50, R51, R53). -/
inductive Code where
  | cw (w : CmdWord)
  | nib (n : Nib)
  | byte (isData : Bool) (v : Byte)
  deriving DecidableEq, Repr

end Sys2Proof
end

