-- ==== Sys2Proof/Machine/State.lean ====
section
/-! DEFINITION. The state of one LCDPC instance (R10), the inputs it reads, what is observed of it, its value after
reset (R26), and the types the sequencer works with. -/

namespace Sys2Proof.Machine

/-- `FSM`, the five states of the initialisation state machine (R17). Values 5 to 7 are never held (U15). -/
inductive Fsm where
  | unknown | forcedIdle | functionConfigured | cleared | ready
  deriving DecidableEq, Repr

/-- `STATUS`, the completion codes 0 to 3 (R19, R120). Values 4 to 7 are never held (U15). -/
inductive Status where
  | ok | transportError | illegalCommand | dsUnwritten
  deriving DecidableEq, Repr

/-- One event of the trace (R166). -/
inductive Event where
  /-- A write of `b` that completed. -/
  | tx (b : Byte)
  /-- A write of `b` that the transport answered with an error. -/
  | txFail (b : Byte)
  /-- A wait of at least `t` microseconds. -/
  | delay (t : Nat)
  deriving DecidableEq, Repr

/-- How the outside meets one write (R31; R44 for a failed one; R143 for a reset in flight; R162 for no answer). -/
inductive TxAnswer where
  /-- The byte was delivered. -/
  | done
  /-- An error; whether the expander took the byte all the same is the answer's own (R44, U9). -/
  | err (delivered : Bool)
  /-- No answer yet: the block waits with `BUSY = 1` (R127). -/
  | pending
  /-- This write is never answered: the block waits forever with `BUSY = 1`; only reset ends that (R127, R162, U11;
  log 26). -/
  | never
  /-- Reset arrives before the answer; the byte may or may not have reached the expander (R143). -/
  | reset (delivered : Bool)
  deriving DecidableEq, Repr

/-- How the outside meets one delay (R160, R143). -/
inductive DelayAnswer where
  /-- The delay ends, at its minimum or any time later. -/
  | elapsed
  /-- It has not ended yet. -/
  | pending
  /-- It never ends: the block waits forever with `BUSY = 1`; only reset ends that (R162 b; log 26). -/
  | never
  /-- Reset arrives during it. -/
  | reset
  deriving DecidableEq, Repr

/-- The reset input (R142; log 9). -/
inductive ResetLine where
  /-- Not asserted. -/
  | low
  /-- Asserted; the flag says whether a byte in flight at this moment reaches the expander (R143). -/
  | high (delivered : Bool)
  deriving DecidableEq, Repr

/-- What the LCD takes at a falling edge of E: the RS level and the nibble of that byte (R86). -/
structure Latch where
  rs : Bool
  nibble : Nib
  deriving DecidableEq, Repr

/-- A primitive action of the sequencer. A setter of 40_signal_control.md is a register update and then a
`commit` (R77). -/
inductive Prim where
  /-- Write one signal's bit of `OR` (R71 to R74). -/
  | drive (sig : Signal) (level : Bool)
  /-- Write the four data bits of `OR` (R75). -/
  | driveData (n : Nib)
  /-- Transmit `OR` (R70). -/
  | commit
  /-- Wait at least `t` microseconds (R160). -/
  | delay (t : Nat)
  /-- Write `FSM` (R96). -/
  | fsm (f : Fsm)
  /-- `DS <- v; DSV <- 1` (R95). -/
  | baseline (v : Byte)
  deriving DecidableEq, Repr

/-- One element of a command's sequence: a primitive action, or a whole frame toward the LCD. -/
inductive Micro where
  | prim (p : Prim)
  /-- `sendNibble(n)` (R80). -/
  | nibble (n : Nib)
  /-- `writeByte(isData, v)` (R81). -/
  | byte (isData : Bool) (v : Byte)
  deriving DecidableEq, Repr

/-- `SEQ`, the sequencer's position (R22): what the command in progress has still to do. -/
inductive Seq where
  /-- No command in progress. -/
  | idle
  /-- Do `ops` in order, then take and send `chars` text bytes (R117), then complete. -/
  | run (ops : List Micro) (chars : Nat)
  /-- After a transport error in WRTEXT: discard `chars` more text bytes, then complete (R117). -/
  | drain (chars : Nat)
  deriving DecidableEq, Repr

/-- The whole state: the registers of R10 under the spec's names, the expander's latch (R24) and what the LCD
latched (R86), the trace (R166), and the inputs as queues of plain data. -/
structure State where
  /-- Configuration, written by no step (R20; log 1). -/
  cfg : Cfg
  /-- `OR` (R11). -/
  or : Byte
  /-- `DS` (R13). -/
  ds : Byte
  /-- `DSV` (R15). -/
  dsv : Bool
  /-- `FSM` (R17). -/
  fsm : Fsm
  /-- `BUSY` (R18). -/
  busy : Bool
  /-- `STATUS` (R19). -/
  status : Status
  /-- `SEQ` (R22). -/
  seq : Seq
  /-- `XP`, outside the block (R24). -/
  xp : Byte
  /-- What the LCD latched so far, oldest first, outside the block (R86; log 19). -/
  latched : List Latch
  /-- The event trace, oldest first (R166). -/
  trace : List Event
  /-- Command words on the command port, the next one first (R56, R41). -/
  cmds : List CmdWord
  /-- Bytes on the text port, the next one first (R59, R117). -/
  txt : List Byte
  /-- The reset input (R142; log 9). -/
  rst : ResetLine
  /-- The transport's answers to the coming writes; past the end, `done` (R31; log 5). -/
  txAnswers : List TxAnswer
  /-- How the coming delays end; past the end, `elapsed` (R160; log 6). -/
  delayAnswers : List DelayAnswer
  deriving DecidableEq, Repr

/-- Why the machine stops with a fault. -/
inductive Fault where
  /-- Raised by `step` (its `fetch`) when the pin mapping breaks its invariant: no such instance exists (R124
  `ConfigError`, U1). Safe: nothing is claimed of such a state but the stop. -/
  | configError
  deriving DecidableEq, Repr

/-- Why a step has no meaning. -/
inductive Refusal where
  /-- Raised by an arm of `exec` for an instruction without a meaning. No arm does so in this model. Safe. -/
  | notModelled (mnemonic : String)
  /-- Raised by `step` (its `fetch`) when the configuration is one R7 (display-on bit of `CMD_DISPLAY_ON`) or R148
  (a delay below the source's minimum) puts outside the spec. Safe: nothing is claimed of such a state. -/
  | configOutsideSpec
  deriving DecidableEq, Repr

/-- The result of running primitive actions. -/
inductive Res where
  /-- All were done. -/
  | fin (s : State)
  /-- A write was answered *error* (R121). -/
  | err (s : State)
  /-- Waiting, with `rem` still to do. -/
  | held (rem : List Prim) (s : State)
  /-- Reset arrived (R143). -/
  | rst (s : State)
  deriving DecidableEq, Repr

/-- What a step finds to do. -/
inductive Fetched where
  /-- Run this instruction on this state. -/
  | instr (i : Instr) (s : State)
  /-- A step that runs no whole instruction: reset, an element of a command in progress, an illegal word, waiting. -/
  | settled (s : State)
  | fault (f : Fault)
  | refused (r : Refusal)
  deriving DecidableEq, Repr

/-- What `DS` holds after a reset: the spec leaves it unspecified and unread (R15, R26). DESIGN CHOICE (log 3). -/
def dsAtReset : Byte := 0x00#8

/-- The state after construction with configuration `c` (R25, R26, R142), with power just on, no input presented. -/
def State.ofCfg (c : Cfg) : State :=
  { cfg := c
    or := c.orReset
    ds := dsAtReset
    dsv := false
    fsm := .unknown
    busy := false
    status := .ok
    seq := .idle
    xp := Config.xpPowerOn
    latched := []
    trace := []
    cmds := []
    txt := []
    rst := .low
    txAnswers := []
    delayAnswers := [] }

/-- The machine right after reset (R26), with the configuration of log 2. -/
def State.reset : State := State.ofCfg Cfg.suggested

end Sys2Proof.Machine
end

