-- ==== Sys2Proof/Machine/Flags.lean ====
section
/-! DEFINITION. The Display State flags (R13, R16) and the codes of FSM and STATUS (R17, R19, R120). -/

namespace Sys2Proof.Machine

/-- `DS_ON`, bit 2 (R13). -/
def dsOn (ds : Byte) : Bool := ds.getLsbD 2
/-- `DS_CUR`, bit 1 (R13). -/
def dsCur (ds : Byte) : Bool := ds.getLsbD 1
/-- `DS_BLINK`, bit 0 (R13). -/
def dsBlink (ds : Byte) : Bool := ds.getLsbD 0
/-- `DS_FIXED`, bits 7:3 (R13). -/
def dsFixed (ds : Byte) : BitVec 5 := ds.extractLsb' 3 5

/-- `DS | 0x04` (R102). -/
def dsTurnOn (ds : Byte) : Byte := ds ||| 0x04#8

/-- `DS & ~0x04` (R103). -/
def dsTurnOff (ds : Byte) : Byte := ds &&& ~~~0x04#8

/-- `DS` with bits 1:0 cleared, then bit 1 set if visible and bit 0 if blink (R104). -/
def dsCursorMode (visible blink : Bool) (ds : Byte) : Byte :=
  let d0 := ds &&& ~~~0x03#8
  let d1 := if visible then d0 ||| 0x02#8 else d0
  if blink then d1 ||| 0x01#8 else d1

/-- A display-control command byte: `DS_FIXED` and the three flags (R13, R53). -/
def displayControlByte (fixed : BitVec 5) (on cursor blink : Bool) : Byte :=
  fixed ++ BitVec.ofBool on ++ BitVec.ofBool cursor ++ BitVec.ofBool blink

/-- The 3-bit value of `FSM` (R17). -/
def Fsm.code : Fsm → BitVec 3
  | .unknown => 0
  | .forcedIdle => 1
  | .functionConfigured => 2
  | .cleared => 3
  | .ready => 4

/-- The 3-bit value of `STATUS` (R19, R120). -/
def Status.code : Status → BitVec 3
  | .ok => 0
  | .transportError => 1
  | .illegalCommand => 2
  | .dsUnwritten => 3

/-- The code of `ConfigError`, which a constructor returns and `STATUS` never holds (R120, R124). -/
def configErrorCode : BitVec 3 := 4

end Sys2Proof.Machine
end

