-- ==== Sys2Proof/Machine/Operands.lean ====
section
/-! DEFINITION. The operands of the transfers: masks of the pin mapping, the bits of OR, nibbles of a byte, the cursor
address, and the two checks of a configuration. -/

namespace Sys2Proof

/-! ### The pin mapping (R5, R12, R49) -/

/-- The bit of `OR` that carries a signal (R12). -/
def PinMap.index (p : PinMap) : Signal → Nat
  | .rs => p.bRS
  | .rw => p.bRW
  | .e => p.bE
  | .bl => p.bBL
  | .d4 => p.bD4
  | .d5 => p.bD5
  | .d6 => p.bD6
  | .d7 => p.bD7

/-- The eight indices in the order of R5. -/
def PinMap.indices (p : PinMap) : List Nat :=
  [p.bRS, p.bRW, p.bE, p.bBL, p.bD4, p.bD5, p.bD6, p.bD7]

/-- The check of R124, exactly: each index is at most 7 and no two of the 28 pairs are equal. -/
def PinMap.ok (p : PinMap) : Bool :=
  p.indices.all (fun b => decide (b ≤ 7)) && decide p.indices.Nodup

/-- The 8-bit mask of a signal, `1 << b` (R49). -/
def PinMap.mask (p : PinMap) (sig : Signal) : Byte := 1#8 <<< p.index sig

/-- `M_DATA` (R49). -/
def PinMap.dataMask (p : PinMap) : Byte := p.mask .d4 ||| p.mask .d5 ||| p.mask .d6 ||| p.mask .d7

/-- What the rules ask of a configuration beside its pin mapping: bit 2 of `CMD_DISPLAY_ON` is 1 (R7) and no delay is
below the source's minimum (R8, R148). -/
def Cfg.inSpec (c : Cfg) : Bool :=
  c.cmdDisplayOn.getLsbD 2 && decide (100000 ≤ c.tPower) && decide (5000 ≤ c.tWake1) && decide (1000 ≤ c.tWake2)
    && decide (1000 ≤ c.tWake3) && decide (1000 ≤ c.t4Bit) && decide (1000 ≤ c.tFunction) && decide (2000 ≤ c.tClear)

/-! ### The bits of OR (R48, R71 to R75) -/

/-- `OR` with one signal's bit set or cleared (R71 to R74, R64 a). -/
def driven (p : PinMap) (sig : Signal) (level : Bool) (o : Byte) : Byte :=
  if level then o ||| p.mask sig else o &&& ~~~(p.mask sig)

/-- `OR` with the four data bits cleared and those of `n` set, low to high (R75, R52). -/
def drivenData (p : PinMap) (n : Nib) (o : Byte) : Byte :=
  let o0 := o &&& ~~~p.dataMask
  let o1 := if n.getLsbD 0 then o0 ||| p.mask .d4 else o0
  let o2 := if n.getLsbD 1 then o1 ||| p.mask .d5 else o1
  let o3 := if n.getLsbD 2 then o2 ||| p.mask .d6 else o2
  if n.getLsbD 3 then o3 ||| p.mask .d7 else o3

/-- The level a byte gives a signal's line (R48). -/
def line (p : PinMap) (sig : Signal) (b : Byte) : Bool := b.getLsbD (p.index sig)

/-- The nibble on the data lines, `D7, D6, D5, D4` with D4 its bit 0 (R52, R86). -/
def dataLines (p : PinMap) (b : Byte) : Nib :=
  BitVec.ofBool (line p .d7 b) ++ BitVec.ofBool (line p .d6 b) ++ BitVec.ofBool (line p .d5 b)
    ++ BitVec.ofBool (line p .d4 b)

/-! ### Splitting a byte (R52, R64 e) -/

/-- `v[7:4]`. -/
def hiNibble (v : Byte) : Nib := v.extractLsb' 4 4

/-- `v[3:0]`. -/
def loNibble (v : Byte) : Nib := v.extractLsb' 0 4

/-! ### The cursor address calculator (R107, R108) -/

/-- `CursorAddress(row, col)`, 9 bits (R107). -/
def cursorAddress (row col : Byte) : BitVec 9 :=
  col.setWidth 9 + (if row = 1 then 0x40 else 0x00)

/-- The Set-cursor-address command byte, `0x80 | address[7:0]` (R108, R54). -/
def cursorCommand (row col : Byte) : Byte := 0x80 ||| (cursorAddress row col).setWidth 8

/-! ### The timer (R137) -/

/-- The least count of clock cycles that realises `Delay(t)`, `ceil(t × F_CLK)` with `t` in microseconds (R137). No step
reads it: the model has no clock (log 21). -/
def delayCycles (t : Nat) : Nat := (t * Config.fClk + 999999) / 1000000

end Sys2Proof
end

