-- ==== Sys2Proof/Machine/Ops.lean ====
section
/-! DEFINITION. The shared operations: the one write and the delay, the micro-operations as sequences of primitive actions,
raising an exception, reset, and running a command's sequence (files 20, 40, 41, 60, 70). -/

namespace Sys2Proof.Machine

/-! ### Reset and completion -/

/-- Reset: the registers and the trace take the values of R26; the configuration, the expander and the LCD keep theirs
and nothing is transmitted (R142, R25). What the outside presents stays as it is (log 9, log 13). -/
def doReset (s : State) : State :=
  { s with
    or := s.cfg.orReset
    ds := dsAtReset
    dsv := false
    fsm := .unknown
    busy := false
    status := .ok
    seq := .idle
    trace := [] }

/-- Completion of a command with its code: `STATUS` is written once and `BUSY` falls (R18, R19). -/
def complete (c : Status) (s : State) : State :=
  { s with status := c, busy := false, seq := .idle }

/-- TAKING AN EXCEPTION: the command ends, nothing is saved and nothing rolled back, `STATUS` takes the code, `BUSY`
falls, control goes nowhere (R130, R131). There is no return (R133): the next command is accepted in the ordinary way. -/
def raise (x : Status) (s : State) : State := complete x s

/-- What follows a `TransportError` when `n` text bytes of the command were not yet taken: they are discarded as they
come, `BUSY` staying 1, then the exception completes the command (R117, R130; log 23). -/
def drainText : Nat → State → State
  | 0, s => raise .transportError s
  | n + 1, s =>
    match s.txt with
    | [] => { s with busy := true, seq := .drain (n + 1) }
    | _ :: bs => drainText n { s with txt := bs }

/-! ### The write primitive and the delay -/

/-- What the block puts on the transport request port (R31, D5). -/
structure TxRequest where
  addr : BitVec 7
  data : Byte
  deriving DecidableEq, Repr

/-- The request `commit` makes: the whole `OR`, to `DEV_ADDR` (R70, R30). -/
def commitRequest (s : State) : TxRequest := { addr := s.cfg.devAddr, data := s.or }

/-- Add an event to the trace (R166). -/
def record (ev : Event) (s : State) : State := { s with trace := s.trace ++ [ev] }

/-- What the LCD latches when the lines go from `old` to `new`: the RS level and the nibble of `new` if E falls (R86). -/
def latchEdge (p : PinMap) (old new : Byte) : List Latch :=
  if line p .e old && !line p .e new then [{ rs := line p .rs new, nibble := dataLines p new }] else []

/-- A byte reaches the expander: all eight lines change at once (R36, R47), and the LCD latches on a falling E (R86;
log 19). -/
def deliver (b : Byte) (s : State) : State :=
  { s with xp := b, latched := s.latched ++ latchEdge s.cfg.pins s.xp b }

/-- `deliver`, when the answer says the expander took the byte (R44, R143). -/
def deliverIf (delivered : Bool) (b : Byte) (s : State) : State := if delivered then deliver b s else s

/-- `MemWrite(DEV_ADDR, 1, v)` and its answer (R31); there is no timeout, so an answer that never comes is waited for
without end (R127, R162). -/
def memWrite (r : TxRequest) (s : State) : Res :=
  match s.txAnswers with
  | [] => .fin (record (.tx r.data) (deliver r.data s))
  | .done :: as => .fin (record (.tx r.data) (deliver r.data { s with txAnswers := as }))
  | .err d :: as => .err (record (.txFail r.data) (deliverIf d r.data { s with txAnswers := as }))
  | .pending :: as => .held [.commit] { s with txAnswers := as }
  | .never :: _ => .held [.commit] s
  | .reset d :: as => .rst (deliverIf d r.data { s with txAnswers := as })

/-- `commit()` (R70). -/
def commit (s : State) : Res := memWrite (commitRequest s) s

/-- `Delay(t)` (R160, R38); its event is recorded when it ends (log 10), and a delay that never ends is waited for
without end (R162). -/
def waitDelay (t : Nat) (s : State) : Res :=
  match s.delayAnswers with
  | [] => .fin (record (.delay t) s)
  | .elapsed :: ds => .fin (record (.delay t) { s with delayAnswers := ds })
  | .pending :: ds => .held [.delay t] { s with delayAnswers := ds }
  | .never :: _ => .held [.delay t] s
  | .reset :: ds => .rst { s with delayAnswers := ds }

/-! ### Reset between two steps -/

/-- The transport request port while a write has no answer yet: `DEV_ADDR` and the whole `OR` (R31, D5). -/
def txPort (s : State) : Option TxRequest :=
  match s.seq with
  | .run (.prim .commit :: _) _ => some (commitRequest s)
  | _ => none

/-- The wait for a write that is never answered is over; any other answer stands (log 26). -/
def dropNever : List TxAnswer → List TxAnswer
  | .never :: as => as
  | as => as

/-- The wait for a delay that never ends is over; any other answer stands (log 26). -/
def dropEndless : List DelayAnswer → List DelayAnswer
  | .never :: ds => ds
  | ds => ds

/-- What a reset meets outside the block: a byte in flight may or may not have reached the expander (R143), and an endless
wait of this write or this delay ends (R162). -/
def cutOutside (delivered : Bool) (s : State) : State :=
  match s.seq with
  | .run (.prim .commit :: _) _ => deliverIf delivered s.or { s with txAnswers := dropNever s.txAnswers }
  | .run (.prim (.delay _) :: _) _ => { s with delayAnswers := dropEndless s.delayAnswers }
  | _ => s

/-- The step that obeys the reset input (R129, R142, R143) and takes it back (log 9). -/
def obeyReset (delivered : Bool) (s : State) : State := doReset (cutOutside delivered { s with rst := .low })

/-! ### Primitive actions -/

/-- One primitive action (R70 to R75, R95, R96, R160). -/
def runPrim : Prim → State → Res
  | .drive sig level, s => .fin { s with or := driven s.cfg.pins sig level s.or }
  | .driveData n, s => .fin { s with or := drivenData s.cfg.pins n s.or }
  | .commit, s => commit s
  | .delay t, s => waitDelay t s
  | .fsm f, s => .fin { s with fsm := f }
  | .baseline v, s => .fin { s with ds := v, dsv := true }

/-- Primitive actions in order, each to completion before the next (R37, R38); the first error, wait or reset ends the
run (R87, R130). -/
def runPrims : List Prim → State → Res
  | [], s => .fin s
  | p :: ps, s =>
    match runPrim p s with
    | .fin s' => runPrims ps s'
    | .err s' => .err s'
    | .held rem s' => .held (rem ++ ps) s'
    | .rst s' => .rst s'

/-! ### Micro-operations -/

/-- `setRS(level)` (R71). -/
def setRS (level : Bool) : List Prim := [.drive .rs level, .commit]
/-- `setRW(level)` (R72). -/
def setRW (level : Bool) : List Prim := [.drive .rw level, .commit]
/-- `setE(level)` (R73). -/
def setE (level : Bool) : List Prim := [.drive .e level, .commit]
/-- `setBacklight(level)` (R74). -/
def setBacklight (level : Bool) : List Prim := [.drive .bl level, .commit]
/-- `setDataNibble(n)` (R75). -/
def setDataNibble (n : Nib) : List Prim := [.driveData n, .commit]

/-- `sendNibble(n)`, the enable pulse around one nibble (R80, R50). -/
def sendNibble (n : Nib) : List Prim := setE true ++ setDataNibble n ++ setE false

/-- `writeByte(isData, value)`, high nibble first (R81, R51). -/
def writeByte (isData : Bool) (v : Byte) : List Prim :=
  setRS isData ++ sendNibble (hiNibble v) ++ sendNibble (loNibble v)

/-- The primitive actions of one element of a sequence. -/
def expand : Micro → List Prim
  | .prim p => [p]
  | .nibble n => sendNibble n
  | .byte isData v => writeByte isData v

/-- One element of a sequence, run. -/
def runMicro (m : Micro) (s : State) : Res := runPrims (expand m) s

/-- A setter as elements of a sequence. -/
def asMicros (ps : List Prim) : List Micro := ps.map .prim

/-- `writeCmd(v)` (R83). -/
def writeCmd (v : Byte) : Micro := .byte false v
/-- `writeChar(v)` (R84). -/
def writeChar (v : Byte) : Micro := .byte true v
/-- `setCursorPosition(row, col)` (R108). -/
def setCursorPosition (row col : Byte) : Micro := writeCmd (cursorCommand row col)

/-! ### Running a command -/

/-- What the end of one element means for the command it belongs to, when `ms` and then `chars` text bytes follow it:
done, go on as `k` says; error, discard the text bytes not yet taken and raise `TransportError`; no answer yet, wait with
`BUSY = 1` and the rest in `SEQ`; reset, reset. -/
def conclude (ms : List Micro) (chars : Nat) (k : State → State) : Res → State
  | .fin s => k s
  | .err s => drainText chars s
  | .held rem s => { s with busy := true, seq := .run (asMicros rem ++ ms) chars }
  | .rst s => doReset s

/-- Take and send `chars` text bytes, each taken when its `writeChar` is about to start; wait when none is there (R113,
R117). Then complete with `Ok`. -/
def runText : Nat → State → State
  | 0, s => complete .ok s
  | n + 1, s =>
    match s.txt with
    | [] => { s with seq := .run [] (n + 1) }
    | b :: bs => conclude [] n (runText n) (runMicro (writeChar b) { s with txt := bs })

/-- Run a sequence and then its text bytes, as far as the outside lets it (R22, R37). -/
def runOps : List Micro → Nat → State → State
  | [], chars, s => runText chars s
  | m :: ms, chars, s => conclude ms chars (runOps ms chars) (runMicro m s)

/-- Acceptance: `BUSY` rises (R18). -/
def accept (s : State) : State := { s with busy := true }

/-- A command accepted and run: to its completion, or to where the outside holds or ends it (R22, R133). -/
def runCommand (ops : List Micro) (chars : Nat) (s : State) : State := runOps ops chars (accept s)

/-- The elements still to do after the present one. -/
def Seq.ops : Seq → List Micro
  | .idle => []
  | .run ops _ => ops
  | .drain _ => []

/-- The text bytes still to take. -/
def Seq.chars : Seq → Nat
  | .idle => 0
  | .run _ chars => chars
  | .drain chars => chars

/-- One element done by itself, the rest of the command standing in `SEQ`. -/
def perform (m : Micro) (s : State) : State := conclude s.seq.ops s.seq.chars id (runMicro m s)

/-- The next element of a command in progress (R22): the one at the head of `SEQ`, else the next text byte, else
completion. -/
def advance (s : State) : State :=
  match s.seq with
  | .idle => s
  | .run (m :: ms) chars => perform m { s with seq := .run ms chars }
  | .run [] 0 => complete .ok s
  | .run [] (n + 1) =>
    match s.txt with
    | [] => s
    | b :: bs => perform (writeChar b) { s with txt := bs, seq := .run [] n }
  | .drain n => drainText n s

end Sys2Proof.Machine
end

