-- ==== Sys2Proof/Machine/Display.lean ====
section
/-! DEFINITION. Backlight and display state (43_display_cursor.md). -/

namespace Sys2Proof.Machine

/-- Common to DISPON, DISPOFF and CURMODE: with `DSV = 0` raise `DsUnwritten` before anything else; else write `DS`, then
send it as a command (R105, R123). `f` is the command's change of `DS`. -/
def sendDisplayState (f : Byte → Byte) (s : State) : State :=
  if s.dsv then runCommand [writeCmd (f s.ds)] 0 { s with ds := f s.ds } else raise .dsUnwritten s

/-- `BLON` (R100). -/
def execBlon (s : State) : Host.Outcome State Fault Refusal :=
  .next (runCommand (asMicros (setBacklight true)) 0 s)

/-- `BLOFF` (R101). -/
def execBloff (s : State) : Host.Outcome State Fault Refusal :=
  .next (runCommand (asMicros (setBacklight false)) 0 s)

/-- `DISPON` (R102). -/
def execDispon (s : State) : Host.Outcome State Fault Refusal := .next (sendDisplayState dsTurnOn s)

/-- `DISPOFF` (R103). -/
def execDispoff (s : State) : Host.Outcome State Fault Refusal := .next (sendDisplayState dsTurnOff s)

/-- `CURMODE V, K` (R104). -/
def execCurmode (visible blink : Bool) (s : State) : Host.Outcome State Fault Refusal :=
  .next (sendDisplayState (dsCursorMode visible blink) s)

end Sys2Proof.Machine
end

