-- ==== Sys2Proof/Machine/Lcd.lean ====
section
/-! DEFINITION. The seven items the block sends to the LCD (R53): their frames, and their meanings as single elements of a
command in progress (log 14). -/

namespace Sys2Proof.Machine

/-- The wake nibble `0x3`, bare (R91). -/
def lcdWakeFrame : Micro := .nibble 0x3
/-- The 4-bit-mode nibble `0x2`, bare (R92). -/
def lcdSet4bitFrame : Micro := .nibble 0x2
/-- Function-Set (R93). -/
def lcdFunctionSetFrame (c : Cfg) : Micro := writeCmd c.cmdFunctionSet
/-- Clear-Display (R94, R112). -/
def lcdClearDisplayFrame (c : Cfg) : Micro := writeCmd c.cmdClearDisplay
/-- The display-control byte, bits 7:3 those of `CMD_DISPLAY_ON` (R13, R53, R105). -/
def lcdDisplayControlFrame (c : Cfg) (on cursor blink : Bool) : Micro :=
  writeCmd (displayControlByte (dsFixed c.cmdDisplayOn) on cursor blink)
/-- Set-cursor-address, `0b1aaaaaaa` (R54, R108). -/
def lcdSetCursorAddressFrame (a : BitVec 7) : Micro := writeCmd (0b1#1 ++ a)
/-- A character, in data mode (R84). -/
def lcdCharacterFrame (c : Byte) : Micro := writeChar c

/-- `LCD.WAKE`: one bare nibble frame, RS as it is (R91, R151). -/
def execLcdWake (s : State) : Host.Outcome State Fault Refusal := .next (perform lcdWakeFrame s)

/-- `LCD.SET4BIT`: one bare nibble frame, RS as it is (R92, R151). -/
def execLcdSet4bit (s : State) : Host.Outcome State Fault Refusal := .next (perform lcdSet4bitFrame s)

/-- `LCD.FUNCTION_SET` (R93). -/
def execLcdFunctionSet (s : State) : Host.Outcome State Fault Refusal :=
  .next (perform (lcdFunctionSetFrame s.cfg) s)

/-- `LCD.CLEAR_DISPLAY`: the send; the delay after it is the command's (R94, R112). -/
def execLcdClearDisplay (s : State) : Host.Outcome State Fault Refusal :=
  .next (perform (lcdClearDisplayFrame s.cfg) s)

/-- `LCD.DISPLAY_CONTROL`: the send; `DS` was written before it by the command (R105 b, c). -/
def execLcdDisplayControl (on cursor blink : Bool) (s : State) : Host.Outcome State Fault Refusal :=
  .next (perform (lcdDisplayControlFrame s.cfg on cursor blink) s)

/-- `LCD.SET_CURSOR_ADDRESS` (R108). -/
def execLcdSetCursorAddress (a : BitVec 7) (s : State) : Host.Outcome State Fault Refusal :=
  .next (perform (lcdSetCursorAddressFrame a) s)

/-- `LCD.CHARACTER` (R84). -/
def execLcdCharacter (c : Byte) (s : State) : Host.Outcome State Fault Refusal :=
  .next (perform (lcdCharacterFrame c) s)

end Sys2Proof.Machine
end

