-- ==== Sys2Proof/Machine/Init.lean ====
section
/-! DEFINITION. The initialisation sequencer (42_init_sequencer.md). -/

namespace Sys2Proof.Machine

/-- The pseudocode of INIT, statement by statement (R88 to R96). -/
def initProgram (c : Cfg) : List Micro :=
  [.prim (.fsm .unknown), .prim (.delay c.tPower)]
    ++ asMicros (setRW false)
    ++ [lcdWakeFrame, .prim (.delay c.tWake1),
        lcdWakeFrame, .prim (.delay c.tWake2),
        lcdWakeFrame, .prim (.delay c.tWake3),
        lcdSet4bitFrame, .prim (.delay c.t4Bit), .prim (.fsm .forcedIdle),
        lcdFunctionSetFrame c, .prim (.delay c.tFunction), .prim (.fsm .functionConfigured),
        lcdClearDisplayFrame c, .prim (.delay c.tClear), .prim (.fsm .cleared),
        .prim (.baseline c.cmdDisplayOn), writeCmd c.cmdDisplayOn, .prim (.fsm .ready)]

/-- `INIT` (R88). -/
def execInit (s : State) : Host.Outcome State Fault Refusal := .next (runCommand (initProgram s.cfg) 0 s)

end Sys2Proof.Machine
end

