-- ==== Sys2Proof/Machine/Text.lean ====
section
/-! DEFINITION. Clear and text output (44_text_output.md). -/

namespace Sys2Proof.Machine

/-- `CLEAR`: the Clear-Display command, then the erase delay inside the command (R112). -/
def execClear (s : State) : Host.Outcome State Fault Refusal :=
  .next (runCommand [lcdClearDisplayFrame s.cfg, .prim (.delay s.cfg.tClear)] 0 s)

/-- `WRTEXT row, col` with `len` bytes from the text port (R113, R117). -/
def execWrtext (row col : Byte) (len : Nat) (s : State) : Host.Outcome State Fault Refusal :=
  .next (runCommand [setCursorPosition row col] len s)

end Sys2Proof.Machine
end

