-- ==== Sys2Proof/Machine/Dispatch.lean ====
section
/-! DEFINITION. The one dispatch from an instruction to its meaning. -/

namespace Sys2Proof.Machine

/-- An instruction's meaning on a state. -/
def exec (i : Instr) (s : State) : Host.Outcome State Fault Refusal :=
  match i with
  | .init => Sys2Proof.Machine.execInit s
  | .blon => Sys2Proof.Machine.execBlon s
  | .bloff => Sys2Proof.Machine.execBloff s
  | .dispon => Sys2Proof.Machine.execDispon s
  | .dispoff => Sys2Proof.Machine.execDispoff s
  | .curmode visible blink => Sys2Proof.Machine.execCurmode visible blink s
  | .clear => Sys2Proof.Machine.execClear s
  | .wrtext row col len => Sys2Proof.Machine.execWrtext row col len s
  | .lcdWake => Sys2Proof.Machine.execLcdWake s
  | .lcdSet4bit => Sys2Proof.Machine.execLcdSet4bit s
  | .lcdFunctionSet => Sys2Proof.Machine.execLcdFunctionSet s
  | .lcdClearDisplay => Sys2Proof.Machine.execLcdClearDisplay s
  | .lcdDisplayControl on cursor blink => Sys2Proof.Machine.execLcdDisplayControl on cursor blink s
  | .lcdSetCursorAddress a => Sys2Proof.Machine.execLcdSetCursorAddress a s
  | .lcdCharacter c => Sys2Proof.Machine.execLcdCharacter c s

end Sys2Proof.Machine
end

