-- ==== Sys2Proof/WellFormed.lean ====
section
/-! DEFINITION. The instructions that exist: the one bound the field types do not carry. -/

namespace Sys2Proof

/-- `len` is 0 to `TEXT_MAX` (R65); every other operand is exactly as wide as its type (R63, R65, R53). -/
def Instr.wellFormed : Instr → Bool
  | .init => true
  | .blon => true
  | .bloff => true
  | .dispon => true
  | .dispoff => true
  | .curmode _ _ => true
  | .clear => true
  | .wrtext _ _ len => decide (len ≤ Config.textMax)
  | .lcdWake => true
  | .lcdSet4bit => true
  | .lcdFunctionSet => true
  | .lcdClearDisplay => true
  | .lcdDisplayControl _ _ _ => true
  | .lcdSetCursorAddress _ => true
  | .lcdCharacter _ => true

end Sys2Proof
end

