-- ==== Sys2Proof/Decode.lean ====
section
/-! DEFINITION. The decoder of the three encodings, total and rejecting by name, and the encoder (30_encoding.md). -/

namespace Sys2Proof

/-- Why a code is no instruction. -/
inductive DecodeError where
  /-- `op = 0x00` or `op` in `0x09` to `0xFF` (R58). -/
  | unknownOpcode (op : Byte)
  /-- `op` in `0x01` to `0x07` with a non-zero unused field or a non-zero `a[7:1]` or `b[7:1]` (R58). -/
  | unusedFieldNotZero (op : Byte)
  /-- A nibble other than the two bare nibbles the block sends (R53). -/
  | noSuchNibble (n : Nib)
  /-- A command byte the block never sends (R53). -/
  | noSuchCommandByte (v : Byte)
  deriving DecidableEq, Repr

/-! ### The host command word -/

/-- Field `op` (R56). -/
def fieldOp (w : CmdWord) : Byte := w.extractLsb' 24 8
/-- Field `a` (R56). -/
def fieldA (w : CmdWord) : Byte := w.extractLsb' 16 8
/-- Field `b` (R56). -/
def fieldB (w : CmdWord) : Byte := w.extractLsb' 8 8
/-- Field `n` (R56). -/
def fieldN (w : CmdWord) : Byte := w.extractLsb' 0 8

/-- The word with the four fields given (R56). -/
def cmdWord (op a b n : Byte) : CmdWord := op ++ a ++ b ++ n

/-- A command without operands: its three operand fields must be zero (R58). -/
def decodePlain (i : Instr) (w : CmdWord) : Except DecodeError Instr :=
  if fieldA w = 0 ∧ fieldB w = 0 ∧ fieldN w = 0 then .ok i else .error (.unusedFieldNotZero (fieldOp w))

/-- `CURMODE`: `V = a[0]`, `K = b[0]`, every other operand bit zero (R63, R58). -/
def decodeCurmode (w : CmdWord) : Except DecodeError Instr :=
  if (fieldA w).extractLsb' 1 7 = 0 ∧ (fieldB w).extractLsb' 1 7 = 0 ∧ fieldN w = 0 then
    .ok (.curmode ((fieldA w).getLsbD 0) ((fieldB w).getLsbD 0))
  else .error (.unusedFieldNotZero (fieldOp w))

/-- The opcode map (R57); every word it does not list is illegal (R58). -/
def decodeCommand (w : CmdWord) : Except DecodeError Instr :=
  if fieldOp w = 0x01 then decodePlain .init w
  else if fieldOp w = 0x02 then decodePlain .blon w
  else if fieldOp w = 0x03 then decodePlain .bloff w
  else if fieldOp w = 0x04 then decodePlain .dispon w
  else if fieldOp w = 0x05 then decodePlain .dispoff w
  else if fieldOp w = 0x06 then decodeCurmode w
  else if fieldOp w = 0x07 then decodePlain .clear w
  else if fieldOp w = 0x08 then .ok (.wrtext (fieldA w) (fieldB w) (fieldN w).toNat)
  else .error (.unknownOpcode (fieldOp w))

/-! ### What is sent to the LCD -/

/-- Format `LCDNIB` (R53). -/
def decodeNibble (n : Nib) : Except DecodeError Instr :=
  if n = 0x3 then .ok .lcdWake else if n = 0x2 then .ok .lcdSet4bit else .error (.noSuchNibble n)

/-- Format `LCDCMD` (R53, R54, R55), with the command bytes the table gives. -/
def decodeCommandByte (v : Byte) : Except DecodeError Instr :=
  if v.getLsbD 7 = true then .ok (.lcdSetCursorAddress (v.extractLsb' 0 7))
  else if v = 0x28 then .ok .lcdFunctionSet
  else if v.extractLsb' 3 5 = 0b00001#5 then
    .ok (.lcdDisplayControl (v.getLsbD 2) (v.getLsbD 1) (v.getLsbD 0))
  else if v = 0x01 then .ok .lcdClearDisplay
  else .error (.noSuchCommandByte v)

/-- The decoder, total on every code. -/
def decode : Code → Except DecodeError Instr
  | .cw w => decodeCommand w
  | .nib n => decodeNibble n
  | .byte false v => decodeCommandByte v
  | .byte true v => .ok (.lcdCharacter v)

/-! ### The encoder -/

/-- One operand bit in an 8-bit field, `0b0000000V` (R57, R63). -/
def bitField (b : Bool) : Byte := if b then 1 else 0

/-- The code of an instruction, from R57 for host commands and R53 for LCD items. -/
def encode : Instr → Code
  | .init => .cw (cmdWord 0x01 0 0 0)
  | .blon => .cw (cmdWord 0x02 0 0 0)
  | .bloff => .cw (cmdWord 0x03 0 0 0)
  | .dispon => .cw (cmdWord 0x04 0 0 0)
  | .dispoff => .cw (cmdWord 0x05 0 0 0)
  | .curmode v k => .cw (cmdWord 0x06 (bitField v) (bitField k) 0)
  | .clear => .cw (cmdWord 0x07 0 0 0)
  | .wrtext row col len => .cw (cmdWord 0x08 row col (BitVec.ofNat 8 len))
  | .lcdWake => .nib 0x3
  | .lcdSet4bit => .nib 0x2
  | .lcdFunctionSet => .byte false 0x28
  | .lcdClearDisplay => .byte false 0x01
  | .lcdDisplayControl d c b =>
    .byte false (0b00001#5 ++ BitVec.ofBool d ++ BitVec.ofBool c ++ BitVec.ofBool b)
  | .lcdSetCursorAddress a => .byte false (0b1#1 ++ a)
  | .lcdCharacter c => .byte true c

/-! ### The opcode map as a table (R57) -/

/-- The mnemonic of an instruction, as spec/opcode_table.json spells it. -/
def Instr.mnemonic : Instr → String
  | .init => "INIT"
  | .blon => "BLON"
  | .bloff => "BLOFF"
  | .dispon => "DISPON"
  | .dispoff => "DISPOFF"
  | .curmode _ _ => "CURMODE"
  | .clear => "CLEAR"
  | .wrtext _ _ _ => "WRTEXT"
  | .lcdWake => "LCD.WAKE"
  | .lcdSet4bit => "LCD.SET4BIT"
  | .lcdFunctionSet => "LCD.FUNCTION_SET"
  | .lcdClearDisplay => "LCD.CLEAR_DISPLAY"
  | .lcdDisplayControl _ _ _ => "LCD.DISPLAY_CONTROL"
  | .lcdSetCursorAddress _ => "LCD.SET_CURSOR_ADDRESS"
  | .lcdCharacter _ => "LCD.CHARACTER"

/-- A row of the opcode map: `w` selects it when `(w & mask) == match` (R57). -/
structure OpcodeRow where
  mnemonic : String
  pattern : CmdWord
  mask : CmdWord
  deriving DecidableEq, Repr

/-- `w` selects the row (R57). -/
def OpcodeRow.selects (r : OpcodeRow) (w : CmdWord) : Bool := w &&& r.mask == r.pattern

/-- The eight rows of R57 with their match and mask. -/
def opcodeRows : List OpcodeRow :=
  [ { mnemonic := "INIT", pattern := 0x01000000, mask := 0xFFFFFFFF },
    { mnemonic := "BLON", pattern := 0x02000000, mask := 0xFFFFFFFF },
    { mnemonic := "BLOFF", pattern := 0x03000000, mask := 0xFFFFFFFF },
    { mnemonic := "DISPON", pattern := 0x04000000, mask := 0xFFFFFFFF },
    { mnemonic := "DISPOFF", pattern := 0x05000000, mask := 0xFFFFFFFF },
    { mnemonic := "CURMODE", pattern := 0x06000000, mask := 0xFFFEFEFF },
    { mnemonic := "CLEAR", pattern := 0x07000000, mask := 0xFFFFFFFF },
    { mnemonic := "WRTEXT", pattern := 0x08000000, mask := 0xFF000000 } ]

/-! ### The opcode table's own numbering -/

/-- The code a row of spec/opcode_table.json writes in `nbits` bits. The table's 8-bit rows do not carry RS, so one
byte could be a command or a character: a byte of an `LCDCMD` row is read as that row, the two bare nibbles as
`LCDNIB`, and every other byte as `LCDDATA`. DESIGN CHOICE (log 15). -/
def tableCode (nbits w : Nat) : Option Code :=
  if nbits = 32 then some (.cw (BitVec.ofNat 32 w))
  else if nbits = 4 then some (.nib (BitVec.ofNat 4 w))
  else if nbits = 8 then
    match decodeCommandByte (BitVec.ofNat 8 w) with
    | .ok _ => some (.byte false (BitVec.ofNat 8 w))
    | .error _ =>
      if w = 2 ∨ w = 3 then some (.nib (BitVec.ofNat 4 w)) else some (.byte true (BitVec.ofNat 8 w))
  else none

/-- The instruction the decoder reads from the table's word. A WRTEXT's payload stands on the text port, outside
its word, so the word alone fixes the instruction. -/
def decodeTableWord (nbits w : Nat) : Option Instr :=
  match tableCode nbits w with
  | none => none
  | some c =>
    match decode c with
    | .ok i => some i
    | .error _ => none

end Sys2Proof
end

