-- ==== Sys2Proof/Machine/Fetch.lean ====
section
/-! DEFINITION. What a step finds to do, and the outside's ports: commands, text, reset, status, transport, construction. -/

namespace Sys2Proof.Machine

/-! ### Fetching -/

/-- A command word taken from the port (R41): decoded, or refused with `IllegalCommand` before any other effect, nothing
consumed from the text port (R58, R122, R128). -/
def fetchCommand (w : CmdWord) (s : State) : Fetched :=
  match decode (.cw w) with
  | .ok i => .instr i s
  | .error _ => .settled (raise .illegalCommand s)

/-- What the next step does. The configuration is checked first (R124, R7, R148); then reset, which wins over anything
(R129); then a command in progress, which gates the command port (R18); then the next command word; with none, the
block waits (R26). -/
def fetch (s : State) : Fetched :=
  if s.cfg.pins.ok = false then .fault .configError
  else if s.cfg.inSpec = false then .refused .configOutsideSpec
  else
    match s.rst with
    | .high delivered => .settled (obeyReset delivered s)
    | .low =>
      if s.busy then .settled (advance s)
      else
        match s.cmds with
        | [] => .settled s
        | w :: ws => fetchCommand w { s with cmds := ws }

/-! ### What the outside sees and does -/

/-- Construction with the eager check: an instance, or the code 4 (R124, R25). -/
def construct (c : Cfg) : Except (BitVec 3) State :=
  if c.pins.ok then .ok (State.ofCfg c) else .error configErrorCode

/-- The status port: `busy`, `status[2:0]`, `fsm[2:0]` (D4, R17 to R19). -/
structure StatusPort where
  busy : Bool
  status : BitVec 3
  fsm : BitVec 3
  deriving DecidableEq, Repr

/-- What the status port shows. -/
def statusPort (s : State) : StatusPort := { busy := s.busy, status := s.status.code, fsm := s.fsm.code }

/-- `cmd_ready` (R18, D2). -/
def cmdReady (s : State) : Bool := !s.busy

/-- `txt_ready`: the block is at the point of taking a text byte, to send it or to discard it (R117, D3). -/
def txtReady (s : State) : Bool :=
  match s.seq with
  | .run [] (_ + 1) => true
  | .drain (_ + 1) => true
  | _ => false

/-- The host presents a command word, behind those already waiting (R56, R129). -/
def presentCommand (w : CmdWord) (s : State) : State := { s with cmds := s.cmds ++ [w] }

/-- The host supplies a text byte (R59, R117). -/
def supplyText (b : Byte) (s : State) : State := { s with txt := s.txt ++ [b] }

/-- Reset is asserted (R142); the flag is the outside's, for a byte in flight (R143). -/
def assertReset (delivered : Bool) (s : State) : State := { s with rst := .high delivered }

/-! ### Placing the next instruction -/

/-- The frame of an LCD item under a configuration; a host command has none (R53). -/
def itemFrame (c : Cfg) : Instr → Option Micro
  | .init => none
  | .blon => none
  | .bloff => none
  | .dispon => none
  | .dispoff => none
  | .curmode _ _ => none
  | .clear => none
  | .wrtext _ _ _ => none
  | .lcdWake => some lcdWakeFrame
  | .lcdSet4bit => some lcdSet4bitFrame
  | .lcdFunctionSet => some (lcdFunctionSetFrame c)
  | .lcdClearDisplay => some (lcdClearDisplayFrame c)
  | .lcdDisplayControl on cursor blink => some (lcdDisplayControlFrame c on cursor blink)
  | .lcdSetCursorAddress a => some (lcdSetCursorAddressFrame a)
  | .lcdCharacter ch => some (lcdCharacterFrame ch)

/-- The payload bytes of zeros that a command word announces. -/
def zeroPayload : Instr → List Byte
  | .init => []
  | .blon => []
  | .bloff => []
  | .dispon => []
  | .dispoff => []
  | .curmode _ _ => []
  | .clear => []
  | .wrtext _ _ len => List.replicate len 0
  | .lcdWake => []
  | .lcdSet4bit => []
  | .lcdFunctionSet => []
  | .lcdClearDisplay => []
  | .lcdDisplayControl _ _ _ => []
  | .lcdSetCursorAddress _ => []
  | .lcdCharacter _ => []

/-- A host command is placed where the block fetches one: at the head of the command port of an idle block, its payload
at the head of the text port. An LCD item is placed where the sequencer takes its next element: at the head of `SEQ` of
a command in progress (log 14, log 16). -/
def placeNext (s : State) (nbits w : Nat) : State :=
  match decodeTableWord nbits w with
  | none =>
    if nbits = 32 then
      { s with rst := .low, busy := false, seq := .idle, cmds := BitVec.ofNat 32 w :: s.cmds }
    else s
  | some i =>
    match itemFrame s.cfg i with
    | some m => { s with rst := .low, busy := true, seq := .run (m :: s.seq.ops) s.seq.chars }
    | none =>
      { s with
        rst := .low, busy := false, seq := .idle
        cmds := BitVec.ofNat 32 w :: s.cmds
        txt := zeroPayload i ++ s.txt }

end Sys2Proof.Machine
end

