-- ==== Sys2Proof/Machine/Step.lean ====
section
/-! DEFINITION. One step of the machine, and the state whose next instruction is a given one. -/

namespace Sys2Proof.Machine

/-- One step: what `fetch` finds, done. -/
def step (s : State) : Host.Outcome State Fault Refusal :=
  match fetch s with
  | .instr i s' => exec i s'
  | .settled s' => .next s'
  | .fault f => .fault f
  | .refused r => .refused r

/-- `s` with the instruction of the opcode table's word placed so that the very next step runs it (log 16). -/
def State.withFetchWord (s : State) (nbits w : Nat) : State := placeNext s nbits w

end Sys2Proof.Machine
end

