-- ==== Sys2Proof/Safety.lean ====
section
/-! DEFINITION. The terms claims are stated in: what the outside does, the bytes of the frames written by their lines,
the events a sequence plans, and the machine's invariant. -/

namespace Sys2Proof.Machine

/-! ### What the outside does -/

/-- The transport answers every write *done* and every delay ends within the step (the premise R31 asks a claim to
name). -/
def FaultFree (s : State) : Prop :=
  (∀ a ∈ s.txAnswers, a = .done) ∧ (∀ d ∈ s.delayAnswers, d = .elapsed)

/-- No reset is among the answers to come. -/
def NoReset (s : State) : Prop :=
  (∀ a ∈ s.txAnswers, ∀ d, a ≠ .reset d) ∧ (∀ d ∈ s.delayAnswers, d ≠ .reset)

/-- Every write is eventually answered and every delay eventually ends: the premises (a) and (b) of R162. -/
def Answered (s : State) : Prop := (∀ a ∈ s.txAnswers, a ≠ .never) ∧ (∀ d ∈ s.delayAnswers, d ≠ .never)

/-- The configuration is one the rules are stated for (R124, R7, R148). -/
def CfgOk (s : State) : Prop := s.cfg.pins.ok = true ∧ s.cfg.inSpec = true

/-- The block is ready for a command and none is in progress (R18). -/
def Idle (s : State) : Prop := s.busy = false ∧ s.seq = .idle

/-! ### Bytes by their lines (R48, R50, R51) -/

/-- One line's contribution to a byte. -/
def lineMask (p : PinMap) (sig : Signal) (level : Bool) : Byte := if level then p.mask sig else 0

/-- The byte whose lines have the given levels (R48), `n` on the data lines (R52). -/
def pack (p : PinMap) (rs rw e bl : Bool) (n : Nib) : Byte :=
  lineMask p .rs rs ||| lineMask p .rw rw ||| lineMask p .e e ||| lineMask p .bl bl
    ||| lineMask p .d4 (n.getLsbD 0) ||| lineMask p .d5 (n.getLsbD 1)
    ||| lineMask p .d6 (n.getLsbD 2) ||| lineMask p .d7 (n.getLsbD 3)

/-- The three bytes of a `NIBBLE` frame, `old` on the data lines before it (R50). -/
def nibbleBytes (p : PinMap) (rs rw bl : Bool) (old n : Nib) : List Byte :=
  [pack p rs rw true bl old, pack p rs rw true bl n, pack p rs rw false bl n]

/-- The seven bytes of a `BYTE` frame carrying `v` with RS `isData`, `e` the level of E before it (R51). -/
def byteBytes (p : PinMap) (rw e bl isData : Bool) (old : Nib) (v : Byte) : List Byte :=
  pack p isData rw e bl old :: nibbleBytes p isData rw bl old (hiNibble v)
    ++ nibbleBytes p isData rw bl (hiNibble v) (loNibble v)

/-- The bytes of characters sent one after the other, E low before them (R113). -/
def charsBytes (p : PinMap) (rw bl : Bool) : Nib → List Byte → List Byte
  | _, [] => []
  | old, c :: cs => byteBytes p rw false bl true old c ++ charsBytes p rw bl (loNibble c) cs

/-- The `BYTE` frame that follows the present `OR`. -/
def byteBytesFrom (p : PinMap) (o : Byte) (isData : Bool) (v : Byte) : List Byte :=
  byteBytes p (line p .rw o) (line p .e o) (line p .bl o) isData (dataLines p o) v

/-- The `NIBBLE` frame that follows the present `OR`. -/
def nibbleBytesFrom (p : PinMap) (o : Byte) (n : Nib) : List Byte :=
  nibbleBytes p (line p .rs o) (line p .rw o) (line p .bl o) (dataLines p o) n

/-! ### Events and the state after them -/

/-- How many writes a list of events makes. -/
def writes : List Event → Nat
  | [] => 0
  | .tx _ :: es => writes es + 1
  | .txFail _ :: es => writes es + 1
  | .delay _ :: es => writes es

/-- How many delays a list of events makes. -/
def delays : List Event → Nat
  | [] => 0
  | .tx _ :: es => delays es
  | .txFail _ :: es => delays es
  | .delay _ :: es => delays es + 1

/-- The bytes a list of events wrote or tried to write. -/
def eventBytes : List Event → List Byte
  | [] => []
  | .tx b :: es => b :: eventBytes es
  | .txFail b :: es => b :: eventBytes es
  | .delay _ :: es => eventBytes es

/-- The events of bytes written one after the other. -/
def txs (bs : List Byte) : List Event := bs.map .tx

/-- What the LCD latches from the bytes delivered, one after the other (R86). -/
def latchesOf (p : PinMap) : Byte → List Byte → List Latch
  | _, [] => []
  | old, b :: bs => latchEdge p old b ++ latchesOf p b bs

/-- `s` after events none of which failed: the last byte written is in `OR` and on the lines, the answers are used up,
nothing else changed. -/
def after (es : List Event) (s : State) : State :=
  { s with
    or := (eventBytes es).getLastD s.or
    xp := (eventBytes es).getLastD s.xp
    latched := s.latched ++ latchesOf s.cfg.pins s.xp (eventBytes es)
    trace := s.trace ++ es
    txAnswers := s.txAnswers.drop (writes es)
    delayAnswers := s.delayAnswers.drop (delays es) }

/-- `s` with the command completed normally: `STATUS = Ok`, `BUSY = 0` (R18, R19). -/
def completedOk (s : State) : State := { s with status := .ok, busy := false, seq := .idle }

/-- The events of INIT with every write answered *done*, from `OR` = `o` (R88 to R95, R98): RS is not driven before
step 5 (R90, R151), E and the data lines are first as they were. -/
def initEvents (c : Cfg) (o : Byte) : List Event :=
  let p := c.pins
  let rs := line p .rs o
  let bl := line p .bl o
  [.delay c.tPower]
    ++ txs [pack p rs false (line p .e o) bl (dataLines p o)]
    ++ txs (nibbleBytes p rs false bl (dataLines p o) 0x3) ++ [.delay c.tWake1]
    ++ txs (nibbleBytes p rs false bl 0x3 0x3) ++ [.delay c.tWake2]
    ++ txs (nibbleBytes p rs false bl 0x3 0x3) ++ [.delay c.tWake3]
    ++ txs (nibbleBytes p rs false bl 0x3 0x2) ++ [.delay c.t4Bit]
    ++ txs (byteBytes p false false bl false 0x2 c.cmdFunctionSet) ++ [.delay c.tFunction]
    ++ txs (byteBytes p false false bl false (loNibble c.cmdFunctionSet) c.cmdClearDisplay) ++ [.delay c.tClear]
    ++ txs (byteBytes p false false bl false (loNibble c.cmdClearDisplay) c.cmdDisplayOn)

/-! ### What a sequence plans -/

/-- The events of primitive actions whose every write is answered *done*, from `OR` = `o`. -/
def plannedPrims (p : PinMap) : List Prim → Byte → List Event
  | [], _ => []
  | .drive sig level :: ps, o => plannedPrims p ps (driven p sig level o)
  | .driveData n :: ps, o => plannedPrims p ps (drivenData p n o)
  | .commit :: ps, o => .tx o :: plannedPrims p ps o
  | .delay t :: ps, o => .delay t :: plannedPrims p ps o
  | .fsm _ :: ps, o => plannedPrims p ps o
  | .baseline _ :: ps, o => plannedPrims p ps o

/-- The events of a sequence whose every write is answered *done*, from `OR` = `o`. -/
def planned (p : PinMap) (ms : List Micro) (o : Byte) : List Event := plannedPrims p (ms.flatMap expand) o

/-- The events when write number `k` (from 0) fails: those before it, the failure, nothing after it (R130). -/
def failAt : Nat → List Event → List Event
  | _, [] => []
  | 0, .tx b :: _ => [.txFail b]
  | k + 1, .tx b :: es => .tx b :: failAt k es
  | k, .txFail b :: es => .txFail b :: failAt k es
  | k, .delay t :: es => .delay t :: failAt k es

/-- The events before write number `k` (from 0). -/
def beforeWrite : Nat → List Event → List Event
  | _, [] => []
  | 0, .tx _ :: _ => []
  | k + 1, .tx b :: es => .tx b :: beforeWrite k es
  | k, .txFail b :: es => .txFail b :: beforeWrite k es
  | k, .delay t :: es => .delay t :: beforeWrite k es

/-- The events before delay number `k` (from 0). -/
def beforeDelay : Nat → List Event → List Event
  | _, [] => []
  | 0, .delay _ :: _ => []
  | k + 1, .delay t :: es => .delay t :: beforeDelay k es
  | k, .tx b :: es => .tx b :: beforeDelay k es
  | k, .txFail b :: es => .txFail b :: beforeDelay k es

/-- How `t` stands after a `TransportError` in `s` when `n` announced text bytes were not yet taken: when all of them are on
the text port they are discarded and the command has ended; else what is there is discarded and the block waits for the
missing ones, `BUSY = 1` and the code not yet written (R117, R130; log 23). -/
def FailedWithText (n : Nat) (s t : State) : Prop :=
  if n ≤ s.txt.length then t.status = .transportError ∧ t.busy = false ∧ t.seq = .idle ∧ t.txt = s.txt.drop n
  else t.status = s.status ∧ t.busy = true ∧ t.seq = .drain (n - s.txt.length) ∧ t.txt = []

/-- The registers a reset leaves (R26, R142) of a machine that was `s`. -/
def ResetRegisters (s t : State) : Prop :=
  t.or = s.cfg.orReset ∧ t.dsv = false ∧ t.fsm = .unknown ∧ t.busy = false ∧ t.status = .ok ∧ t.seq = .idle ∧
    t.trace = [] ∧ t.cfg = s.cfg

/-- The whole sequence of a host command, its text included (R88, R100 to R104, R112, R113); none for a command that
the validity test of R105 refuses, and for an LCD item. -/
def hostSequence (s : State) : Instr → Option (List Micro)
  | .init => some (initProgram s.cfg)
  | .blon => some (asMicros (setBacklight true))
  | .bloff => some (asMicros (setBacklight false))
  | .dispon => if s.dsv then some [writeCmd (dsTurnOn s.ds)] else none
  | .dispoff => if s.dsv then some [writeCmd (dsTurnOff s.ds)] else none
  | .curmode v k => if s.dsv then some [writeCmd (dsCursorMode v k s.ds)] else none
  | .clear => some [lcdClearDisplayFrame s.cfg, .prim (.delay s.cfg.tClear)]
  | .wrtext row col len => some (setCursorPosition row col :: (s.txt.take len).map writeChar)
  | .lcdWake => none
  | .lcdSet4bit => none
  | .lcdFunctionSet => none
  | .lcdClearDisplay => none
  | .lcdDisplayControl _ _ _ => none
  | .lcdSetCursorAddress _ => none
  | .lcdCharacter _ => none

/-- How many text bytes a host command takes from the text port (R59). -/
def textLen : Instr → Nat
  | .init => 0
  | .blon => 0
  | .bloff => 0
  | .dispon => 0
  | .dispoff => 0
  | .curmode _ _ => 0
  | .clear => 0
  | .wrtext _ _ len => len
  | .lcdWake => 0
  | .lcdSet4bit => 0
  | .lcdFunctionSet => 0
  | .lcdClearDisplay => 0
  | .lcdDisplayControl _ _ _ => 0
  | .lcdSetCursorAddress _ => 0
  | .lcdCharacter _ => 0

/-- How many writes an instruction makes when none fails: a static number, for WRTEXT known from `len` (R162; R98, R100 to
R104, R112, R113; R50 and R51 for the items). -/
def writeCount : Instr → Nat
  | .init => 34
  | .blon => 1
  | .bloff => 1
  | .dispon => 7
  | .dispoff => 7
  | .curmode _ _ => 7
  | .clear => 7
  | .wrtext _ _ len => 7 * (1 + len)
  | .lcdWake => 3
  | .lcdSet4bit => 3
  | .lcdFunctionSet => 7
  | .lcdClearDisplay => 7
  | .lcdDisplayControl _ _ _ => 7
  | .lcdSetCursorAddress _ => 7
  | .lcdCharacter _ => 7

/-- How many delays an instruction makes when no write fails (R161, R162). -/
def delayCount : Instr → Nat
  | .init => 7
  | .blon => 0
  | .bloff => 0
  | .dispon => 0
  | .dispoff => 0
  | .curmode _ _ => 0
  | .clear => 1
  | .wrtext _ _ _ => 0
  | .lcdWake => 0
  | .lcdSet4bit => 0
  | .lcdFunctionSet => 0
  | .lcdClearDisplay => 0
  | .lcdDisplayControl _ _ _ => 0
  | .lcdSetCursorAddress _ => 0
  | .lcdCharacter _ => 0

/-! ### The invariant -/

/-- What a pending sequence may hold: no write of RW high (R72), no baseline but `CMD_DISPLAY_ON` (R95), no `Ready`
before `DSV` is set (R95, R96). The Bool is `DSV` where the list begins. -/
def seqLegal (c : Cfg) : Bool → List Micro → Bool
  | _, [] => true
  | v, .prim (.drive sig level) :: ms => (decide (sig ≠ .rw) || !level) && seqLegal c v ms
  | v, .prim (.driveData _) :: ms => seqLegal c v ms
  | v, .prim .commit :: ms => seqLegal c v ms
  | v, .prim (.delay _) :: ms => seqLegal c v ms
  | v, .prim (.fsm f) :: ms => (decide (f ≠ .ready) || v) && seqLegal c v ms
  | _, .prim (.baseline x) :: ms => decide (x = c.cmdDisplayOn) && seqLegal c true ms
  | v, .nibble _ :: ms => seqLegal c v ms
  | v, .byte _ _ :: ms => seqLegal c v ms

/-- What every step keeps. -/
structure Inv (s : State) : Prop where
  /-- `BUSY` is 1 exactly while a command is in progress (R18). -/
  busy_iff : s.busy = true ↔ s.seq ≠ .idle
  /-- Once valid, `DS` keeps the baseline's command-identifying bits (R13). -/
  ds_fixed : s.dsv = true → dsFixed s.ds = dsFixed s.cfg.cmdDisplayOn
  /-- RW is never driven high (R72, R90). -/
  rw_low : line s.cfg.pins .rw s.or = true → line s.cfg.pins .rw s.cfg.orReset = true
  /-- `Ready` is reached only past the point that writes `DS` (R95). -/
  ready_dsv : s.fsm = .ready → s.dsv = true
  /-- No more text bytes are outstanding than one command announces (R65, R117). -/
  chars_le : s.seq.chars ≤ Config.textMax
  /-- What is pending keeps all this. -/
  seq_legal : seqLegal s.cfg s.dsv s.seq.ops = true

end Sys2Proof.Machine
end

