-- ==== Sys2Proof/Certificates/Slice0/Obligations.lean ====
section
/-! DEFINITION. The statements about the model, from the numbered rules of spec/. -/

open Sys2Proof Sys2Proof.Machine

/-! ### Configuration and reset -/

/-- R124 (60_exceptions.md section 1): construction is refused exactly when an index is above 7 or two signals share one; its
code 4 is never a value of `STATUS`. The last clause is the model's choice (log 17): a step of a state with such a mapping,
of which the spec has no instance, faults with `configError`, and no other step faults so. -/
def Obligations.ConfigErrorExactlyForBadPins : Prop :=
  (∀ p : PinMap, p.ok = true ↔
      (∀ a, p.index a ≤ 7) ∧ (∀ a b, a ≠ b → p.index a ≠ p.index b)) ∧
  (∀ c : Cfg, c.pins.ok = false → construct c = .error 4#3) ∧
  (∀ c : Cfg, c.pins.ok = true → construct c = .ok (State.ofCfg c)) ∧
  (∀ x : Status, x.code ≠ 4#3) ∧
  (∀ s : State, step s = .fault .configError ↔ s.cfg.pins.ok = false)

/-- The masks of 30_encoding.md section 1: each has exactly its one bit, they are pairwise disjoint, their union is
`0xFF` (both the spec's own inference from the invariant of the pin mapping), and `M_DATA` has exactly four bits. -/
def Obligations.MasksPartitionTheByte : Prop :=
  ∀ p : PinMap, p.ok = true →
    (∀ sig, p.mask sig = 1#8 <<< p.index sig) ∧
    (∀ sig i, i < 8 → ((p.mask sig).getLsbD i = true ↔ i = p.index sig)) ∧
    (∀ a b, a ≠ b → p.mask a &&& p.mask b = 0) ∧
    p.mask .rs ||| p.mask .rw ||| p.mask .e ||| p.mask .bl ||| p.mask .d4 ||| p.mask .d5 ||| p.mask .d6 ||| p.mask .d7
      = 0xFF#8 ∧
    p.dataMask = p.mask .d4 ||| p.mask .d5 ||| p.mask .d6 ||| p.mask .d7 ∧
    (List.range 8).countP (fun i => p.dataMask.getLsbD i) = 4

/-- The reset values that 10_state.md section 9 gives, for `State.reset` and for the reset of any state; of `DS` (unspecified
there) nothing is said. That a reset leaves the record of what the LCD latched is the model's choice (log 19). -/
def Obligations.ResetLeavesTheSpecValues : Prop :=
  (State.reset.or = 0x00#8 ∧ State.reset.dsv = false ∧ State.reset.fsm = .unknown ∧ State.reset.busy = false ∧
    State.reset.status = .ok ∧ State.reset.seq = .idle ∧ State.reset.trace = []) ∧
  ∀ s : State,
    (doReset s).or = s.cfg.orReset ∧ (doReset s).dsv = false ∧ (doReset s).fsm = .unknown ∧ (doReset s).busy = false ∧
    (doReset s).status = .ok ∧ (doReset s).seq = .idle ∧ (doReset s).trace = [] ∧
    (doReset s).cfg = s.cfg ∧ (doReset s).xp = s.xp ∧ (doReset s).latched = s.latched

/-- 60_exceptions.md section 3: a reset wins over a command in progress and over a command presented; a command presented
while `BUSY = 1` is not accepted and waits unchanged. The model's choices (log 9): the step that obeys reset takes the
request back and leaves the command port as it is, as does a reset that answers a write or a delay. -/
def Obligations.ResetWinsAndBusyGatesThePort : Prop :=
  (∀ (s : State) (d : Bool), CfgOk s → s.rst = .high d →
    ∃ t, step s = .next t ∧ ResetRegisters s t ∧ t.cmds = s.cmds ∧ t.rst = .low) ∧
  (∀ s : State, s.rst = .low → s.busy = true → ∀ t, step s = .next t → t.cmds = s.cmds)

/-- No step changes the configuration. -/
def Obligations.StepKeepsConfiguration : Prop :=
  ∀ s t : State, step s = .next t → t.cfg = s.cfg

/-! ### Signal control, frames, transport -/

/-- R75: `setDataNibble(n)` leaves D4 to D7 equal to bits 0 to 3 of `n` and every other bit of `OR` as it was, then
transmits `OR` exactly once. -/
def Obligations.SetDataNibbleWritesExactlyTheDataLines : Prop :=
  ∀ (s : State) (n : Nib), s.cfg.pins.ok = true →
    ∃ o : Byte, runPrims (setDataNibble n) s = commit { s with or := o } ∧
      line s.cfg.pins .d4 o = n.getLsbD 0 ∧ line s.cfg.pins .d5 o = n.getLsbD 1 ∧
      line s.cfg.pins .d6 o = n.getLsbD 2 ∧ line s.cfg.pins .d7 o = n.getLsbD 3 ∧
      ∀ sig, sig ∉ [Signal.d4, .d5, .d6, .d7] → line s.cfg.pins sig o = line s.cfg.pins sig s.or

/-- R71, and the same of its three fellows: each single-line setter writes its own bit of `OR` and no other, then
transmits exactly once, also when the level does not change. -/
def Obligations.SettersWriteOneLineAndTransmitOnce : Prop :=
  ∀ (s : State) (level : Bool), s.cfg.pins.ok = true →
    ∀ x ∈ [(Signal.rs, setRS level), (.rw, setRW level), (.e, setE level), (.bl, setBacklight level)],
      ∃ o : Byte, runPrims x.2 s = commit { s with or := o } ∧ line s.cfg.pins x.1 o = level ∧
        ∀ sig, sig ≠ x.1 → line s.cfg.pins sig o = line s.cfg.pins sig s.or

/-- What one `commit` does on each answer. Done or error (20_memory.md, 40_signal_control.md): `OR` is not changed; a completed
write makes `XP = OR`; after a failed one `XP` is its old value or `OR`. That the answers are a list, and that no answer is a
held result before the same commit, is the model's choice (log 5, log 7, log 26); so is reset as an answer (log 9), whose
`XP` is as 70_reset_and_hazards.md section 1 says. -/
def Obligations.CommitOnEachAnswer : Prop :=
  ∀ (s : State) (as : List TxAnswer),
    (s.txAnswers = .done :: as →
      ∃ t, commit s = .fin t ∧ t.or = s.or ∧ t.xp = s.or ∧ t.trace = s.trace ++ [.tx s.or] ∧ t.txAnswers = as) ∧
    (∀ d, s.txAnswers = .err d :: as →
      ∃ t, commit s = .err t ∧ t.or = s.or ∧ t.xp = (if d then s.or else s.xp) ∧
        t.trace = s.trace ++ [.txFail s.or] ∧ t.txAnswers = as) ∧
    (s.txAnswers = .pending :: as → commit s = .held [.commit] { s with txAnswers := as }) ∧
    (s.txAnswers = .never :: as → commit s = .held [.commit] s) ∧
    (∀ d, s.txAnswers = .reset d :: as →
      ∃ t, commit s = .rst t ∧ t.xp = (if d then s.or else s.xp) ∧ t.trace = s.trace ∧ t.txAnswers = as)

/-- R50: a `NIBBLE` frame is three writes: E high with the old nibble, E high with the new one, E low with the new one;
RS, RW and Backlight as they were. -/
def Obligations.NibbleFrameIsThreeWrites : Prop :=
  ∀ (s : State) (n : Nib), s.cfg.pins.ok = true → FaultFree s →
    runMicro (.nibble n) s = .fin (after (txs (nibbleBytes s.cfg.pins (line s.cfg.pins .rs s.or) (line s.cfg.pins .rw s.or)
      (line s.cfg.pins .bl s.or) (dataLines s.cfg.pins s.or) n)) s)

/-- R51: a `BYTE` frame is seven writes and no delay: RS set to the mode, then the `NIBBLE` frame of the high nibble, then
that of the low one. -/
def Obligations.ByteFrameIsSevenWrites : Prop :=
  ∀ (s : State) (d : Bool) (v : Byte), s.cfg.pins.ok = true → FaultFree s →
    let p := s.cfg.pins
    let rw := line p .rw s.or
    let bl := line p .bl s.or
    let old := dataLines p s.or
    runMicro (.byte d v) s = .fin (after (txs
      [pack p d rw (line p .e s.or) bl old,
       pack p d rw true bl old, pack p d rw true bl (hiNibble v), pack p d rw false bl (hiNibble v),
       pack p d rw true bl (hiNibble v), pack p d rw true bl (loNibble v), pack p d rw false bl (loNibble v)]) s)

/-- What the LCD takes (41_byte_transfer.md; that RS is sampled with the nibble is general knowledge there, log 19): a
completed write that lowers E latches that byte's RS and nibble; a `NIBBLE` frame latches once, the nibble it placed; a
`BYTE` frame begun with E low latches the high nibble and then the low one. -/
def Obligations.FramesLatchTheirNibbles : Prop :=
  ∀ s : State, s.cfg.pins.ok = true → FaultFree s →
    (∃ t, commit s = .fin t ∧
      t.latched = s.latched ++ (if line s.cfg.pins .e s.xp = true ∧ line s.cfg.pins .e s.or = false then
        [{ rs := line s.cfg.pins .rs s.or, nibble := dataLines s.cfg.pins s.or }] else [])) ∧
    (∀ n, ∃ t, runMicro (.nibble n) s = .fin t ∧
      t.latched = s.latched ++ [{ rs := line s.cfg.pins .rs s.or, nibble := n }]) ∧
    (∀ d v, line s.cfg.pins .e s.xp = false → ∃ t, runMicro (.byte d v) s = .fin t ∧
      t.latched = s.latched ++ [{ rs := d, nibble := hiNibble v }, { rs := d, nibble := loNibble v }])

/-- 41_byte_transfer.md: when transmission `k` of a `NIBBLE` or `BYTE` frame fails, the later ones are not made, `OR` holds
what the failing setter gave it, and the command ends with `TransportError`. When it does so (`FailedWithText`) is the model's
inference (log 23), from the discard of 44_text_output.md and from when 10_state.md section 5 has `BUSY` fall and `STATUS`
written: at once when the outstanding text, if any, is there to be discarded; else the block waits for the missing bytes,
`BUSY` 1 and `STATUS` as before until they have come. -/
def Obligations.FailureStopsTheFrame : Prop :=
  ∀ (s : State) (m : Micro) (k : Nat) (d : Bool) (rest : List TxAnswer), (∀ p, m ≠ .prim p) →
    s.txAnswers = List.replicate k .done ++ .err d :: rest →
    k < writes (planned s.cfg.pins [m] s.or) →
    (perform m s).trace = s.trace ++ failAt k (planned s.cfg.pins [m] s.or) ∧
    some (perform m s).or = (eventBytes (failAt k (planned s.cfg.pins [m] s.or))).getLast? ∧
    FailedWithText s.seq.chars s (perform m s)

/-! ### Encodings -/

/-- R107: the cursor address on every row and column. -/
def Obligations.CursorAddressFormula : Prop :=
  ∀ row col : Byte, (cursorAddress row col).toNat = col.toNat + (if row.toNat = 1 then 0x40 else 0x00)

/-- R54: the Set-cursor-address byte has bit 7 set and the low seven bits of the address. -/
def Obligations.CursorCommandByte : Prop :=
  (∀ row col : Byte, (cursorCommand row col).toNat = 0x80 + (cursorAddress row col).toNat % 0x80) ∧
  cursorCommand 1 5 = 0xC5#8 ∧ cursorCommand 0 5 = 0x85#8

/-- R57: a word that selects a row of the opcode map decodes to that row's command with the operands its fields give,
and no word selects two rows. -/
def Obligations.DecodeFollowsTheOpcodeMap : Prop :=
  (∀ w : CmdWord, ∀ r ∈ opcodeRows, r.selects w = true →
    ∃ i, decode (.cw w) = .ok i ∧ i.mnemonic = r.mnemonic ∧
      (∀ v k, i = .curmode v k → v = w.getLsbD 16 ∧ k = w.getLsbD 8) ∧
      (∀ row col len, i = .wrtext row col len →
        row.toNat = w.toNat / 2 ^ 16 % 2 ^ 8 ∧ col.toNat = w.toNat / 2 ^ 8 % 2 ^ 8 ∧ len = w.toNat % 2 ^ 8)) ∧
  (∀ w : CmdWord, ∀ r ∈ opcodeRows, ∀ r' ∈ opcodeRows, r.selects w = true → r'.selects w = true → r = r')

/-- R58, R122: a word that selects no row is accepted, changes nothing but `STATUS`, transmits nothing, takes nothing
from the text port, and completes with `IllegalCommand`. -/
def Obligations.IllegalWordsAreRefusedWithoutEffect : Prop :=
  ∀ (s : State) (w : CmdWord) (ws : List CmdWord), CfgOk s → s.rst = .low → Idle s → s.cmds = w :: ws →
    (∀ r ∈ opcodeRows, r.selects w = false) →
    step s = .next { s with cmds := ws, status := .illegalCommand }

/-- Words written out from the opcode map and R53 decode to their instructions (a sanity check). -/
def Obligations.KnownWordsDecode : Prop :=
  decode (.cw 0x01000000) = .ok .init ∧ decode (.cw 0x03000000) = .ok .bloff ∧
  decode (.cw 0x06000100) = .ok (.curmode false true) ∧ decode (.cw 0x08010503) = .ok (.wrtext 1 5 3) ∧
  decode (.cw 0x01000001) = .error (.unusedFieldNotZero 1) ∧ decode (.cw 0x09000000) = .error (.unknownOpcode 9) ∧
  decode (.nib 0x3) = .ok .lcdWake ∧ decode (.byte false 0x0E) = .ok (.lcdDisplayControl true true false) ∧
  decode (.byte false 0xC5) = .ok (.lcdSetCursorAddress 0x45) ∧ decode (.byte true 0x28) = .ok (.lcdCharacter 0x28)

/-- Decoding an encoded well-formed instruction gives it back, with every operand. -/
def Obligations.DecodeInvertsEncode : Prop :=
  ∀ i : Instr, i.wellFormed = true → decode (encode i) = .ok i

/-- Every code the decoder accepts is the encoding of the well-formed instruction it gives. -/
def Obligations.EncodeInvertsDecode : Prop :=
  ∀ (c : Code) (i : Instr), decode c = .ok i → i.wellFormed = true ∧ encode i = c

/-- The complete set of what is sent (30_encoding.md section 3): every frame of every host command's sequence, its text
included, is the frame of one of the seven LCD items. -/
def Obligations.OnlyTheSevenItemsAreSent : Prop :=
  ∀ (s : State) (i : Instr) (ms : List Micro), Inv s → hostSequence s i = some ms →
    ∀ m ∈ ms, (∀ p, m ≠ .prim p) → ∃ j, itemFrame s.cfg j = some m

/-- Under the table's three command bytes, the frame of an LCD item carries exactly the item's encoding. -/
def Obligations.ItemFramesCarryTheirEncoding : Prop :=
  ∀ (c : Cfg) (i : Instr) (m : Micro), c.cmdFunctionSet = 0x28#8 → c.cmdClearDisplay = 0x01#8 → c.cmdDisplayOn = 0x0C#8 →
    itemFrame c i = some m →
    (∀ n, encode i = .nib n → m = .nibble n) ∧ (∀ d v, encode i = .byte d v → m = .byte d v) ∧
    (∀ w, encode i ≠ .cw w)

/-! ### Steps -/

/-- An idle block takes the next command word and runs the instruction it decodes to; with none it waits. -/
def Obligations.StepRunsTheDecodedCommand : Prop :=
  (∀ (s : State) (w : CmdWord) (ws : List CmdWord) (i : Instr), CfgOk s → s.rst = .low → s.busy = false →
    s.cmds = w :: ws → decode (.cw w) = .ok i → step s = exec i { s with cmds := ws }) ∧
  (∀ s : State, CfgOk s → s.rst = .low → s.busy = false → s.cmds = [] → step s = .next s)

/-- A busy block does the next element of `SEQ`: an LCD item's frame is that item's `exec`; when only text bytes are
left, the next one is taken and its `LCD.CHARACTER` is run, or the block waits; when nothing is left it completes; and after
a failure in WRTEXT it discards text, nothing else changing, until the announced bytes are taken. That a held command goes on
one element a step is the model's choice (log 8); that `STATUS` is as before while text is discarded, and takes the code with
the last announced byte, is its inference (log 23). -/
def Obligations.StepRunsTheNextElement : Prop :=
  ∀ s : State, CfgOk s → s.rst = .low → s.busy = true →
    (∀ m ms n i, s.seq = .run (m :: ms) n → itemFrame s.cfg i = some m →
      step s = exec i { s with seq := .run ms n }) ∧
    (∀ n b bs, s.seq = .run [] (n + 1) → s.txt = b :: bs →
      step s = exec (.lcdCharacter b) { s with txt := bs, seq := .run [] n }) ∧
    (∀ n, s.seq = .run [] (n + 1) → s.txt = [] → step s = .next s) ∧
    (s.seq = .run [] 0 → step s = .next { s with status := .ok, busy := false, seq := .idle }) ∧
    (∀ n, s.seq = .drain n → n ≤ s.txt.length → step s =
      .next { s with txt := s.txt.drop n, status := .transportError, busy := false, seq := .idle }) ∧
    (∀ n, s.seq = .drain n → s.txt.length < n → step s =
      .next { s with txt := [], seq := .drain (n - s.txt.length) })

/-- The same for a primitive action at the head of `SEQ`, the rest of a held frame or of INIT: a register update is done and
nothing else; a write or a delay is met by its answer. The answers and the stepping by elements are the model's choice (log 5
to log 10, log 26), what a failed write does with outstanding text is its inference (`FailedWithText`, log 23). -/
def Obligations.StepRunsThePrimitiveAction : Prop :=
  ∀ (s : State) (ms : List Micro) (n : Nat), CfgOk s → s.rst = .low → s.busy = true →
    (∀ sig level, s.seq = .run (.prim (.drive sig level) :: ms) n →
      step s = .next { s with or := driven s.cfg.pins sig level s.or, seq := .run ms n }) ∧
    (∀ x, s.seq = .run (.prim (.driveData x) :: ms) n →
      step s = .next { s with or := drivenData s.cfg.pins x s.or, seq := .run ms n }) ∧
    (∀ f, s.seq = .run (.prim (.fsm f) :: ms) n → step s = .next { s with fsm := f, seq := .run ms n }) ∧
    (∀ v, s.seq = .run (.prim (.baseline v) :: ms) n →
      step s = .next { s with ds := v, dsv := true, seq := .run ms n }) ∧
    (s.seq = .run (.prim .commit :: ms) n →
      (s.txAnswers.head? = none ∨ s.txAnswers.head? = some .done →
        step s = .next { after [.tx s.or] s with seq := .run ms n }) ∧
      (∀ d, s.txAnswers.head? = some (.err d) → ∃ t, step s = .next t ∧ t.trace = s.trace ++ [.txFail s.or] ∧
        t.or = s.or ∧ t.xp = (if d then s.or else s.xp) ∧ FailedWithText n s t) ∧
      (s.txAnswers.head? = some .pending → step s = .next { s with txAnswers := s.txAnswers.tail }) ∧
      (s.txAnswers.head? = some .never → step s = .next s) ∧
      (∀ d, s.txAnswers.head? = some (.reset d) → ∃ t, step s = .next t ∧ ResetRegisters s t ∧
        t.xp = (if d then s.or else s.xp))) ∧
    (∀ x, s.seq = .run (.prim (.delay x) :: ms) n →
      (s.delayAnswers.head? = none ∨ s.delayAnswers.head? = some .elapsed →
        step s = .next { after [.delay x] s with seq := .run ms n }) ∧
      (s.delayAnswers.head? = some .pending → step s = .next { s with delayAnswers := s.delayAnswers.tail }) ∧
      (s.delayAnswers.head? = some .never → step s = .next s) ∧
      (s.delayAnswers.head? = some .reset → ∃ t, step s = .next t ∧ ResetRegisters s t ∧ t.xp = s.xp))

/-- Running a command in one step, as 10_state.md section 3 allows, and running it element by element, as the model does once
a command is held (its choice, log 8), end in the same state. -/
def Obligations.BigStepIsRepeatedSmallSteps : Prop :=
  ∀ (s : State) (ms : List Micro) (n : Nat), CfgOk s → s.rst = .low → s.busy = true → s.seq = .run ms n →
    ∃ k, Sys2Proof.core.run k s = .next (runOps ms n s)

/-! ### The instructions under a fault-free outside -/

/-- INIT (42_init_sequencer.md): its events in order, its 34 writes and 7 delays, and the state it leaves: `Ready`, the
baseline in `DS`, RW, RS and E low, Backlight as before, `XP = OR`. -/
def Obligations.InitRunsTheSevenSteps : Prop :=
  ∀ s : State, s.cfg.pins.ok = true → FaultFree s →
    exec .init s = .next (completedOk { after (initEvents s.cfg s.or) s with
      fsm := .ready, ds := s.cfg.cmdDisplayOn, dsv := true }) ∧
    (after (initEvents s.cfg s.or) s).or =
      pack s.cfg.pins false false false (line s.cfg.pins .bl s.or) (loNibble s.cfg.cmdDisplayOn) ∧
    (after (initEvents s.cfg s.or) s).xp = (after (initEvents s.cfg s.or) s).or ∧
    writes (initEvents s.cfg s.or) = 34 ∧ delays (initEvents s.cfg s.or) = 7

/-- BLON sets and BLOFF clears the Backlight line, in one transmission; nothing else changes. -/
def Obligations.BacklightCommandsSetAndClear : Prop :=
  ∀ s : State, s.cfg.pins.ok = true → FaultFree s →
    exec .blon s = .next (completedOk (after (txs [pack s.cfg.pins (line s.cfg.pins .rs s.or) (line s.cfg.pins .rw s.or)
      (line s.cfg.pins .e s.or) true (dataLines s.cfg.pins s.or)]) s)) ∧
    exec .bloff s = .next (completedOk (after (txs [pack s.cfg.pins (line s.cfg.pins .rs s.or) (line s.cfg.pins .rw s.or)
      (line s.cfg.pins .e s.or) false (dataLines s.cfg.pins s.or)]) s))

/-- With `DSV = 1` the three commands change their own flags of `DS`, keep the rest, and send the new
`DS` as one command byte. -/
def Obligations.DisplayCommandsWriteAndSendDs : Prop :=
  ∀ s : State, s.cfg.pins.ok = true → FaultFree s → s.dsv = true →
    ∀ x ∈ [(Instr.dispon, displayControlByte (dsFixed s.ds) true (dsCur s.ds) (dsBlink s.ds)),
           (.dispoff, displayControlByte (dsFixed s.ds) false (dsCur s.ds) (dsBlink s.ds)),
           (.curmode false false, displayControlByte (dsFixed s.ds) (dsOn s.ds) false false),
           (.curmode false true, displayControlByte (dsFixed s.ds) (dsOn s.ds) false true),
           (.curmode true false, displayControlByte (dsFixed s.ds) (dsOn s.ds) true false),
           (.curmode true true, displayControlByte (dsFixed s.ds) (dsOn s.ds) true true)],
      exec x.1 s = .next (completedOk (after (txs (byteBytesFrom s.cfg.pins s.or false x.2)) { s with ds := x.2 }))

/-- R123: with `DSV = 0` they raise `DsUnwritten`: nothing transmitted, nothing changed but `STATUS`; once `DSV` is set
only a reset clears it: no instruction and no step, a step that resumes a held command included. -/
def Obligations.DisplayCommandsRefusedBeforeBaseline : Prop :=
  (∀ (i : Instr) (s t : State), NoReset s → s.dsv = true → exec i s = .next t → t.dsv = true) ∧
  (∀ s t : State, NoReset s → s.rst = .low → s.dsv = true → step s = .next t → t.dsv = true) ∧
  ∀ s : State, Idle s → s.dsv = false → ∀ i, (i = .dispon ∨ i = .dispoff ∨ ∃ v k, i = .curmode v k) →
    exec i s = .next { s with status := .dsUnwritten }

/-- CLEAR sends Clear-Display and then waits `T_CLEAR` inside the command. -/
def Obligations.ClearSendsThenWaits : Prop :=
  ∀ s : State, s.cfg.pins.ok = true → FaultFree s →
    exec .clear s = .next (completedOk
      (after (txs (byteBytesFrom s.cfg.pins s.or false s.cfg.cmdClearDisplay) ++ [.delay s.cfg.tClear]) s))

/-- WRTEXT sends the cursor address and then each text byte in order, `7 × (1 + len)` writes and no delay, and takes
exactly its bytes from the text port. -/
def Obligations.WrtextSendsAddressThenText : Prop :=
  ∀ (s : State) (row col : Byte) (text rest : List Byte), s.cfg.pins.ok = true → FaultFree s → s.txt = text ++ rest →
    let bs := byteBytesFrom s.cfg.pins s.or false (cursorCommand row col)
      ++ charsBytes s.cfg.pins (line s.cfg.pins .rw s.or) (line s.cfg.pins .bl s.or) (loNibble (cursorCommand row col)) text
    exec (.wrtext row col text.length) s = .next (completedOk (after (txs bs) { s with txt := rest })) ∧
      bs.length = 7 * (1 + text.length)

/-- When the text port runs dry the block has sent what there was, waits with `BUSY = 1` for the next
byte, and transmits nothing meanwhile. -/
def Obligations.WrtextWaitsForMissingText : Prop :=
  ∀ (s : State) (row col : Byte) (len : Nat), s.cfg.pins.ok = true → FaultFree s → s.txt.length < len →
    exec (.wrtext row col len) s = .next { after (txs (byteBytesFrom s.cfg.pins s.or false (cursorCommand row col)
        ++ charsBytes s.cfg.pins (line s.cfg.pins .rw s.or) (line s.cfg.pins .bl s.or) (loNibble (cursorCommand row col))
          s.txt)) s with
      txt := [], busy := true, seq := .run [] (len - s.txt.length) }

/-- LCD.WAKE and LCD.SET4BIT: one `NIBBLE` frame, RS, RW and Backlight as they were; nothing else changes, the
rest of the command stays pending. -/
def Obligations.BareNibbleItems : Prop :=
  ∀ s : State, s.cfg.pins.ok = true → FaultFree s →
    exec .lcdWake s = .next (after (txs (nibbleBytesFrom s.cfg.pins s.or 0x3)) s) ∧
    exec .lcdSet4bit s = .next (after (txs (nibbleBytesFrom s.cfg.pins s.or 0x2)) s)

/-- The four command items and the character: one `BYTE` frame, RS low for a command and high for a character;
nothing else changes, the rest of the command stays pending. -/
def Obligations.ByteItems : Prop :=
  ∀ s : State, s.cfg.pins.ok = true → FaultFree s →
    exec .lcdFunctionSet s = .next (after (txs (byteBytesFrom s.cfg.pins s.or false s.cfg.cmdFunctionSet)) s) ∧
    exec .lcdClearDisplay s = .next (after (txs (byteBytesFrom s.cfg.pins s.or false s.cfg.cmdClearDisplay)) s) ∧
    (∀ d c b, exec (.lcdDisplayControl d c b) s = .next (after (txs (byteBytesFrom s.cfg.pins s.or false
      (displayControlByte (dsFixed s.cfg.cmdDisplayOn) d c b))) s)) ∧
    (∀ a : BitVec 7, exec (.lcdSetCursorAddress a) s =
      .next (after (txs (byteBytesFrom s.cfg.pins s.or false (0x80#8 ||| a.setWidth 8))) s)) ∧
    (∀ c, exec (.lcdCharacter c) s = .next (after (txs (byteBytesFrom s.cfg.pins s.or true c)) s))

/-- The properties of 43_display_cursor.md (the first the source's, the others the spec's inferences): the
backlight is idempotent in state though each call transmits; DISPOFF then DISPON restores `DS` after a
DISPON; the two families do not touch each other's state, on any answers but a reset. -/
def Obligations.BacklightAndDisplayProperties : Prop :=
  (∀ s t u : State, FaultFree s → exec .blon s = .next t → exec .blon t = .next u →
    u.or = t.or ∧ u.ds = t.ds ∧ u.trace = t.trace ++ [.tx t.or]) ∧
  (∀ s t u v : State, FaultFree s → s.dsv = true → exec .dispon s = .next t → exec .dispoff t = .next u →
    exec .dispon u = .next v → v.ds = t.ds) ∧
  (∀ s t : State, NoReset s → (exec .blon s = .next t ∨ exec .bloff s = .next t) → t.ds = s.ds) ∧
  (∀ (s t : State) (i : Instr), s.cfg.pins.ok = true → NoReset s →
    (i = .dispon ∨ i = .dispoff ∨ ∃ v k, i = .curmode v k) → exec i s = .next t →
    line s.cfg.pins .bl t.or = line s.cfg.pins .bl s.or ∧
    ((i = .dispon ∨ i = .dispoff) → dsCur t.ds = dsCur s.ds ∧ dsBlink t.ds = dsBlink s.ds) ∧
    ((∃ v k, i = .curmode v k) → dsOn t.ds = dsOn s.ds))

/-! ### Exceptions, waiting, reset in a command -/

/-- A host command whose write number `k` fails makes no further write or delay, keeps what was written up to the failing
setter, takes its whole text from the text port, and ends with `TransportError`; where announced bytes are not yet on the
port it waits for them with `BUSY = 1`, discarding them as they come, `STATUS` as before until then, which is the model's
inference (log 23). -/
def Obligations.TransportErrorEndsTheCommand : Prop :=
  ∀ (s : State) (i : Instr) (ms : List Micro) (k : Nat) (d : Bool) (rest : List TxAnswer),
    hostSequence s i = some ms → (∀ a ∈ s.delayAnswers, a = .elapsed) →
    s.txAnswers = List.replicate k .done ++ .err d :: rest → k < writes (planned s.cfg.pins ms s.or) →
    ∃ t, exec i s = .next t ∧
      t.trace = s.trace ++ failAt k (planned s.cfg.pins ms s.or) ∧
      some t.or = (eventBytes (failAt k (planned s.cfg.pins ms s.or))).getLast? ∧
      t.xp = (if d then t.or else ((eventBytes (planned s.cfg.pins ms s.or)).take k).getLastD s.xp) ∧
      FailedWithText (textLen i) s t ∧ t.txAnswers = rest

/-- R97: where a failing INIT leaves `FSM`, `DS` and `DSV`, by the step of the failing write. -/
def Obligations.InitAbortKeepsTheLastState : Prop :=
  ∀ (s : State) (k : Nat) (d : Bool) (rest : List TxAnswer), s.cfg.pins.ok = true →
    (∀ a ∈ s.delayAnswers, a = .elapsed) → s.txAnswers = List.replicate k .done ++ .err d :: rest → k < 34 →
    ∃ t, exec .init s = .next t ∧ t.trace = s.trace ++ failAt k (initEvents s.cfg s.or) ∧
      t.status = .transportError ∧ t.busy = false ∧
      some t.or = (eventBytes (failAt k (initEvents s.cfg s.or))).getLast? ∧
      t.fsm = (if k < 13 then .unknown else if k < 20 then .forcedIdle else if k < 27 then .functionConfigured
        else .cleared) ∧
      t.ds = (if k < 27 then s.ds else s.cfg.cmdDisplayOn) ∧ t.dsv = (if k < 27 then s.dsv else true)

/-- When the send of DISPON, DISPOFF or CURMODE fails, `DS` keeps the new value. -/
def Obligations.FailedSendKeepsTheNewDs : Prop :=
  ∀ (s : State) (k : Nat) (d : Bool) (rest : List TxAnswer), s.dsv = true → k < 7 →
    s.txAnswers = List.replicate k .done ++ .err d :: rest →
    (∃ t, exec .dispon s = .next t ∧ t.status = .transportError ∧ t.dsv = true ∧
      t.ds = displayControlByte (dsFixed s.ds) true (dsCur s.ds) (dsBlink s.ds)) ∧
    (∃ t, exec .dispoff s = .next t ∧ t.status = .transportError ∧ t.dsv = true ∧
      t.ds = displayControlByte (dsFixed s.ds) false (dsCur s.ds) (dsBlink s.ds)) ∧
    (∀ v b, ∃ t, exec (.curmode v b) s = .next t ∧ t.status = .transportError ∧ t.dsv = true ∧
      t.ds = displayControlByte (dsFixed s.ds) (dsOn s.ds) v b)

/-- A failed write is never silent and nothing follows it: whatever the answers short of
a reset, a failure is the last event of the command, and the command has ended with `TransportError` or is discarding its
text. -/
def Obligations.FailuresAreLastAndReported : Prop :=
  ∀ (i : Instr) (s t : State), NoReset s → exec i s = .next t →
    ∃ es, t.trace = s.trace ++ es ∧
      ∀ b, Event.txFail b ∈ es →
        (∃ es', es = es' ++ [.txFail b] ∧ ∀ c, Event.txFail c ∉ es') ∧
        ((t.status = .transportError ∧ t.busy = false ∧ t.seq = .idle) ∨ ∃ n, t.seq = .drain (n + 1))

/-- Any write of any host command that has no answer holds the command with `BUSY = 1`: the writes before it done, `OR`
already written, `XP` not, `STATUS` as before, the request on the transport port. With still no answer nothing changes; that
each such step uses up one entry of the list is the model's choice (log 7). -/
def Obligations.UnansweredWriteHolds : Prop :=
  ∀ (s : State) (i : Instr) (ms : List Micro) (k : Nat) (as : List TxAnswer), CfgOk s → s.rst = .low →
    hostSequence s i = some ms → (∀ a ∈ s.delayAnswers, a = .elapsed) →
    s.txAnswers = List.replicate k .done ++ .pending :: as → k < writes (planned s.cfg.pins ms s.or) →
    ∃ t, exec i s = .next t ∧ t.busy = true ∧ t.status = s.status ∧
      t.trace = s.trace ++ beforeWrite k (planned s.cfg.pins ms s.or) ∧
      some t.or = (eventBytes (planned s.cfg.pins ms s.or))[k]? ∧
      t.xp = ((eventBytes (planned s.cfg.pins ms s.or)).take k).getLastD s.xp ∧ t.txAnswers = as ∧
      txPort t = some { addr := s.cfg.devAddr, data := t.or } ∧ cmdReady t = false ∧
      ∀ as', as = .pending :: as' → step t = .next { t with txAnswers := as' }

/-- A write that is never answered, or a delay that never ends, at any point of any host command is a hang with `BUSY = 1`
and no fault: no number of steps changes anything, whatever the host presents; only reset ends it, and then the byte in
flight may or may not have reached the expander. The model's choices: the endless wait is an entry of the list, which the
reset takes away (log 26); no `Delay` event stands in the trace while the endless delay still runs (log 10); reset between
two steps is the input `rst` with its flag (log 9). -/
def Obligations.EndlessWaitIsAHang : Prop :=
  ∀ (s : State) (i : Instr) (ms : List Micro) (k : Nat), CfgOk s → s.rst = .low → hostSequence s i = some ms →
    (∀ as, (∀ a ∈ s.delayAnswers, a = .elapsed) → s.txAnswers = List.replicate k .done ++ .never :: as →
      k < writes (planned s.cfg.pins ms s.or) →
      ∃ t, exec i s = .next t ∧ t.busy = true ∧ t.status = s.status ∧
        t.trace = s.trace ++ beforeWrite k (planned s.cfg.pins ms s.or) ∧
        (∀ n cs bs, Sys2Proof.core.run n { t with cmds := t.cmds ++ cs, txt := t.txt ++ bs } =
          .next { t with cmds := t.cmds ++ cs, txt := t.txt ++ bs }) ∧
        ∀ d, ∃ u, step { t with rst := .high d } = .next u ∧ ResetRegisters s u ∧ u.txAnswers = as ∧
          u.xp = (if d then t.or else t.xp)) ∧
    (∀ ds, (∀ a ∈ s.txAnswers, a = .done) → s.delayAnswers = List.replicate k .elapsed ++ .never :: ds →
      k < delays (planned s.cfg.pins ms s.or) →
      ∃ t, exec i s = .next t ∧ t.busy = true ∧ t.status = s.status ∧
        t.trace = s.trace ++ beforeDelay k (planned s.cfg.pins ms s.or) ∧
        (∀ n cs bs, Sys2Proof.core.run n { t with cmds := t.cmds ++ cs, txt := t.txt ++ bs } =
          .next { t with cmds := t.cmds ++ cs, txt := t.txt ++ bs }) ∧
        ∀ d, ∃ u, step { t with rst := .high d } = .next u ∧ ResetRegisters s u ∧ u.delayAnswers = ds ∧ u.xp = t.xp)

/-- 70_reset_and_hazards.md section 4: every command has a static number of writes and delays and completes, provided each
write is eventually answered, each delay eventually ends, and the announced text is supplied; short of a reset, a command in
progress ends with `Ok` or `TransportError`. That the answers are lists, an endless wait an entry of them, and that a held
command goes on one element a step, is the model's choice (log 5, log 6, log 8, log 26). -/
def Obligations.EveryCommandCompletes : Prop :=
  (∀ (s : State) (i : Instr) (ms : List Micro), hostSequence s i = some ms → textLen i ≤ s.txt.length →
    writes (planned s.cfg.pins ms s.or) = writeCount i ∧ delays (planned s.cfg.pins ms s.or) = delayCount i) ∧
  (∀ (s : State) (i : Instr), CfgOk s → s.rst = .low → Idle s → Answered s → textLen i ≤ s.txt.length →
    ∃ k t u, exec i s = .next t ∧ Sys2Proof.core.run k t = .next u ∧ u.busy = false) ∧
  (∀ s : State, CfgOk s → s.rst = .low → s.busy = true → s.seq ≠ .idle → Answered s → s.seq.chars ≤ s.txt.length →
    ∃ k u, Sys2Proof.core.run k s = .next u ∧ u.busy = false ∧
      (NoReset s → u.status = .ok ∨ u.status = .transportError))

/-- INIT makes `FSM` `Unknown` before its first wait, whatever it held. That the trace has no event while that wait still runs
is the model's choice (log 10). -/
def Obligations.InitFirstMakesFsmUnknown : Prop :=
  ∀ (s : State) (ds : List DelayAnswer), s.delayAnswers = .pending :: ds →
    ∃ t, exec .init s = .next t ∧ t.fsm = .unknown ∧ t.busy = true ∧ t.trace = s.trace ∧ t.or = s.or ∧
      t.ds = s.ds ∧ t.dsv = s.dsv ∧ t.status = s.status

/-- R143: a reset at any write or during any delay of a host command abandons it: the registers take their reset values,
no status is reported, and a byte in flight may or may not have reached the expander. -/
def Obligations.ResetMayCutACommandAnywhere : Prop :=
  ∀ (s : State) (i : Instr) (ms : List Micro) (k : Nat), hostSequence s i = some ms →
    (∀ d rest, (∀ a ∈ s.delayAnswers, a = .elapsed) → s.txAnswers = List.replicate k .done ++ .reset d :: rest →
      k < writes (planned s.cfg.pins ms s.or) →
      ∃ t, exec i s = .next t ∧ ResetRegisters s t ∧
        t.xp = ((eventBytes (planned s.cfg.pins ms s.or)).take (if d then k + 1 else k)).getLastD s.xp) ∧
    (∀ rest, (∀ a ∈ s.txAnswers, a = .done) → s.delayAnswers = List.replicate k .elapsed ++ .reset :: rest →
      k < delays (planned s.cfg.pins ms s.or) →
      ∃ t, exec i s = .next t ∧ ResetRegisters s t ∧
        t.xp = (eventBytes (beforeDelay k (planned s.cfg.pins ms s.or))).getLastD s.xp)

/-- The same of a reset that arrives between two steps, in any state: the registers take their reset values; a write on the
transport port may or may not have reached the expander, and if it has, the LCD saw it; with none there, the expander and the
LCD keep what they had. That reset between two steps is the input `rst`, whose flag is the outside's draw for the byte in flight,
is the model's choice (log 9); that the LCD's record survives a reset is the model's choice (log 19), that a write in flight latches
is its inference (log 19). -/
def Obligations.ResetMayCutAHeldCommand : Prop :=
  ∀ (s : State) (d : Bool), CfgOk s → s.rst = .high d → ∃ t, step s = .next t ∧ ResetRegisters s t ∧
    (∀ r, txPort s = some r → r.data = s.or ∧ t.xp = (if d then r.data else s.xp) ∧
      t.latched = s.latched ++ (if d then latchesOf s.cfg.pins s.xp [r.data] else [])) ∧
    (txPort s = none → t.xp = s.xp ∧ t.latched = s.latched)

/-! ### What instructions leave alone -/

/-- The frame of every instruction on any answers: configuration, reset input and command port unchanged, the text port
only consumed from its head; and, short of a reset, `DS` unchanged but for its four writers, `DSV` and `FSM` but for
INIT. That a reset among the answers leaves the two ports as they are is the model's choice (log 9, log 13). -/
def Obligations.ExecFrame : Prop :=
  ∀ (i : Instr) (s t : State), exec i s = .next t →
    t.cfg = s.cfg ∧ t.rst = s.rst ∧ t.cmds = s.cmds ∧
    (∃ n, n ≤ textLen i + s.seq.chars ∧ t.txt = s.txt.drop n) ∧
    (NoReset s → i ≠ .init → t.dsv = s.dsv ∧ t.fsm = s.fsm) ∧
    (NoReset s → i ≠ .init → i ≠ .dispon → i ≠ .dispoff → (∀ v k, i ≠ .curmode v k) → t.ds = s.ds)

/-- The frame of a step that resumes a command in progress, short of a reset: configuration, reset input and command port
unchanged, text only taken from the head of its port, `STATUS` unchanged until the command completes, `FSM` written only by
an `FSM` action of INIT and `DS` and `DSV` only by its baseline action, the trace only appended to; and a block that discards
text touches neither `OR` nor what is outside. That such a step does one element, so that only the action at the head of `SEQ`
can write, is the model's choice (log 8); that `STATUS` is as before while text is discarded is its inference (log 23). -/
def Obligations.ResumeFrame : Prop :=
  ∀ s t : State, s.rst = .low → s.busy = true → NoReset s → step s = .next t →
    t.cfg = s.cfg ∧ t.rst = .low ∧ t.cmds = s.cmds ∧ (∃ n, n ≤ s.seq.chars ∧ t.txt = s.txt.drop n) ∧
    (t.busy = true → t.status = s.status) ∧
    ((∀ f ms n, s.seq ≠ .run (.prim (.fsm f) :: ms) n) → t.fsm = s.fsm) ∧
    ((∀ v ms n, s.seq ≠ .run (.prim (.baseline v) :: ms) n) → t.ds = s.ds ∧ t.dsv = s.dsv) ∧
    (∃ es, t.trace = s.trace ++ es) ∧
    (∀ n, s.seq = .drain n → t.or = s.or ∧ t.xp = s.xp ∧ t.latched = s.latched ∧ t.trace = s.trace ∧
      t.txAnswers = s.txAnswers ∧ t.delayAnswers = s.delayAnswers)

/-- 70_reset_and_hazards.md section 3 (the spec's inference from the setters): every byte written carries the Backlight
level and only BLON and BLOFF change it; these re-assert every other line, and latch nothing when E is low. -/
def Obligations.BacklightRidesAlong : Prop :=
  ∀ (i : Instr) (s t : State), s.cfg.pins.ok = true → NoReset s → exec i s = .next t →
    (i ≠ .blon → i ≠ .bloff →
      line s.cfg.pins .bl t.or = line s.cfg.pins .bl s.or ∧
      ∃ es, t.trace = s.trace ++ es ∧ ∀ b ∈ eventBytes es, line s.cfg.pins .bl b = line s.cfg.pins .bl s.or) ∧
    (i = .blon ∨ i = .bloff →
      (∀ sig, sig ≠ .bl → line s.cfg.pins sig t.or = line s.cfg.pins sig s.or) ∧
      (line s.cfg.pins .e s.or = false → line s.cfg.pins .e s.xp = false → t.latched = s.latched))

/-- While `DSV = 0` no rule uses `DS`: two states that differ in `DS` alone step to states that differ at most in
`DS`, and not even there once `DSV` is set. -/
def Obligations.UnwrittenDsIsNeverUsed : Prop :=
  ∀ (s t : State) (x : Byte), s.dsv = false → step s = .next t →
    ∃ t', step { s with ds := x } = .next t' ∧ { t' with ds := t.ds } = t ∧ (t.dsv = true → t'.ds = t.ds)

/-! ### The invariant -/

/-- The machine right after reset meets the invariant. -/
def Obligations.ResetMeetsInvariant : Prop := Inv State.reset

/-- Every step keeps the invariant, from every state that meets it. -/
def Obligations.StepKeepsInvariant : Prop := ∀ s t : State, Inv s → step s = .next t → Inv t
end

