-- ==== Sys2Proof/Laws/Pins.lean ====
section
/-! SUPPORT. The pin mapping: a checked one is a bijection of signals and bits (R12), so bytes are equal when their lines
are, and what each register update and `pack` do to each line. -/

namespace Sys2Proof.Machine

/-- A checked mapping, index by index (R124). -/
theorem PinMap_ok_iff (p : PinMap) :
    p.ok = true ↔ (∀ b ∈ p.indices, b ≤ 7) ∧ p.indices.Nodup := by
  simp [PinMap.ok, List.all_eq_true]

theorem index_mem (p : PinMap) (sig : Signal) : p.index sig ∈ p.indices := by
  cases sig <;> simp [PinMap.index, PinMap.indices]

theorem index_le (p : PinMap) (h : p.ok = true) (sig : Signal) : p.index sig ≤ 7 :=
  ((PinMap_ok_iff p).1 h).1 _ (index_mem p sig)

/-- Different signals have different bits (R5). -/
theorem index_injective (p : PinMap) (h : p.ok = true) {a b : Signal} (hab : p.index a = p.index b) : a = b := by
  have hn := ((PinMap_ok_iff p).1 h).2
  simp only [PinMap.indices, List.nodup_cons, List.mem_cons, List.not_mem_nil, or_false, not_or] at hn
  cases a <;> cases b <;> simp_all [PinMap.index]

/-- Every bit carries a signal: there is no spare bit (R12). -/
theorem index_surjective (p : PinMap) (h : p.ok = true) {i : Nat} (hi : i < 8) : ∃ sig, p.index sig = i := by
  obtain ⟨hle, hn⟩ := (PinMap_ok_iff p).1 h
  have hsub : p.indices ⊆ List.range 8 := fun b hb => List.mem_range.2 (by have := hle b hb; omega)
  have hperm : p.indices.Perm (List.range 8) :=
    (List.subperm_of_subset hn hsub).perm_of_length_le (by simp [PinMap.indices])
  have hmem : i ∈ p.indices := hperm.mem_iff.2 (List.mem_range.2 hi)
  simp only [PinMap.indices, List.mem_cons, List.not_mem_nil, or_false] at hmem
  rcases hmem with h | h | h | h | h | h | h | h
  · exact ⟨.rs, h.symm⟩
  · exact ⟨.rw, h.symm⟩
  · exact ⟨.e, h.symm⟩
  · exact ⟨.bl, h.symm⟩
  · exact ⟨.d4, h.symm⟩
  · exact ⟨.d5, h.symm⟩
  · exact ⟨.d6, h.symm⟩
  · exact ⟨.d7, h.symm⟩

/-- Two bytes with the same eight lines are equal. -/
theorem eq_of_lines (p : PinMap) (h : p.ok = true) {a b : Byte} (hl : ∀ sig, line p sig a = line p sig b) : a = b := by
  apply BitVec.eq_of_getLsbD_eq
  intro i hi
  obtain ⟨sig, rfl⟩ := index_surjective p h hi
  exact hl sig

theorem line_or (p : PinMap) (sig : Signal) (a b : Byte) : line p sig (a ||| b) = (line p sig a || line p sig b) := by
  simp [line]

theorem line_mask (p : PinMap) (h : p.ok = true) (sig x : Signal) : line p sig (p.mask x) = decide (sig = x) := by
  have h1 := index_le p h sig
  have h2 := index_le p h x
  by_cases hs : sig = x
  · subst hs
    simp [line, PinMap.mask]; omega
  · have hne : p.index sig ≠ p.index x := fun he => hs (index_injective p h he)
    simp [line, PinMap.mask, hs]
    omega

theorem line_lineMask (p : PinMap) (h : p.ok = true) (sig x : Signal) (l : Bool) :
    line p sig (lineMask p x l) = (decide (sig = x) && l) := by
  cases l <;> simp [lineMask, line_mask p h]
  simp [line]

theorem line_not_mask (p : PinMap) (h : p.ok = true) (sig x : Signal) (o : Byte) :
    line p sig (o &&& ~~~(p.mask x)) = (line p sig o && !decide (sig = x)) := by
  have h1 := index_le p h sig
  have := line_mask p h sig x
  simp only [line] at this
  simp only [line, BitVec.getLsbD_and, BitVec.getLsbD_not, this]
  have : p.index sig < 8 := by omega
  simp [this]

/-- A setter's update writes its own line only (R71 to R74). -/
theorem line_driven (p : PinMap) (h : p.ok = true) (sig x : Signal) (l : Bool) (o : Byte) :
    line p sig (driven p x l o) = if sig = x then l else line p sig o := by
  unfold driven
  cases l
  · simp only [Bool.false_eq_true, if_false, line_not_mask p h]
    by_cases hs : sig = x <;> simp [hs]
  · simp only [if_true, line_or, line_mask p h]
    by_cases hs : sig = x <;> simp [hs]

/-- The data update writes the four data lines only (R75). -/
theorem line_drivenData (p : PinMap) (h : p.ok = true) (sig : Signal) (n : Nib) (o : Byte) :
    line p sig (drivenData p n o) =
      match sig with
      | .d4 => n.getLsbD 0
      | .d5 => n.getLsbD 1
      | .d6 => n.getLsbD 2
      | .d7 => n.getLsbD 3
      | .rs => line p .rs o
      | .rw => line p .rw o
      | .e => line p .e o
      | .bl => line p .bl o := by
  have hcl : ∀ sig, line p sig (o &&& ~~~p.dataMask) =
      (line p sig o && !(decide (sig = .d4) || decide (sig = .d5) || decide (sig = .d6) || decide (sig = .d7))) := by
    intro sig
    have h1 := index_le p h sig
    have hlt : p.index sig < 8 := by omega
    have e4 := line_mask p h sig .d4
    have e5 := line_mask p h sig .d5
    have e6 := line_mask p h sig .d6
    have e7 := line_mask p h sig .d7
    simp only [line] at e4 e5 e6 e7
    simp only [line, PinMap.dataMask, BitVec.getLsbD_and, BitVec.getLsbD_not, BitVec.getLsbD_or, e4, e5, e6, e7, hlt,
      decide_true, Bool.true_and]
  have hif : ∀ (c : Bool) (x : Signal) (a : Byte), line p sig (if c = true then a ||| p.mask x else a) =
      (line p sig a || (c && decide (sig = x))) := by
    intro c x a
    cases c <;> simp [line_or, line_mask p h]
  simp only [drivenData, hif, hcl]
  cases sig <;> simp

theorem line_pack (p : PinMap) (h : p.ok = true) (sig : Signal) (rs rw e bl : Bool) (n : Nib) :
    line p sig (pack p rs rw e bl n) =
      match sig with
      | .rs => rs
      | .rw => rw
      | .e => e
      | .bl => bl
      | .d4 => n.getLsbD 0
      | .d5 => n.getLsbD 1
      | .d6 => n.getLsbD 2
      | .d7 => n.getLsbD 3 := by
  simp only [pack, line_or, line_lineMask p h]
  cases sig <;> simp

/-- The data lines of a byte, bit by bit (R52). -/
theorem getLsbD_dataLines (p : PinMap) (b : Byte) :
    (dataLines p b).getLsbD 0 = line p .d4 b ∧ (dataLines p b).getLsbD 1 = line p .d5 b ∧
    (dataLines p b).getLsbD 2 = line p .d6 b ∧ (dataLines p b).getLsbD 3 = line p .d7 b := by
  unfold dataLines
  generalize line p .d4 b = x4
  generalize line p .d5 b = x5
  generalize line p .d6 b = x6
  generalize line p .d7 b = x7
  cases x4 <;> cases x5 <;> cases x6 <;> cases x7 <;> decide

/-- A nibble is its four bits. -/
theorem nib_ext {a b : Nib} (h0 : a.getLsbD 0 = b.getLsbD 0) (h1 : a.getLsbD 1 = b.getLsbD 1)
    (h2 : a.getLsbD 2 = b.getLsbD 2) (h3 : a.getLsbD 3 = b.getLsbD 3) : a = b := by
  apply BitVec.eq_of_getLsbD_eq
  intro i hi
  have : i = 0 ∨ i = 1 ∨ i = 2 ∨ i = 3 := by omega
  rcases this with rfl | rfl | rfl | rfl <;> assumption

theorem dataLines_eq (p : PinMap) (b : Byte) (n : Nib) (h4 : line p .d4 b = n.getLsbD 0)
    (h5 : line p .d5 b = n.getLsbD 1) (h6 : line p .d6 b = n.getLsbD 2) (h7 : line p .d7 b = n.getLsbD 3) :
    dataLines p b = n := by
  obtain ⟨g4, g5, g6, g7⟩ := getLsbD_dataLines p b
  exact nib_ext (g4.trans h4) (g5.trans h5) (g6.trans h6) (g7.trans h7)

theorem dataLines_pack (p : PinMap) (h : p.ok = true) (rs rw e bl : Bool) (n : Nib) :
    dataLines p (pack p rs rw e bl n) = n := by
  apply dataLines_eq <;> simp [line_pack p h]

/-- A byte is the `pack` of its lines (R48). -/
theorem pack_lines (p : PinMap) (h : p.ok = true) (o : Byte) :
    pack p (line p .rs o) (line p .rw o) (line p .e o) (line p .bl o) (dataLines p o) = o := by
  obtain ⟨g4, g5, g6, g7⟩ := getLsbD_dataLines p o
  apply eq_of_lines p h
  intro sig
  rw [line_pack p h]
  cases sig <;> simp only [g4, g5, g6, g7]

theorem driven_rs_pack (p : PinMap) (h : p.ok = true) (l rs rw e bl : Bool) (n : Nib) :
    driven p .rs l (pack p rs rw e bl n) = pack p l rw e bl n := by
  apply eq_of_lines p h
  intro sig
  cases sig <;> simp [line_driven p h, line_pack p h]

theorem driven_rw_pack (p : PinMap) (h : p.ok = true) (l rs rw e bl : Bool) (n : Nib) :
    driven p .rw l (pack p rs rw e bl n) = pack p rs l e bl n := by
  apply eq_of_lines p h
  intro sig
  cases sig <;> simp [line_driven p h, line_pack p h]

theorem driven_e_pack (p : PinMap) (h : p.ok = true) (l rs rw e bl : Bool) (n : Nib) :
    driven p .e l (pack p rs rw e bl n) = pack p rs rw l bl n := by
  apply eq_of_lines p h
  intro sig
  cases sig <;> simp [line_driven p h, line_pack p h]

theorem driven_bl_pack (p : PinMap) (h : p.ok = true) (l rs rw e bl : Bool) (n : Nib) :
    driven p .bl l (pack p rs rw e bl n) = pack p rs rw e l n := by
  apply eq_of_lines p h
  intro sig
  cases sig <;> simp [line_driven p h, line_pack p h]

theorem drivenData_pack (p : PinMap) (h : p.ok = true) (rs rw e bl : Bool) (n m : Nib) :
    drivenData p m (pack p rs rw e bl n) = pack p rs rw e bl m := by
  apply eq_of_lines p h
  intro sig
  cases sig <;> simp [line_drivenData p h, line_pack p h]

end Sys2Proof.Machine
end

