-- ==== Sys2Proof/Laws/State.lean ====
section
/-! SUPPORT. For each update of the state, what it does to each field. -/

namespace Sys2Proof.Machine

@[simp] theorem doReset_cfg (s : State) : (doReset s).cfg = s.cfg := rfl
@[simp] theorem doReset_or (s : State) : (doReset s).or = s.cfg.orReset := rfl
@[simp] theorem doReset_ds (s : State) : (doReset s).ds = dsAtReset := rfl
@[simp] theorem doReset_dsv (s : State) : (doReset s).dsv = false := rfl
@[simp] theorem doReset_fsm (s : State) : (doReset s).fsm = .unknown := rfl
@[simp] theorem doReset_busy (s : State) : (doReset s).busy = false := rfl
@[simp] theorem doReset_status (s : State) : (doReset s).status = .ok := rfl
@[simp] theorem doReset_seq (s : State) : (doReset s).seq = .idle := rfl
@[simp] theorem doReset_xp (s : State) : (doReset s).xp = s.xp := rfl
@[simp] theorem doReset_latched (s : State) : (doReset s).latched = s.latched := rfl
@[simp] theorem doReset_trace (s : State) : (doReset s).trace = [] := rfl
@[simp] theorem doReset_cmds (s : State) : (doReset s).cmds = s.cmds := rfl
@[simp] theorem doReset_txt (s : State) : (doReset s).txt = s.txt := rfl
@[simp] theorem doReset_rst (s : State) : (doReset s).rst = s.rst := rfl
@[simp] theorem doReset_txAnswers (s : State) : (doReset s).txAnswers = s.txAnswers := rfl
@[simp] theorem doReset_delayAnswers (s : State) : (doReset s).delayAnswers = s.delayAnswers := rfl

@[simp] theorem complete_cfg (c : Status) (s : State) : (complete c s).cfg = s.cfg := rfl
@[simp] theorem complete_or (c : Status) (s : State) : (complete c s).or = s.or := rfl
@[simp] theorem complete_ds (c : Status) (s : State) : (complete c s).ds = s.ds := rfl
@[simp] theorem complete_dsv (c : Status) (s : State) : (complete c s).dsv = s.dsv := rfl
@[simp] theorem complete_fsm (c : Status) (s : State) : (complete c s).fsm = s.fsm := rfl
@[simp] theorem complete_busy (c : Status) (s : State) : (complete c s).busy = false := rfl
@[simp] theorem complete_status (c : Status) (s : State) : (complete c s).status = c := rfl
@[simp] theorem complete_seq (c : Status) (s : State) : (complete c s).seq = .idle := rfl
@[simp] theorem complete_xp (c : Status) (s : State) : (complete c s).xp = s.xp := rfl
@[simp] theorem complete_latched (c : Status) (s : State) : (complete c s).latched = s.latched := rfl
@[simp] theorem complete_trace (c : Status) (s : State) : (complete c s).trace = s.trace := rfl
@[simp] theorem complete_cmds (c : Status) (s : State) : (complete c s).cmds = s.cmds := rfl
@[simp] theorem complete_txt (c : Status) (s : State) : (complete c s).txt = s.txt := rfl
@[simp] theorem complete_rst (c : Status) (s : State) : (complete c s).rst = s.rst := rfl
@[simp] theorem complete_txAnswers (c : Status) (s : State) : (complete c s).txAnswers = s.txAnswers := rfl
@[simp] theorem complete_delayAnswers (c : Status) (s : State) : (complete c s).delayAnswers = s.delayAnswers := rfl

@[simp] theorem raise_cfg (x : Status) (s : State) : (raise x s).cfg = s.cfg := rfl
@[simp] theorem raise_or (x : Status) (s : State) : (raise x s).or = s.or := rfl
@[simp] theorem raise_ds (x : Status) (s : State) : (raise x s).ds = s.ds := rfl
@[simp] theorem raise_dsv (x : Status) (s : State) : (raise x s).dsv = s.dsv := rfl
@[simp] theorem raise_fsm (x : Status) (s : State) : (raise x s).fsm = s.fsm := rfl
@[simp] theorem raise_busy (x : Status) (s : State) : (raise x s).busy = false := rfl
@[simp] theorem raise_status (x : Status) (s : State) : (raise x s).status = x := rfl
@[simp] theorem raise_seq (x : Status) (s : State) : (raise x s).seq = .idle := rfl
@[simp] theorem raise_xp (x : Status) (s : State) : (raise x s).xp = s.xp := rfl
@[simp] theorem raise_latched (x : Status) (s : State) : (raise x s).latched = s.latched := rfl
@[simp] theorem raise_trace (x : Status) (s : State) : (raise x s).trace = s.trace := rfl
@[simp] theorem raise_cmds (x : Status) (s : State) : (raise x s).cmds = s.cmds := rfl
@[simp] theorem raise_txt (x : Status) (s : State) : (raise x s).txt = s.txt := rfl
@[simp] theorem raise_rst (x : Status) (s : State) : (raise x s).rst = s.rst := rfl
@[simp] theorem raise_txAnswers (x : Status) (s : State) : (raise x s).txAnswers = s.txAnswers := rfl
@[simp] theorem raise_delayAnswers (x : Status) (s : State) : (raise x s).delayAnswers = s.delayAnswers := rfl

@[simp] theorem accept_cfg (s : State) : (accept s).cfg = s.cfg := rfl
@[simp] theorem accept_or (s : State) : (accept s).or = s.or := rfl
@[simp] theorem accept_ds (s : State) : (accept s).ds = s.ds := rfl
@[simp] theorem accept_dsv (s : State) : (accept s).dsv = s.dsv := rfl
@[simp] theorem accept_fsm (s : State) : (accept s).fsm = s.fsm := rfl
@[simp] theorem accept_busy (s : State) : (accept s).busy = true := rfl
@[simp] theorem accept_status (s : State) : (accept s).status = s.status := rfl
@[simp] theorem accept_seq (s : State) : (accept s).seq = s.seq := rfl
@[simp] theorem accept_xp (s : State) : (accept s).xp = s.xp := rfl
@[simp] theorem accept_latched (s : State) : (accept s).latched = s.latched := rfl
@[simp] theorem accept_trace (s : State) : (accept s).trace = s.trace := rfl
@[simp] theorem accept_cmds (s : State) : (accept s).cmds = s.cmds := rfl
@[simp] theorem accept_txt (s : State) : (accept s).txt = s.txt := rfl
@[simp] theorem accept_rst (s : State) : (accept s).rst = s.rst := rfl
@[simp] theorem accept_txAnswers (s : State) : (accept s).txAnswers = s.txAnswers := rfl
@[simp] theorem accept_delayAnswers (s : State) : (accept s).delayAnswers = s.delayAnswers := rfl

@[simp] theorem record_cfg (ev : Event) (s : State) : (record ev s).cfg = s.cfg := rfl
@[simp] theorem record_or (ev : Event) (s : State) : (record ev s).or = s.or := rfl
@[simp] theorem record_ds (ev : Event) (s : State) : (record ev s).ds = s.ds := rfl
@[simp] theorem record_dsv (ev : Event) (s : State) : (record ev s).dsv = s.dsv := rfl
@[simp] theorem record_fsm (ev : Event) (s : State) : (record ev s).fsm = s.fsm := rfl
@[simp] theorem record_busy (ev : Event) (s : State) : (record ev s).busy = s.busy := rfl
@[simp] theorem record_status (ev : Event) (s : State) : (record ev s).status = s.status := rfl
@[simp] theorem record_seq (ev : Event) (s : State) : (record ev s).seq = s.seq := rfl
@[simp] theorem record_xp (ev : Event) (s : State) : (record ev s).xp = s.xp := rfl
@[simp] theorem record_latched (ev : Event) (s : State) : (record ev s).latched = s.latched := rfl
@[simp] theorem record_trace (ev : Event) (s : State) : (record ev s).trace = s.trace ++ [ev] := rfl
@[simp] theorem record_cmds (ev : Event) (s : State) : (record ev s).cmds = s.cmds := rfl
@[simp] theorem record_txt (ev : Event) (s : State) : (record ev s).txt = s.txt := rfl
@[simp] theorem record_rst (ev : Event) (s : State) : (record ev s).rst = s.rst := rfl
@[simp] theorem record_txAnswers (ev : Event) (s : State) : (record ev s).txAnswers = s.txAnswers := rfl
@[simp] theorem record_delayAnswers (ev : Event) (s : State) : (record ev s).delayAnswers = s.delayAnswers := rfl

@[simp] theorem deliver_cfg (b : Byte) (s : State) : (deliver b s).cfg = s.cfg := rfl
@[simp] theorem deliver_or (b : Byte) (s : State) : (deliver b s).or = s.or := rfl
@[simp] theorem deliver_ds (b : Byte) (s : State) : (deliver b s).ds = s.ds := rfl
@[simp] theorem deliver_dsv (b : Byte) (s : State) : (deliver b s).dsv = s.dsv := rfl
@[simp] theorem deliver_fsm (b : Byte) (s : State) : (deliver b s).fsm = s.fsm := rfl
@[simp] theorem deliver_busy (b : Byte) (s : State) : (deliver b s).busy = s.busy := rfl
@[simp] theorem deliver_status (b : Byte) (s : State) : (deliver b s).status = s.status := rfl
@[simp] theorem deliver_seq (b : Byte) (s : State) : (deliver b s).seq = s.seq := rfl
@[simp] theorem deliver_xp (b : Byte) (s : State) : (deliver b s).xp = b := rfl
@[simp] theorem deliver_latched (b : Byte) (s : State) : (deliver b s).latched = s.latched ++ latchEdge s.cfg.pins s.xp b := rfl
@[simp] theorem deliver_trace (b : Byte) (s : State) : (deliver b s).trace = s.trace := rfl
@[simp] theorem deliver_cmds (b : Byte) (s : State) : (deliver b s).cmds = s.cmds := rfl
@[simp] theorem deliver_txt (b : Byte) (s : State) : (deliver b s).txt = s.txt := rfl
@[simp] theorem deliver_rst (b : Byte) (s : State) : (deliver b s).rst = s.rst := rfl
@[simp] theorem deliver_txAnswers (b : Byte) (s : State) : (deliver b s).txAnswers = s.txAnswers := rfl
@[simp] theorem deliver_delayAnswers (b : Byte) (s : State) : (deliver b s).delayAnswers = s.delayAnswers := rfl

@[simp] theorem completedOk_cfg (s : State) : (completedOk s).cfg = s.cfg := rfl
@[simp] theorem completedOk_or (s : State) : (completedOk s).or = s.or := rfl
@[simp] theorem completedOk_ds (s : State) : (completedOk s).ds = s.ds := rfl
@[simp] theorem completedOk_dsv (s : State) : (completedOk s).dsv = s.dsv := rfl
@[simp] theorem completedOk_fsm (s : State) : (completedOk s).fsm = s.fsm := rfl
@[simp] theorem completedOk_busy (s : State) : (completedOk s).busy = false := rfl
@[simp] theorem completedOk_status (s : State) : (completedOk s).status = .ok := rfl
@[simp] theorem completedOk_seq (s : State) : (completedOk s).seq = .idle := rfl
@[simp] theorem completedOk_xp (s : State) : (completedOk s).xp = s.xp := rfl
@[simp] theorem completedOk_latched (s : State) : (completedOk s).latched = s.latched := rfl
@[simp] theorem completedOk_trace (s : State) : (completedOk s).trace = s.trace := rfl
@[simp] theorem completedOk_cmds (s : State) : (completedOk s).cmds = s.cmds := rfl
@[simp] theorem completedOk_txt (s : State) : (completedOk s).txt = s.txt := rfl
@[simp] theorem completedOk_rst (s : State) : (completedOk s).rst = s.rst := rfl
@[simp] theorem completedOk_txAnswers (s : State) : (completedOk s).txAnswers = s.txAnswers := rfl
@[simp] theorem completedOk_delayAnswers (s : State) : (completedOk s).delayAnswers = s.delayAnswers := rfl

@[simp] theorem after_cfg (es : List Event) (s : State) : (after es s).cfg = s.cfg := rfl
@[simp] theorem after_or (es : List Event) (s : State) : (after es s).or = (eventBytes es).getLastD s.or := rfl
@[simp] theorem after_ds (es : List Event) (s : State) : (after es s).ds = s.ds := rfl
@[simp] theorem after_dsv (es : List Event) (s : State) : (after es s).dsv = s.dsv := rfl
@[simp] theorem after_fsm (es : List Event) (s : State) : (after es s).fsm = s.fsm := rfl
@[simp] theorem after_busy (es : List Event) (s : State) : (after es s).busy = s.busy := rfl
@[simp] theorem after_status (es : List Event) (s : State) : (after es s).status = s.status := rfl
@[simp] theorem after_seq (es : List Event) (s : State) : (after es s).seq = s.seq := rfl
@[simp] theorem after_xp (es : List Event) (s : State) : (after es s).xp = (eventBytes es).getLastD s.xp := rfl
@[simp] theorem after_latched (es : List Event) (s : State) : (after es s).latched = s.latched ++ latchesOf s.cfg.pins s.xp (eventBytes es) := rfl
@[simp] theorem after_trace (es : List Event) (s : State) : (after es s).trace = s.trace ++ es := rfl
@[simp] theorem after_cmds (es : List Event) (s : State) : (after es s).cmds = s.cmds := rfl
@[simp] theorem after_txt (es : List Event) (s : State) : (after es s).txt = s.txt := rfl
@[simp] theorem after_rst (es : List Event) (s : State) : (after es s).rst = s.rst := rfl
@[simp] theorem after_txAnswers (es : List Event) (s : State) : (after es s).txAnswers = s.txAnswers.drop (writes es) := rfl
@[simp] theorem after_delayAnswers (es : List Event) (s : State) : (after es s).delayAnswers = s.delayAnswers.drop (delays es) := rfl

/-- `deliverIf` is `deliver` or nothing. -/
theorem deliverIf_eq (d : Bool) (b : Byte) (s : State) : deliverIf d b s = if d = true then deliver b s else s := by
  cases d <;> rfl

@[simp] theorem deliverIf_cfg (d : Bool) (b : Byte) (s : State) : (deliverIf d b s).cfg = s.cfg := by cases d <;> rfl
@[simp] theorem deliverIf_or (d : Bool) (b : Byte) (s : State) : (deliverIf d b s).or = s.or := by cases d <;> rfl
@[simp] theorem deliverIf_ds (d : Bool) (b : Byte) (s : State) : (deliverIf d b s).ds = s.ds := by cases d <;> rfl
@[simp] theorem deliverIf_dsv (d : Bool) (b : Byte) (s : State) : (deliverIf d b s).dsv = s.dsv := by cases d <;> rfl
@[simp] theorem deliverIf_fsm (d : Bool) (b : Byte) (s : State) : (deliverIf d b s).fsm = s.fsm := by cases d <;> rfl
@[simp] theorem deliverIf_busy (d : Bool) (b : Byte) (s : State) : (deliverIf d b s).busy = s.busy := by cases d <;> rfl
@[simp] theorem deliverIf_status (d : Bool) (b : Byte) (s : State) : (deliverIf d b s).status = s.status := by cases d <;> rfl
@[simp] theorem deliverIf_seq (d : Bool) (b : Byte) (s : State) : (deliverIf d b s).seq = s.seq := by cases d <;> rfl
@[simp] theorem deliverIf_trace (d : Bool) (b : Byte) (s : State) : (deliverIf d b s).trace = s.trace := by cases d <;> rfl
@[simp] theorem deliverIf_cmds (d : Bool) (b : Byte) (s : State) : (deliverIf d b s).cmds = s.cmds := by cases d <;> rfl
@[simp] theorem deliverIf_txt (d : Bool) (b : Byte) (s : State) : (deliverIf d b s).txt = s.txt := by cases d <;> rfl
@[simp] theorem deliverIf_rst (d : Bool) (b : Byte) (s : State) : (deliverIf d b s).rst = s.rst := by cases d <;> rfl
@[simp] theorem deliverIf_txAnswers (d : Bool) (b : Byte) (s : State) : (deliverIf d b s).txAnswers = s.txAnswers := by cases d <;> rfl
@[simp] theorem deliverIf_delayAnswers (d : Bool) (b : Byte) (s : State) : (deliverIf d b s).delayAnswers = s.delayAnswers := by cases d <;> rfl
@[simp] theorem deliverIf_xp (d : Bool) (b : Byte) (s : State) : (deliverIf d b s).xp = if d = true then b else s.xp := by cases d <;> rfl

end Sys2Proof.Machine
end

