-- ==== Sys2Proof/Laws/Ops.lean ====
section
/-! SUPPORT. What the shared operations can do, said once each: primitive actions, frames, and running a command. -/

namespace Sys2Proof.Machine

/-! ### Results of primitive actions -/

/-- The state a result carries. -/
def resState : Res → State
  | .fin s => s
  | .err s => s
  | .held _ s => s
  | .rst s => s

/-- A result with its state changed. -/
def resMap (f : State → State) : Res → Res
  | .fin s => .fin (f s)
  | .err s => .err (f s)
  | .held rem s => .held rem (f s)
  | .rst s => .rst (f s)

@[simp] theorem resState_fin (s : State) : resState (.fin s) = s := rfl
@[simp] theorem resState_err (s : State) : resState (.err s) = s := rfl
@[simp] theorem resState_held (rem : List Prim) (s : State) : resState (.held rem s) = s := rfl
@[simp] theorem resState_rst (s : State) : resState (.rst s) = s := rfl
@[simp] theorem resMap_fin (f : State → State) (s : State) : resMap f (.fin s) = .fin (f s) := rfl
@[simp] theorem resMap_err (f : State → State) (s : State) : resMap f (.err s) = .err (f s) := rfl
@[simp] theorem resMap_held (f : State → State) (rem : List Prim) (s : State) :
    resMap f (.held rem s) = .held rem (f s) := rfl
@[simp] theorem resMap_rst (f : State → State) (s : State) : resMap f (.rst s) = .rst (f s) := rfl

@[simp] theorem runPrims_nil (s : State) : runPrims [] s = .fin s := rfl

/-- Running a list is running its first part and then, if that was done, the rest. -/
theorem runPrims_append (ps qs : List Prim) (s : State) :
    runPrims (ps ++ qs) s =
      match runPrims ps s with
      | .fin s' => runPrims qs s'
      | .err s' => .err s'
      | .held rem s' => .held (rem ++ qs) s'
      | .rst s' => .rst s' := by
  induction ps generalizing s with
  | nil => rfl
  | cons p ps ih =>
    simp only [List.cons_append, runPrims]
    cases hp : runPrim p s with
    | fin s' => exact ih s'
    | err s' => rfl
    | held rem s' => simp
    | rst s' => rfl

/-- The outcomes of `commit` (R31, R70, R162). -/
theorem commit_eq (s : State) :
    commit s =
      match s.txAnswers with
      | [] => .fin (record (.tx s.or) (deliver s.or s))
      | .done :: as => .fin (record (.tx s.or) (deliver s.or { s with txAnswers := as }))
      | .err d :: as => .err (record (.txFail s.or) (deliverIf d s.or { s with txAnswers := as }))
      | .pending :: as => .held [.commit] { s with txAnswers := as }
      | .never :: _ => .held [.commit] s
      | .reset d :: as => .rst (deliverIf d s.or { s with txAnswers := as }) := rfl

/-- Everything a reset can meet outside the block: a write on the port, a running delay, or neither (R143, R162). -/
theorem cutOutside_cases (d : Bool) (s : State) :
    (∃ ms n, s.seq = .run (.prim .commit :: ms) n ∧ txPort s = some (commitRequest s) ∧
      cutOutside d s = deliverIf d s.or { s with txAnswers := dropNever s.txAnswers }) ∨
    (∃ t ms n, s.seq = .run (.prim (.delay t) :: ms) n ∧ txPort s = none ∧
      cutOutside d s = { s with delayAnswers := dropEndless s.delayAnswers }) ∨
    (txPort s = none ∧ cutOutside d s = s) := by
  by_cases hc : ∃ ms n, s.seq = .run (.prim .commit :: ms) n
  · obtain ⟨ms, n, h⟩ := hc
    exact .inl ⟨ms, n, h, by simp [txPort, h], by simp [cutOutside, h]⟩
  · by_cases hd : ∃ t ms n, s.seq = .run (.prim (.delay t) :: ms) n
    · obtain ⟨t, ms, n, h⟩ := hd
      exact .inr (.inl ⟨t, ms, n, h, by simp [txPort, h], by simp [cutOutside, h]⟩)
    · refine .inr (.inr ⟨?_, ?_⟩)
      · unfold txPort; split <;> simp_all
      · unfold cutOutside; split <;> simp_all

/-- What it leaves alone: the block's registers, the configuration, the ports and the trace. -/
theorem cutOutside_frame (d : Bool) (s : State) :
    (cutOutside d s).cfg = s.cfg ∧ (cutOutside d s).or = s.or ∧ (cutOutside d s).cmds = s.cmds ∧
    (cutOutside d s).txt = s.txt ∧ (cutOutside d s).rst = s.rst ∧ (cutOutside d s).trace = s.trace := by
  obtain ⟨ms, n, -, -, h⟩ | ⟨t, ms, n, -, -, h⟩ | ⟨-, h⟩ := cutOutside_cases d s <;> rw [h] <;> simp

/-- What a primitive action never touches. -/
theorem runPrim_frame (p : Prim) (s : State) :
    (resState (runPrim p s)).cfg = s.cfg ∧ (resState (runPrim p s)).cmds = s.cmds ∧
    (resState (runPrim p s)).txt = s.txt ∧ (resState (runPrim p s)).rst = s.rst ∧
    (resState (runPrim p s)).busy = s.busy ∧ (resState (runPrim p s)).status = s.status ∧
    (resState (runPrim p s)).seq = s.seq := by
  cases p with
  | commit => simp only [runPrim, commit_eq]; split <;> simp
  | delay t => simp only [runPrim, waitDelay]; split <;> simp
  | drive sig l => simp [runPrim]
  | driveData n => simp [runPrim]
  | fsm f => simp [runPrim]
  | baseline v => simp [runPrim]

/-- What no list of primitive actions touches: the configuration, the ports, `BUSY`, `STATUS` and `SEQ`. -/
theorem runPrims_frame (ps : List Prim) (s : State) :
    (resState (runPrims ps s)).cfg = s.cfg ∧ (resState (runPrims ps s)).cmds = s.cmds ∧
    (resState (runPrims ps s)).txt = s.txt ∧ (resState (runPrims ps s)).rst = s.rst ∧
    (resState (runPrims ps s)).busy = s.busy ∧ (resState (runPrims ps s)).status = s.status ∧
    (resState (runPrims ps s)).seq = s.seq := by
  induction ps generalizing s with
  | nil => simp
  | cons p ps ih =>
    have hp := runPrim_frame p s
    simp only [runPrims]
    cases h : runPrim p s with
    | fin s' => rw [h] at hp; have := ih s'; simp_all
    | err s' => rw [h] at hp; simp_all
    | held rem s' => rw [h] at hp; simp_all
    | rst s' => rw [h] at hp; simp_all

/-- `SEQ` is not read by any primitive action. -/
theorem runPrim_setSeq (p : Prim) (s : State) (x : Seq) :
    runPrim p { s with seq := x } = resMap (fun t => { t with seq := x }) (runPrim p s) := by
  cases p with
  | commit =>
    obtain ⟨cfg, or, ds, dsv, fsm, busy, status, seq, xp, latched, trace, cmds, txt, rst, answers, waits⟩ := s
    rcases answers with _ | ⟨a, as⟩
    · rfl
    · cases a with
      | done => rfl
      | err d => cases d <;> rfl
      | pending => rfl
      | never => rfl
      | reset d => cases d <;> rfl
  | delay t =>
    obtain ⟨cfg, or, ds, dsv, fsm, busy, status, seq, xp, latched, trace, cmds, txt, rst, answers, waits⟩ := s
    rcases waits with _ | ⟨a, as⟩
    · rfl
    · cases a <;> rfl
  | drive sig l => rfl
  | driveData n => rfl
  | fsm f => rfl
  | baseline v => rfl

theorem runPrims_setSeq (ps : List Prim) (s : State) (x : Seq) :
    runPrims ps { s with seq := x } = resMap (fun t => { t with seq := x }) (runPrims ps s) := by
  induction ps generalizing s with
  | nil => rfl
  | cons p ps ih =>
    simp only [runPrims, runPrim_setSeq]
    cases h : runPrim p s with
    | fin s' => exact ih s'
    | err s' => rfl
    | held rem s' => rfl
    | rst s' => rfl

/-! ### Everything a list of primitive actions can do -/

/-- `OR` after primitive actions that were all done. -/
def endOr (p : PinMap) : List Prim → Byte → Byte
  | [], o => o
  | .drive sig level :: ps, o => endOr p ps (driven p sig level o)
  | .driveData n :: ps, o => endOr p ps (drivenData p n o)
  | .commit :: ps, o => endOr p ps o
  | .delay _ :: ps, o => endOr p ps o
  | .fsm _ :: ps, o => endOr p ps o
  | .baseline _ :: ps, o => endOr p ps o

/-- The inversion of `runPrims`: all done, with the planned events; or write number `k` failed, with the events up to it;
or it waits before `rem`, what came before it done; or reset arrived (R37, R87, R130, R143). -/
theorem runPrims_cases (ps : List Prim) (s : State) :
    match runPrims ps s with
    | .fin t => t.trace = s.trace ++ plannedPrims s.cfg.pins ps s.or ∧ t.or = endOr s.cfg.pins ps s.or
    | .err t => ∃ k, k < writes (plannedPrims s.cfg.pins ps s.or) ∧
        t.trace = s.trace ++ failAt k (plannedPrims s.cfg.pins ps s.or) ∧
        some t.or = (eventBytes (failAt k (plannedPrims s.cfg.pins ps s.or))).getLast?
    | .held rem t => ∃ qs, ps = qs ++ rem ∧ t.trace = s.trace ++ plannedPrims s.cfg.pins qs s.or ∧
        t.or = endOr s.cfg.pins qs s.or ∧ (∃ rs, rem = .commit :: rs ∨ ∃ d, rem = .delay d :: rs)
    | .rst _ => TxAnswer.reset true ∈ s.txAnswers ∨ TxAnswer.reset false ∈ s.txAnswers ∨ DelayAnswer.reset ∈ s.delayAnswers
    := by
  induction ps generalizing s with
  | nil => simp [plannedPrims, endOr]
  | cons p ps ih =>
    cases p with
    | drive sig l =>
      have := ih { s with or := driven s.cfg.pins sig l s.or }
      simp only [runPrims, runPrim, plannedPrims]
      revert this
      cases runPrims ps { s with or := driven s.cfg.pins sig l s.or } with
      | fin t => simp [endOr]
      | err t => simp
      | held rem t => rintro ⟨qs, h1, h2, h3, h4⟩; exact ⟨.drive sig l :: qs, by simp [h1], h2, h3, h4⟩
      | rst t => simp
    | driveData n =>
      have := ih { s with or := drivenData s.cfg.pins n s.or }
      simp only [runPrims, runPrim, plannedPrims]
      revert this
      cases runPrims ps { s with or := drivenData s.cfg.pins n s.or } with
      | fin t => simp [endOr]
      | err t => simp
      | held rem t => rintro ⟨qs, h1, h2, h3, h4⟩; exact ⟨.driveData n :: qs, by simp [h1], h2, h3, h4⟩
      | rst t => simp
    | fsm f =>
      have := ih { s with fsm := f }
      simp only [runPrims, runPrim, plannedPrims]
      revert this
      cases runPrims ps { s with fsm := f } with
      | fin t => simp [endOr]
      | err t => simp
      | held rem t => rintro ⟨qs, h1, h2, h3, h4⟩; exact ⟨.fsm f :: qs, by simp [h1], h2, h3, h4⟩
      | rst t => simp
    | baseline v =>
      have := ih { s with ds := v, dsv := true }
      simp only [runPrims, runPrim, plannedPrims]
      revert this
      cases runPrims ps { s with ds := v, dsv := true } with
      | fin t => simp [endOr]
      | err t => simp
      | held rem t => rintro ⟨qs, h1, h2, h3, h4⟩; exact ⟨.baseline v :: qs, by simp [h1], h2, h3, h4⟩
      | rst t => simp
    | commit =>
      have hgo : ∀ t : State, t.cfg = s.cfg → t.or = s.or → t.trace = s.trace ++ [.tx s.or] →
          (∀ a ∈ t.txAnswers, a ∈ s.txAnswers) → t.delayAnswers = s.delayAnswers →
          match runPrims ps t with
          | .fin u => u.trace = s.trace ++ plannedPrims s.cfg.pins (.commit :: ps) s.or ∧
              u.or = endOr s.cfg.pins (.commit :: ps) s.or
          | .err u => ∃ k, k < writes (plannedPrims s.cfg.pins (.commit :: ps) s.or) ∧
              u.trace = s.trace ++ failAt k (plannedPrims s.cfg.pins (.commit :: ps) s.or) ∧
              some u.or = (eventBytes (failAt k (plannedPrims s.cfg.pins (.commit :: ps) s.or))).getLast?
          | .held rem u => ∃ qs, (Prim.commit :: ps) = qs ++ rem ∧
              u.trace = s.trace ++ plannedPrims s.cfg.pins qs s.or ∧
              u.or = endOr s.cfg.pins qs s.or ∧ (∃ rs, rem = .commit :: rs ∨ ∃ d, rem = .delay d :: rs)
          | .rst _ => TxAnswer.reset true ∈ s.txAnswers ∨ TxAnswer.reset false ∈ s.txAnswers ∨
              DelayAnswer.reset ∈ s.delayAnswers := by
        intro t hc ho ht ha hd
        have := ih t
        rw [hc, ho, ht] at this
        revert this
        cases runPrims ps t with
        | fin u => simp [plannedPrims, endOr]
        | err u =>
          rintro ⟨k, h1, h2, h3⟩
          refine ⟨k + 1, by simpa [plannedPrims, writes] using h1, by simpa [plannedPrims, failAt] using h2, ?_⟩
          simp only [plannedPrims, failAt, eventBytes]
          rw [List.getLast?_cons, ← h3]; rfl
        | held rem u =>
          rintro ⟨qs, h1, h2, h3, h4⟩
          exact ⟨.commit :: qs, by simp [h1], by simpa [plannedPrims] using h2, h3, h4⟩
        | rst u =>
          rintro (h | h | h)
          · exact .inl (ha _ h)
          · exact .inr (.inl (ha _ h))
          · exact .inr (.inr (hd ▸ h))
      simp only [runPrims, runPrim, commit_eq]
      rcases ha : s.txAnswers with _ | ⟨a, as⟩
      · simpa [ha] using hgo (record (.tx s.or) (deliver s.or s)) rfl rfl rfl (fun a h => h) rfl
      · cases a with
        | done =>
          simpa [ha] using hgo (record (.tx s.or) (deliver s.or { s with txAnswers := as })) rfl rfl rfl
            (fun a h => by rw [ha]; exact List.mem_cons_of_mem _ h) rfl
        | err d => exact ⟨0, by simp [plannedPrims, writes], by simp [plannedPrims, failAt], by
            simp [plannedPrims, failAt, eventBytes]⟩
        | pending => exact ⟨[], rfl, by simp [plannedPrims], rfl, _, .inl rfl⟩
        | never => exact ⟨[], rfl, by simp [plannedPrims], rfl, _, .inl rfl⟩
        | reset d => cases d <;> simp
    | delay t =>
      have hgo : ∀ t' : State, t'.cfg = s.cfg → t'.or = s.or → t'.trace = s.trace ++ [.delay t] →
          t'.txAnswers = s.txAnswers → (∀ a ∈ t'.delayAnswers, a ∈ s.delayAnswers) →
          match runPrims ps t' with
          | .fin u => u.trace = s.trace ++ plannedPrims s.cfg.pins (.delay t :: ps) s.or ∧
              u.or = endOr s.cfg.pins (.delay t :: ps) s.or
          | .err u => ∃ k, k < writes (plannedPrims s.cfg.pins (.delay t :: ps) s.or) ∧
              u.trace = s.trace ++ failAt k (plannedPrims s.cfg.pins (.delay t :: ps) s.or) ∧
              some u.or = (eventBytes (failAt k (plannedPrims s.cfg.pins (.delay t :: ps) s.or))).getLast?
          | .held rem u => ∃ qs, (Prim.delay t :: ps) = qs ++ rem ∧
              u.trace = s.trace ++ plannedPrims s.cfg.pins qs s.or ∧
              u.or = endOr s.cfg.pins qs s.or ∧ (∃ rs, rem = .commit :: rs ∨ ∃ d, rem = .delay d :: rs)
          | .rst _ => TxAnswer.reset true ∈ s.txAnswers ∨ TxAnswer.reset false ∈ s.txAnswers ∨
              DelayAnswer.reset ∈ s.delayAnswers := by
        intro t' hc ho ht ha hd
        have := ih t'
        rw [hc, ho, ht] at this
        revert this
        cases runPrims ps t' with
        | fin u => simp [plannedPrims, endOr]
        | err u =>
          rintro ⟨k, h1, h2, h3⟩
          refine ⟨k, by simpa [plannedPrims, writes] using h1, ?_, ?_⟩
          · rw [h2]; cases k <;> simp [plannedPrims, failAt]
          · rw [h3]; cases k <;> simp [plannedPrims, failAt, eventBytes]
        | held rem u =>
          rintro ⟨qs, h1, h2, h3, h4⟩
          exact ⟨.delay t :: qs, by simp [h1], by simpa [plannedPrims] using h2, h3, h4⟩
        | rst u =>
          rintro (h | h | h)
          · exact .inl (ha ▸ h)
          · exact .inr (.inl (ha ▸ h))
          · exact .inr (.inr (hd _ h))
      simp only [runPrims, runPrim, waitDelay]
      rcases hd : s.delayAnswers with _ | ⟨a, as⟩
      · simpa [hd] using hgo (record (.delay t) s) rfl rfl rfl rfl (fun a h => h)
      · cases a with
        | elapsed =>
          simpa [hd] using hgo (record (.delay t) { s with delayAnswers := as }) rfl rfl rfl rfl
            (fun a h => by rw [hd]; exact List.mem_cons_of_mem _ h)
        | pending => exact ⟨[], rfl, by simp [plannedPrims], rfl, _, .inr ⟨t, rfl⟩⟩
        | never => exact ⟨[], rfl, by simp [plannedPrims], rfl, _, .inr ⟨t, rfl⟩⟩
        | reset => simp

/-! ### The fault-free outside -/

/-- A fault-free outside stays so as its answers are used up. -/
theorem FaultFree_after (es : List Event) (s : State) (h : FaultFree s) : FaultFree (after es s) :=
  ⟨fun a ha => h.1 a (List.mem_of_mem_drop ha), fun d hd => h.2 d (List.mem_of_mem_drop hd)⟩

theorem writes_append (es fs : List Event) : writes (es ++ fs) = writes es + writes fs := by
  induction es with
  | nil => simp [writes]
  | cons e es ih => cases e <;> simp [writes, ih] <;> omega

theorem delays_append (es fs : List Event) : delays (es ++ fs) = delays es + delays fs := by
  induction es with
  | nil => simp [delays]
  | cons e es ih => cases e <;> simp [delays, ih]; omega

theorem eventBytes_append (es fs : List Event) : eventBytes (es ++ fs) = eventBytes es ++ eventBytes fs := by
  induction es with
  | nil => rfl
  | cons e es ih => cases e <;> simp [eventBytes, ih]

theorem latchesOf_append (p : PinMap) (o : Byte) (as bs : List Byte) :
    latchesOf p o (as ++ bs) = latchesOf p o as ++ latchesOf p (as.getLastD o) bs := by
  induction as generalizing o with
  | nil => rfl
  | cons a as ih =>
    simp only [List.cons_append, latchesOf, ih, List.append_assoc, List.getLastD_cons]

@[simp] theorem eventBytes_txs (bs : List Byte) : eventBytes (txs bs) = bs := by
  induction bs with
  | nil => rfl
  | cons b bs ih => simpa [txs, eventBytes] using ih

@[simp] theorem writes_txs (bs : List Byte) : writes (txs bs) = bs.length := by
  induction bs with
  | nil => rfl
  | cons b bs ih => simpa [txs, writes] using ih

@[simp] theorem delays_txs (bs : List Byte) : delays (txs bs) = 0 := by
  induction bs with
  | nil => rfl
  | cons b bs ih => simpa [txs, delays] using ih

theorem txs_append (as bs : List Byte) : txs (as ++ bs) = txs as ++ txs bs := by simp [txs]

@[simp] theorem after_nil (s : State) : after [] s = s := by
  simp [after, eventBytes, writes, delays, latchesOf]

/-- Events one after the other. -/
theorem after_append (es fs : List Event) (s : State) : after (es ++ fs) s = after fs (after es s) := by
  simp [after, eventBytes_append, writes_append, delays_append, latchesOf_append, List.drop_drop]

/-- A completed write. -/
theorem commit_faultFree (s : State) (h : FaultFree s) : commit s = .fin (after [.tx s.or] s) := by
  rw [commit_eq]
  split <;> simp_all [FaultFree, after, record, deliver, eventBytes, writes, delays, latchesOf]

/-- A completed delay. -/
theorem waitDelay_faultFree (t : Nat) (s : State) (h : FaultFree s) : waitDelay t s = .fin (after [.delay t] s) := by
  unfold waitDelay
  split <;> simp_all [FaultFree, after, record, eventBytes, writes, delays, latchesOf]

/-- A setter under a fault-free outside: `OR` updated, then transmitted (R77). -/
theorem runPrims_setter (s : State) (h : FaultFree s) (sig : Signal) (l : Bool) (ps : List Prim) :
    runPrims (.drive sig l :: .commit :: ps) s =
      runPrims ps (after [.tx (driven s.cfg.pins sig l s.or)] s) := by
  have := commit_faultFree { s with or := driven s.cfg.pins sig l s.or } h
  simp only [runPrims, runPrim, this]
  rfl

theorem runPrims_dataSetter (s : State) (h : FaultFree s) (n : Nib) (ps : List Prim) :
    runPrims (.driveData n :: .commit :: ps) s =
      runPrims ps (after [.tx (drivenData s.cfg.pins n s.or)] s) := by
  have := commit_faultFree { s with or := drivenData s.cfg.pins n s.or } h
  simp only [runPrims, runPrim, this]
  rfl

/-- A `NIBBLE` frame under a fault-free outside (R50, R80). -/
theorem runPrims_sendNibble (s : State) (hp : s.cfg.pins.ok = true) (h : FaultFree s) (n : Nib) (ps : List Prim) :
    runPrims (sendNibble n ++ ps) s = runPrims ps (after (txs (nibbleBytesFrom s.cfg.pins s.or n)) s) := by
  have e1 : driven s.cfg.pins .e true s.or = pack s.cfg.pins (line s.cfg.pins .rs s.or) (line s.cfg.pins .rw s.or) true
      (line s.cfg.pins .bl s.or) (dataLines s.cfg.pins s.or) := by
    conv_lhs => rw [← pack_lines s.cfg.pins hp s.or]
    rw [driven_e_pack _ hp]
  simp only [sendNibble, setE, setDataNibble, List.cons_append, List.nil_append]
  rw [runPrims_setter s h, runPrims_dataSetter _ (FaultFree_after _ _ h),
    runPrims_setter _ (FaultFree_after _ _ (FaultFree_after _ _ h)), ← after_append, ← after_append]
  simp only [after_cfg, after_or, eventBytes, List.getLastD, e1, drivenData_pack _ hp, List.cons_append,
    List.nil_append, driven_e_pack _ hp, txs, nibbleBytesFrom, nibbleBytes, List.map_cons, List.map_nil, List.getLast]

theorem nibbleBytes_last (p : PinMap) (rs rw bl : Bool) (old n : Nib) (x : Byte) :
    (nibbleBytes p rs rw bl old n).getLastD x = pack p rs rw false bl n := rfl

/-- A `BYTE` frame under a fault-free outside (R51, R81). -/
theorem runPrims_writeByte (s : State) (hp : s.cfg.pins.ok = true) (h : FaultFree s) (d : Bool) (v : Byte)
    (ps : List Prim) :
    runPrims (writeByte d v ++ ps) s = runPrims ps (after (txs (byteBytesFrom s.cfg.pins s.or d v)) s) := by
  have e1 : driven s.cfg.pins .rs d s.or = pack s.cfg.pins d (line s.cfg.pins .rw s.or) (line s.cfg.pins .e s.or)
      (line s.cfg.pins .bl s.or) (dataLines s.cfg.pins s.or) := by
    conv_lhs => rw [← pack_lines s.cfg.pins hp s.or]
    rw [driven_rs_pack _ hp]
  simp only [writeByte, setRS, List.append_assoc, List.cons_append, List.nil_append]
  have h1 := FaultFree_after [.tx (driven s.cfg.pins .rs d s.or)] s h
  rw [runPrims_setter s h, runPrims_sendNibble (after _ s) hp h1,
    runPrims_sendNibble (after _ (after _ s)) hp (FaultFree_after _ _ h1), ← after_append, ← after_append]
  congr 2
  simp only [after_cfg, after_or, eventBytes, eventBytes_txs, e1, nibbleBytesFrom, line_pack _ hp,
    dataLines_pack _ hp, nibbleBytes_last, List.getLastD_cons, List.getLastD_nil, byteBytesFrom, byteBytes]
  rfl

/-- The bytes of a `BYTE` frame are seven, and the last leaves E low and the low nibble on the data lines (R51, R85). -/
theorem byteBytes_length (p : PinMap) (rw e bl d : Bool) (old : Nib) (v : Byte) :
    (byteBytes p rw e bl d old v).length = 7 := rfl

theorem byteBytes_last (p : PinMap) (rw e bl d : Bool) (old : Nib) (v x : Byte) :
    (byteBytes p rw e bl d old v).getLastD x = pack p d rw false bl (loNibble v) := rfl

/-- A setter element by itself. -/
theorem runMicro_drive (s : State) (sig : Signal) (l : Bool) :
    runMicro (.prim (.drive sig l)) s = .fin { s with or := driven s.cfg.pins sig l s.or } := rfl

theorem runMicro_commit (s : State) (h : FaultFree s) :
    runMicro (.prim .commit) s = .fin (after [.tx s.or] s) := by
  simp [runMicro, expand, runPrims, runPrim, commit_faultFree s h]

theorem runMicro_delay (s : State) (h : FaultFree s) (t : Nat) :
    runMicro (.prim (.delay t)) s = .fin (after [.delay t] s) := by
  simp [runMicro, expand, runPrims, runPrim, waitDelay_faultFree t s h]

theorem runMicro_fsm (s : State) (f : Fsm) : runMicro (.prim (.fsm f)) s = .fin { s with fsm := f } := rfl

theorem runMicro_baseline (s : State) (v : Byte) :
    runMicro (.prim (.baseline v)) s = .fin { s with ds := v, dsv := true } := rfl

theorem runMicro_nibble (s : State) (hp : s.cfg.pins.ok = true) (h : FaultFree s) (n : Nib) :
    runMicro (.nibble n) s = .fin (after (txs (nibbleBytesFrom s.cfg.pins s.or n)) s) := by
  have := runPrims_sendNibble s hp h n []
  simpa [runMicro, expand] using this

theorem runMicro_byte (s : State) (hp : s.cfg.pins.ok = true) (h : FaultFree s) (d : Bool) (v : Byte) :
    runMicro (.byte d v) s = .fin (after (txs (byteBytesFrom s.cfg.pins s.or d v)) s) := by
  have := runPrims_writeByte s hp h d v []
  simpa [runMicro, expand] using this

/-! ### Running a command -/

@[simp] theorem conclude_fin (ms : List Micro) (n : Nat) (k : State → State) (s : State) :
    conclude ms n k (.fin s) = k s := rfl
@[simp] theorem conclude_err (ms : List Micro) (n : Nat) (k : State → State) (s : State) :
    conclude ms n k (.err s) = drainText n s := rfl
@[simp] theorem conclude_held (ms : List Micro) (n : Nat) (k : State → State) (rem : List Prim) (s : State) :
    conclude ms n k (.held rem s) = { s with busy := true, seq := .run (asMicros rem ++ ms) n } := rfl
@[simp] theorem conclude_rst (ms : List Micro) (n : Nat) (k : State → State) (s : State) :
    conclude ms n k (.rst s) = doReset s := rfl

@[simp] theorem runOps_nil (n : Nat) (s : State) : runOps [] n s = runText n s := rfl
theorem runOps_cons (m : Micro) (ms : List Micro) (n : Nat) (s : State) :
    runOps (m :: ms) n s = conclude ms n (runOps ms n) (runMicro m s) := rfl
@[simp] theorem runText_zero (s : State) : runText 0 s = complete .ok s := rfl

/-- Everything `drainText` can do: discard all `n` bytes and raise, or take what is there and wait (R117). -/
theorem drainText_spec (n : Nat) (s : State) :
    drainText n s =
      if n ≤ s.txt.length then raise .transportError { s with txt := s.txt.drop n }
      else { s with txt := [], busy := true, seq := .drain (n - s.txt.length) } := by
  induction n generalizing s with
  | zero => simp [drainText]
  | succ n ih =>
    cases h : s.txt with
    | nil => simp [drainText, h]
    | cons b bs =>
      have := ih { s with txt := bs }
      simp only [drainText, h, this]
      simp

/-- `SEQ` is not read by `drainText`, `runText` or `runOps`: each ends by writing it. -/
theorem drainText_setSeq (n : Nat) (s : State) (x : Seq) : drainText n { s with seq := x } = drainText n s := by
  simp only [drainText_spec]
  split <;> rfl

theorem conclude_setSeq (ms : List Micro) (n : Nat) (k : State → State) (x : Seq) (r : Res)
    (hk : ∀ s, k { s with seq := x } = k s) :
    conclude ms n k (resMap (fun t => { t with seq := x }) r) = conclude ms n k r := by
  cases r with
  | fin s => exact hk s
  | err s => exact drainText_setSeq n s x
  | held rem s => rfl
  | rst s => rfl

theorem runText_setSeq (n : Nat) (s : State) (x : Seq) : runText n { s with seq := x } = runText n s := by
  induction n generalizing s with
  | zero => rfl
  | succ n ih =>
    unfold runText
    cases h : s.txt with
    | nil => rfl
    | cons b bs =>
      have := runPrims_setSeq (expand (writeChar b)) { s with txt := bs } x
      simp only [runMicro]
      rw [show ({ s with seq := x, txt := bs } : State) = { { s with txt := bs } with seq := x } from rfl, this]
      exact conclude_setSeq _ _ _ _ _ ih

theorem runOps_setSeq (ms : List Micro) (n : Nat) (s : State) (x : Seq) :
    runOps ms n { s with seq := x } = runOps ms n s := by
  induction ms generalizing s with
  | nil => exact runText_setSeq n s x
  | cons m ms ih =>
    simp only [runOps_cons, runMicro, runPrims_setSeq]
    exact conclude_setSeq _ _ _ _ _ ih

/-! ### What running a command never touches -/

/-- The configuration, the command port and the reset input are left alone, and text bytes are only taken from the head
of the text port. -/
def Untouched (n : Nat) (s t : State) : Prop :=
  t.cfg = s.cfg ∧ t.cmds = s.cmds ∧ t.rst = s.rst ∧ ∃ k, k ≤ n ∧ t.txt = s.txt.drop k

theorem Untouched_of_text {n : Nat} {s s' t : State} (hc : s'.cfg = s.cfg) (hm : s'.cmds = s.cmds) (hr : s'.rst = s.rst)
    (ht : s'.txt = s.txt) (h : Untouched n s' t) : Untouched n s t := by
  obtain ⟨h1, h2, h3, k, h4, h5⟩ := h
  exact ⟨h1.trans hc, h2.trans hm, h3.trans hr, k, h4, by rw [h5, ht]⟩

theorem drainText_untouched (n : Nat) (s : State) : Untouched n s (drainText n s) := by
  rw [drainText_spec]
  split
  · exact ⟨rfl, rfl, rfl, n, le_rfl, rfl⟩
  · exact ⟨rfl, rfl, rfl, s.txt.length, by omega, by simp⟩

theorem conclude_untouched (ms : List Micro) (n : Nat) (k : State → State) (m : Micro) (s : State)
    (hk : ∀ t, Untouched n t (k t)) : Untouched n s (conclude ms n k (runMicro m s)) := by
  have hf := runPrims_frame (expand m) s
  unfold runMicro
  cases h : runPrims (expand m) s with
  | fin t => rw [h] at hf; exact Untouched_of_text hf.1 hf.2.1 hf.2.2.2.1 hf.2.2.1 (hk t)
  | err t => rw [h] at hf; exact Untouched_of_text hf.1 hf.2.1 hf.2.2.2.1 hf.2.2.1 (drainText_untouched n t)
  | held rem t => rw [h] at hf; exact ⟨hf.1, hf.2.1, hf.2.2.2.1, 0, by omega, by simpa using hf.2.2.1⟩
  | rst t => rw [h] at hf; exact ⟨hf.1, hf.2.1, hf.2.2.2.1, 0, by omega, by simpa using hf.2.2.1⟩

theorem runText_untouched (n : Nat) (s : State) : Untouched n s (runText n s) := by
  induction n generalizing s with
  | zero => exact ⟨rfl, rfl, rfl, 0, le_rfl, rfl⟩
  | succ n ih =>
    unfold runText
    cases h : s.txt with
    | nil => exact ⟨rfl, rfl, rfl, 0, by omega, by simpa using h.symm⟩
    | cons b bs =>
      obtain ⟨h1, h2, h3, k, h4, h5⟩ :=
        conclude_untouched [] n (runText n) (writeChar b) { s with txt := bs } ih
      exact ⟨h1, h2, h3, k + 1, by omega, by rw [h]; simpa using h5⟩

theorem runOps_untouched (ms : List Micro) (n : Nat) (s : State) : Untouched n s (runOps ms n s) := by
  induction ms generalizing s with
  | nil => exact runText_untouched n s
  | cons m ms ih => exact conclude_untouched ms n (runOps ms n) m s ih

theorem runCommand_untouched (ms : List Micro) (n : Nat) (s : State) : Untouched n s (runCommand ms n s) :=
  runOps_untouched ms n (accept s)

theorem perform_untouched (m : Micro) (s : State) : Untouched s.seq.chars s (perform m s) :=
  conclude_untouched _ _ _ m s (fun _ => ⟨rfl, rfl, rfl, 0, by omega, rfl⟩)

end Sys2Proof.Machine
end

