-- ==== Sys2Proof/Laws/PerInstr.lean ====
section
/-! SUPPORT. Per instruction: its encoding fits its own row of spec/opcode_table.json. -/

namespace Sys2Proof.Laws.FitsRow

/-- The row of the opcode table, for an encoded instruction: a command word selects the row of its mnemonic (R57), a nibble
or byte has the pattern the table gives its row, in the mode RS of that row (R53). -/
def Statement (i : Instr) : Prop :=
  i.wellFormed = true →
    match encode i with
    | .cw w => ∃ r ∈ opcodeRows, r.mnemonic = i.mnemonic ∧ r.selects w = true
    | .nib n => (i.mnemonic = "LCD.WAKE" ∧ n = 0b0011#4) ∨ (i.mnemonic = "LCD.SET4BIT" ∧ n = 0b0010#4)
    | .byte isData v =>
      (i.mnemonic = "LCD.FUNCTION_SET" ∧ isData = false ∧ v = 0b00101000#8) ∨
      (i.mnemonic = "LCD.CLEAR_DISPLAY" ∧ isData = false ∧ v = 0b00000001#8) ∨
      (i.mnemonic = "LCD.DISPLAY_CONTROL" ∧ isData = false ∧ v &&& 0b11111000#8 = 0b00001000#8) ∨
      (i.mnemonic = "LCD.SET_CURSOR_ADDRESS" ∧ isData = false ∧ v &&& 0b10000000#8 = 0b10000000#8) ∨
      (i.mnemonic = "LCD.CHARACTER" ∧ isData = true)

theorem init : Statement .init := fun _ => ⟨opcodeRows[0], by decide, by decide, by decide⟩
theorem blon : Statement .blon := fun _ => ⟨opcodeRows[1], by decide, by decide, by decide⟩
theorem bloff : Statement .bloff := fun _ => ⟨opcodeRows[2], by decide, by decide, by decide⟩
theorem dispon : Statement .dispon := fun _ => ⟨opcodeRows[3], by decide, by decide, by decide⟩
theorem dispoff : Statement .dispoff := fun _ => ⟨opcodeRows[4], by decide, by decide, by decide⟩
theorem curmode (visible blink : Bool) : Statement (.curmode visible blink) := fun _ =>
  ⟨opcodeRows[5], by decide, rfl, by revert visible blink; decide⟩
theorem clear : Statement .clear := fun _ => ⟨opcodeRows[6], by decide, by decide, by decide⟩

/-- Masking off all but the top field of a command word leaves that field. -/
theorem top_field (op a b n : Byte) : cmdWord op a b n &&& 0xFF000000#32 = cmdWord op 0 0 0 := by
  apply BitVec.eq_of_getLsbD_eq
  intro i hi
  simp only [cmdWord, BitVec.getLsbD_and, BitVec.getLsbD_append]
  have h : i < 8 ∨ (8 ≤ i ∧ i < 16) ∨ (16 ≤ i ∧ i < 24) ∨ (24 ≤ i ∧ i < 32) := by omega
  rcases h with h | h | h | h
  all_goals interval_cases i <;> simp

theorem wrtext (row col : Byte) (len : Nat) : Statement (.wrtext row col len) := fun _ =>
  ⟨opcodeRows[7], by decide, rfl, by
    have h := top_field 0x08 row col (BitVec.ofNat 8 len)
    exact beq_iff_eq.2 (h.trans (by decide))⟩

theorem lcdWake : Statement .lcdWake := fun _ => .inl ⟨rfl, rfl⟩
theorem lcdSet4bit : Statement .lcdSet4bit := fun _ => .inr ⟨rfl, rfl⟩
theorem lcdFunctionSet : Statement .lcdFunctionSet := fun _ => .inl ⟨rfl, rfl, rfl⟩
theorem lcdClearDisplay : Statement .lcdClearDisplay := fun _ => .inr (.inl ⟨rfl, rfl, rfl⟩)
theorem lcdDisplayControl (on cursor blink : Bool) : Statement (.lcdDisplayControl on cursor blink) := fun _ =>
  .inr (.inr (.inl ⟨rfl, rfl, by revert on cursor blink; decide⟩))
theorem lcdSetCursorAddress (a : BitVec 7) : Statement (.lcdSetCursorAddress a) := fun _ =>
  .inr (.inr (.inr (.inl ⟨rfl, rfl, by revert a; decide⟩)))
theorem lcdCharacter (c : Byte) : Statement (.lcdCharacter c) := fun _ =>
  .inr (.inr (.inr (.inr ⟨rfl, rfl⟩)))

end Sys2Proof.Laws.FitsRow
end

