-- ==== Sys2Proof/Laws/Step.lean ====
section
/-! SUPPORT. What a step can do, said once: the inversion of `fetch`, and `step` in each of its cases. -/

namespace Sys2Proof.Machine

/-- Everything `fetch` can find, in the order it looks (R124, R148, R129, R18, R58, R41). -/
theorem fetch_cases (s : State) :
    (s.cfg.pins.ok = false ∧ fetch s = .fault .configError) ∨
    (s.cfg.pins.ok = true ∧ s.cfg.inSpec = false ∧ fetch s = .refused .configOutsideSpec) ∨
    (CfgOk s ∧ ∃ d, s.rst = .high d ∧ fetch s = .settled (obeyReset d s)) ∨
    (CfgOk s ∧ s.rst = .low ∧ s.busy = true ∧ fetch s = .settled (advance s)) ∨
    (CfgOk s ∧ s.rst = .low ∧ s.busy = false ∧ s.cmds = [] ∧ fetch s = .settled s) ∨
    (CfgOk s ∧ s.rst = .low ∧ s.busy = false ∧ ∃ w ws, s.cmds = w :: ws ∧
      ((∃ i, decode (.cw w) = .ok i ∧ fetch s = .instr i { s with cmds := ws }) ∨
       (∃ e, decode (.cw w) = .error e ∧ fetch s = .settled (raise .illegalCommand { s with cmds := ws })))) := by
  unfold fetch CfgOk
  cases hp : s.cfg.pins.ok
  · simp
  cases hc : s.cfg.inSpec
  · simp
  cases hr : s.rst
  · cases hb : s.busy
    · cases hw : s.cmds with
      | nil => simp
      | cons w ws =>
        cases hd : decode (.cw w) with
        | ok i => simp [fetchCommand, hd]
        | error e => simp [fetchCommand, hd]
    · simp
  · simp

/-- A busy block does the next element of its command. -/
theorem step_busy (s : State) (hc : CfgOk s) (hr : s.rst = .low) (hb : s.busy = true) : step s = .next (advance s) := by
  simp [step, fetch, hc.1, hc.2, hr, hb]

/-- A reset wins over anything. -/
theorem step_rst (s : State) (d : Bool) (hc : CfgOk s) (hr : s.rst = .high d) : step s = .next (obeyReset d s) := by
  simp [step, fetch, hc.1, hc.2, hr]

/-- Every instruction answers a next state: no meaning stops. -/
theorem exec_next (i : Instr) (s : State) : ∃ t, exec i s = .next t := by
  cases i <;> exact ⟨_, rfl⟩

/-- The meaning of a host command on a state, as a sequence that is run (R22). -/
theorem exec_hostSequence_init (s : State) : exec .init s = .next (runCommand (initProgram s.cfg) 0 s) := rfl

/-- An element done by itself leaves the configuration and the inputs alone. -/
theorem advance_untouched (s : State) : ∃ n, Untouched n s (advance s) := by
  unfold advance
  split
  · exact ⟨0, rfl, rfl, rfl, 0, le_rfl, rfl⟩
  · rename_i m ms n h
    exact ⟨n, perform_untouched m { s with seq := .run ms n }⟩
  · exact ⟨0, rfl, rfl, rfl, 0, le_rfl, rfl⟩
  · rename_i n h
    split
    · exact ⟨0, rfl, rfl, rfl, 0, le_rfl, rfl⟩
    · rename_i b bs ht
      obtain ⟨h1, h2, h3, k, h4, h5⟩ := perform_untouched (writeChar b) { s with txt := bs, seq := .run [] n }
      exact ⟨n + 1, h1, h2, h3, k + 1, by simp only [Seq.chars] at h4; omega, by rw [ht]; simpa using h5⟩
  · exact ⟨_, drainText_untouched _ s⟩

end Sys2Proof.Machine
end

