-- ==== Sys2Proof/Tests/Slice0.lean ====
section
/-! SUPPORT. Small tests, expected results from spec/95_test_vectors.md and the rules named, and one witness for the
hypotheses of each statement. -/

namespace Sys2Proof.Tests

open Sys2Proof Sys2Proof.Machine

/-- The reset state with the expander's latch at a known level. -/
def s0 : State := { State.reset with xp := 0x00 }

/-- The state after INIT on `s0`, as R98 gives its registers. -/
def sReady : State := { s0 with or := 0xC0, xp := 0xC0, ds := 0x0C, dsv := true, fsm := .ready }

/-- A field of the next state, if there is one. -/
def look {α : Type} (f : State → α) : Host.Outcome State Fault Refusal → Option α
  | .next t => some (f t)
  | .fault _ => none
  | .refused _ => none

/-- `k` answers *done* and then one error. -/
def failsAt (k : Nat) (s : State) : State := { s with txAnswers := List.replicate k .done ++ [.err true] }

/-! ### Well-formedness -/

theorem test_wellFormed_len_255 : (Instr.wrtext 0 0 255).wellFormed = true := by decide
theorem test_illFormed_len_256 : (Instr.wrtext 0 0 256).wellFormed = false := by decide

/-! ### Decoding: words written out from R57 and R53, and V8 -/

theorem test_decode_init : decode (.cw 0b00000001000000000000000000000000#32) = .ok .init := by decide
theorem test_decode_blon : decode (.cw 0b00000010000000000000000000000000#32) = .ok .blon := by decide
theorem test_decode_bloff : decode (.cw 0b00000011000000000000000000000000#32) = .ok .bloff := by decide
theorem test_decode_dispon : decode (.cw 0b00000100000000000000000000000000#32) = .ok .dispon := by decide
theorem test_decode_dispoff : decode (.cw 0b00000101000000000000000000000000#32) = .ok .dispoff := by decide
theorem test_decode_curmode :
    decode (.cw 0b00000110000000010000000000000000#32) = .ok (.curmode true false) := by decide
theorem test_decode_clear : decode (.cw 0b00000111000000000000000000000000#32) = .ok .clear := by decide
theorem test_decode_wrtext :
    decode (.cw 0b00001000000000010000010100000011#32) = .ok (.wrtext 1 5 3) := by decide
theorem test_decode_wake : decode (.nib 0b0011#4) = .ok .lcdWake := by decide
theorem test_decode_set4bit : decode (.nib 0b0010#4) = .ok .lcdSet4bit := by decide
theorem test_decode_functionSet : decode (.byte false 0b00101000#8) = .ok .lcdFunctionSet := by decide
theorem test_decode_clearDisplay : decode (.byte false 0b00000001#8) = .ok .lcdClearDisplay := by decide
theorem test_decode_displayControl :
    decode (.byte false 0b00001101#8) = .ok (.lcdDisplayControl true false true) := by decide
theorem test_decode_setCursorAddress :
    decode (.byte false 0b11000101#8) = .ok (.lcdSetCursorAddress 0b1000101#7) := by decide
theorem test_decode_character : decode (.byte true 0b01000001#8) = .ok (.lcdCharacter 0x41) := by decide
theorem test_decode_illegal_unused : decode (.cw 0x06010101) = .error (.unusedFieldNotZero 0x06) := by decide
theorem test_decode_illegal_a_hi : decode (.cw 0x06020000) = .error (.unusedFieldNotZero 0x06) := by decide
theorem test_decode_illegal_zero : decode (.cw 0x00000000) = .error (.unknownOpcode 0x00) := by decide
theorem test_tableWord_wrtext : decodeTableWord 32 0x08FFFFFF = some (.wrtext 255 255 255) := by decide
theorem test_tableWord_display : decodeTableWord 8 0x0E = some (.lcdDisplayControl true true false) := by decide

/-! ### Configuration (V9) -/

theorem test_pins_scrambled : (PinMap.mk 7 0 3 5 6 1 4 2).ok = true := by decide
theorem test_pins_overlap : (PinMap.mk 0 1 2 3 4 5 6 6).ok = false := by decide
theorem test_pins_range : (PinMap.mk 0 1 2 3 4 5 6 8).ok = false := by decide

/-! ### Setters and frames (V1, V3) -/

theorem test_setDataNibble_scrambled : drivenData (PinMap.mk 7 0 3 5 6 1 4 2) 0xA 0xA9 = 0xAF#8 := by decide
theorem test_setDataNibble_clears : drivenData PinMap.suggested 5 0xFF = 0x5F#8 := by decide

/-! ### Host commands -/

/-- P1, R98: the whole trace. -/
theorem test_init_trace : look (·.trace) (exec .init s0) = some
    ([.delay 100000, .tx 0x00, .tx 0x04, .tx 0x34, .tx 0x30, .delay 5000, .tx 0x34, .tx 0x34, .tx 0x30, .delay 1000,
      .tx 0x34, .tx 0x34, .tx 0x30, .delay 1000, .tx 0x34, .tx 0x24, .tx 0x20, .delay 1000]
    ++ [.tx 0x20, .tx 0x24, .tx 0x24, .tx 0x20, .tx 0x24, .tx 0x84, .tx 0x80, .delay 1000,
      .tx 0x80, .tx 0x84, .tx 0x04, .tx 0x00, .tx 0x04, .tx 0x14, .tx 0x10, .delay 2000,
      .tx 0x10, .tx 0x14, .tx 0x04, .tx 0x00, .tx 0x04, .tx 0xC4, .tx 0xC0]) := by decide

/-- V4, `k = 30`: the failure in step 7. -/
theorem test_init_abort : look (fun t => (t.or, t.ds, t.dsv, t.fsm, t.status)) (exec .init (failsAt 29 s0)) =
    some (0x04, 0x0C, true, .cleared, .transportError) := by decide

/-- V2, R100. -/
theorem test_blon : look (fun t => (t.or, t.trace)) (exec .blon { s0 with or := 0xE0 }) = some (0xE8, [.tx 0xE8]) := by
  decide

/-- R101. -/
theorem test_bloff : look (fun t => (t.or, t.trace)) (exec .bloff { s0 with or := 0xF8 }) = some (0xF0, [.tx 0xF0]) := by
  decide

/-- R102. -/
theorem test_dispon : look (fun t => (t.ds, t.trace)) (exec .dispon { sReady with ds := 0x0A, or := 0xA0 }) =
    some (0x0E, [.tx 0xA0, .tx 0xA4, .tx 0x04, .tx 0x00, .tx 0x04, .tx 0xE4, .tx 0xE0]) := by decide

/-- P4: refused before INIT. -/
theorem test_dispon_unwritten : look (fun t => (t.trace, t.status)) (exec .dispon s0) = some ([], .dsUnwritten) := by decide

/-- V5: the 6th transmission of DISPOFF fails. -/
theorem test_dispoff_fails : look (fun t => (t.ds, t.or, t.status))
    (exec .dispoff (failsAt 5 { sReady with ds := 0x0E, or := 0xE0 })) =
    some (0x0A, 0xA4, .transportError) := by decide

/-- R103. -/
theorem test_dispoff : look (fun t => (t.ds, t.or)) (exec .dispoff { sReady with ds := 0x0E, or := 0xE0 }) =
    some (0x0A, 0xA0) := by decide

/-- V5. -/
theorem test_curmode : look (fun t => (t.ds, t.trace)) (exec (.curmode true true) sReady) =
    some (0x0F, [.tx 0xC0, .tx 0xC4, .tx 0x04, .tx 0x00, .tx 0x04, .tx 0xF4, .tx 0xF0]) := by decide

/-- V5: the old bits 1:0 do not survive. -/
theorem test_curmode_clears : look (·.ds) (exec (.curmode false true) { sReady with ds := 0x0B }) = some 0x09 := by decide

/-- V7, R112. -/
theorem test_clear : look (·.trace) (exec .clear { s0 with or := 0xE8 }) =
    some [.tx 0xE8, .tx 0xEC, .tx 0x0C, .tx 0x08, .tx 0x0C, .tx 0x1C, .tx 0x18, .delay 2000] := by decide

/-- P2, S4. -/
theorem test_wrtext : look (fun t => (t.trace, t.latched)) (exec (.wrtext 0 0 2) { sReady with txt := [0x41, 0x42] }) =
    some ([.tx 0xC0, .tx 0xC4, .tx 0x84, .tx 0x80, .tx 0x84, .tx 0x04, .tx 0x00, .tx 0x01, .tx 0x05, .tx 0x45, .tx 0x41,
      .tx 0x45, .tx 0x15, .tx 0x11, .tx 0x11, .tx 0x15, .tx 0x45, .tx 0x41, .tx 0x45, .tx 0x25, .tx 0x21],
      [⟨false, 8⟩, ⟨false, 0⟩, ⟨true, 4⟩, ⟨true, 1⟩, ⟨true, 4⟩, ⟨true, 2⟩]) := by decide

/-- P5, V7: the 10th transmission fails; the unsent byte is drained. -/
theorem test_wrtext_fails : look (fun t => (t.or, t.txt, t.status))
    (exec (.wrtext 0 0 2) (failsAt 9 { sReady with txt := [0x41, 0x42, 0x43] })) = some (0x45, [0x43], .transportError) := by
  decide

/-! ### LCD items -/

/-- V3. -/
theorem test_wake : look (·.trace) (exec .lcdWake s0) = some [.tx 0x04, .tx 0x34, .tx 0x30] := by decide
/-- V3. -/
theorem test_set4bit : look (·.trace) (exec .lcdSet4bit { s0 with or := 0x30 }) = some [.tx 0x34, .tx 0x24, .tx 0x20] := by
  decide
/-- V3. -/
theorem test_functionSet : look (·.or) (exec .lcdFunctionSet { s0 with or := 0x20 }) = some 0x80 := by decide
/-- V3. -/
theorem test_clearDisplay : look (·.trace) (exec .lcdClearDisplay { s0 with or := 0x80 }) =
    some [.tx 0x80, .tx 0x84, .tx 0x04, .tx 0x00, .tx 0x04, .tx 0x14, .tx 0x10] := by decide
/-- V3. -/
theorem test_displayControl : look (·.trace) (exec (.lcdDisplayControl true false false) { s0 with or := 0x10 }) =
    some [.tx 0x10, .tx 0x14, .tx 0x04, .tx 0x00, .tx 0x04, .tx 0xC4, .tx 0xC0] := by decide
/-- S2: the byte `0xC5` from `OR = 0x18`. -/
theorem test_setCursorAddress : look (·.trace) (exec (.lcdSetCursorAddress 0x45) { s0 with or := 0x18 }) =
    some [.tx 0x18, .tx 0x1C, .tx 0xCC, .tx 0xC8, .tx 0xCC, .tx 0x5C, .tx 0x58] := by decide
/-- V3, scrambled mapping. -/
theorem test_character_scrambled :
    look (·.trace) (exec (.lcdCharacter 0x41) { s0 with cfg := { Cfg.suggested with pins := PinMap.mk 7 0 3 5 6 1 4 2 } }) =
    some [.tx 0x80, .tx 0x88, .tx 0x98, .tx 0x90, .tx 0x98, .tx 0xC8, .tx 0xC0] := by decide

/-! ### The cursor address (V6) -/

theorem test_cursor_bit8_dropped : cursorCommand 1 0xC0 = 0x80#8 := by decide
theorem test_cursor_row2 : cursorCommand 2 3 = 0x83#8 := by decide

/-! ### Steps -/

/-- P4: `0x0A000000` is refused. -/
theorem test_step_illegal : look (fun t => (t.status, t.trace, t.cmds)) (step { s0 with cmds := [0x0A000000] }) =
    some (.illegalCommand, [], []) := by decide
theorem test_step_places_command : look (·.or) (step (s0.withFetchWord 32 0x02000000)) = some 0x08 := by decide
theorem test_step_places_item : look (·.trace) (step (s0.withFetchWord 8 0x28)) =
    look (·.trace) (exec .lcdFunctionSet s0) := by decide
theorem test_step_idle_waits : look (·.cmds) (step s0) = some [] := by decide
/-- A held write: the command stays in progress and the next step finishes it. -/
theorem test_hold_and_resume : look (fun t => (t.busy, t.status, t.trace))
    (Sys2Proof.core.run 3 { s0 with cmds := [0x02000000], txAnswers := [.pending] }) = some (false, .ok, [.tx 0x08]) := by
  decide

/-! ### Witnesses: states and operands that meet the hypotheses of the statements -/

/-- For NibbleFrameIsThreeWrites, ByteFrameIsSevenWrites, InitRunsTheSevenSteps, BacklightCommandsSetAndClear,
ClearSendsThenWaits, BareNibbleItems and ByteItems. -/
theorem witness_faultFree : FaultFree s0 ∧ s0.cfg.pins.ok = true := ⟨⟨by decide, by decide⟩, by decide⟩
theorem witness_faultFree_listed : FaultFree { s0 with txAnswers := [.done], delayAnswers := [.elapsed] } :=
  ⟨by decide, by decide⟩
theorem witness_noReset : NoReset { s0 with txAnswers := [.err true, .pending], delayAnswers := [.pending] } :=
  ⟨by decide, by decide⟩

/-- ConfigErrorExactlyForBadPins: both verdicts occur. -/
theorem witness_ConfigErrorExactlyForBadPins :
    ({ Cfg.suggested with pins := PinMap.mk 0 0 2 3 4 5 6 7 } : Cfg).pins.ok = false ∧ Cfg.suggested.pins.ok = true := by
  decide
theorem witness_MasksPartitionTheByte : (PinMap.mk 4 5 6 7 0 1 2 3).ok = true := by decide
theorem witness_ResetWinsAndBusyGatesThePort :
    CfgOk { s0 with rst := .high true } ∧ ({ s0 with busy := true, seq := .run [] 0, cmds := [1] } : State).rst = .low ∧
    look (·.cmds) (step { s0 with busy := true, seq := .run [] 0, cmds := [1] }) = some [1] :=
  ⟨⟨by decide, by decide⟩, rfl, by decide⟩
theorem witness_StepKeepsConfiguration : look (·.cfg) (step s0) = some s0.cfg := by decide
theorem witness_SetDataNibble_and_setters : s0.cfg.pins.ok = true := by decide
theorem witness_CommitOnEachAnswer :
    ({ s0 with txAnswers := [.done] } : State).txAnswers = .done :: [] ∧
    ({ s0 with txAnswers := [.err false] } : State).txAnswers = .err false :: [] ∧
    ({ s0 with txAnswers := [.pending] } : State).txAnswers = .pending :: [] ∧
    ({ s0 with txAnswers := [.never] } : State).txAnswers = .never :: [] ∧
    ({ s0 with txAnswers := [.reset true] } : State).txAnswers = .reset true :: [] := by decide
theorem witness_FramesLatchTheirNibbles : line s0.cfg.pins .e s0.xp = false ∧ s0.cfg.pins.ok = true := by decide
theorem witness_FailureStopsTheFrame :
    (failsAt 6 s0).txAnswers = List.replicate 6 .done ++ .err true :: [] ∧
    6 < writes (planned s0.cfg.pins [.byte true 0x41] s0.or) ∧ ∀ p, Micro.byte true 0x41 ≠ .prim p :=
  ⟨by decide, by decide, by intro p; exact Micro.noConfusion⟩
/-- Both cases of its text: one of two announced bytes is there, and both. -/
theorem witness_FailureStopsTheFrame_text :
    (perform (.byte true 0x41) (failsAt 6 { s0 with busy := true, seq := .run [] 2, txt := [1] })).seq = .drain 1 ∧
    (perform (.byte true 0x41) (failsAt 6 { s0 with busy := true, seq := .run [] 2, txt := [1, 2] })).seq = .idle := by
  decide
theorem witness_DecodeFollowsTheOpcodeMap :
    ∃ r ∈ opcodeRows, r.selects 0x06010100 = true ∧ r.mnemonic = "CURMODE" := ⟨opcodeRows[5], by decide, by decide, rfl⟩
theorem witness_IllegalWordsAreRefusedWithoutEffect :
    CfgOk { s0 with cmds := [0x08FFFFFF + 1] } ∧ Idle { s0 with cmds := [0x09000000] } ∧
    ∀ r ∈ opcodeRows, r.selects (0x08FFFFFF + 1) = false := ⟨⟨by decide, by decide⟩, ⟨rfl, rfl⟩, by decide⟩
theorem witness_DecodeInvertsEncode : (Instr.wrtext 255 255 255).wellFormed = true := by decide
theorem witness_EncodeInvertsDecode : decode (.byte false 0xFF) = .ok (.lcdSetCursorAddress 0x7F) := by decide

/-- The reset state meets the invariant. -/
theorem inv_s0 : Inv s0 := ⟨by decide, by decide, by decide, by decide, by decide, by decide⟩

theorem witness_OnlyTheSevenItemsAreSent :
    Inv s0 ∧ hostSequence s0 (.wrtext 0 0 0) = some [setCursorPosition 0 0] ∧
    ∀ p, setCursorPosition 0 0 ≠ .prim p := ⟨inv_s0, by decide, by intro p; exact Micro.noConfusion⟩
theorem witness_ItemFramesCarryTheirEncoding :
    Cfg.suggested.cmdFunctionSet = 0x28#8 ∧ Cfg.suggested.cmdClearDisplay = 0x01#8 ∧ Cfg.suggested.cmdDisplayOn = 0x0C#8 ∧
    itemFrame Cfg.suggested .lcdWake = some (.nibble 3) := by decide
theorem witness_StepRunsTheDecodedCommand :
    CfgOk { s0 with cmds := [0x02000000] } ∧ decode (.cw 0x02000000) = .ok .blon ∧ s0.rst = .low ∧ s0.busy = false ∧
    s0.cmds = [] := ⟨⟨by decide, by decide⟩, by decide, rfl, rfl, rfl⟩

/-- A command in progress with one item and one text byte to go. -/
def sBusy : State := { s0 with busy := true, seq := .run [.nibble 3] 1, txt := [0x41] }

theorem witness_StepRunsTheNextElement :
    CfgOk sBusy ∧ sBusy.rst = .low ∧ sBusy.busy = true ∧ sBusy.seq = .run (.nibble 3 :: []) 1 ∧
    itemFrame sBusy.cfg .lcdWake = some (.nibble 3) := ⟨⟨by decide, by decide⟩, rfl, rfl, rfl, by decide⟩
theorem witness_StepRunsTheNextElement_text :
    look (·.or) (step { sBusy with seq := .run [] 1 }) = some 0x11 ∧
    look (·.seq) (step { sBusy with seq := .run [] 1, txt := [] }) = some (.run [] 1) ∧
    look (·.busy) (step { sBusy with seq := .run [] 0 }) = some false ∧
    look (fun t => (t.seq, t.txt, t.status)) (step { sBusy with seq := .drain 1 }) = some (.idle, [], .transportError) ∧
    look (fun t => (t.seq, t.txt, t.status)) (step { sBusy with seq := .drain 2 }) = some (.drain 1, [], .ok) ∧
    look (fun t => (t.seq, t.txt, t.status)) (step { sBusy with seq := .drain 0 }) =
      some (.idle, [0x41], .transportError) := by decide
theorem witness_StepRunsThePrimitiveAction :
    ({ sBusy with seq := .run [.prim (.driveData 5)] 0 } : State).seq = .run (.prim (.driveData 5) :: []) 0 ∧
    look (fun t => (t.or, t.seq)) (step { sBusy with seq := .run [.prim (.drive .bl true)] 0 }) = some (0x08, .run [] 0) ∧
    look (·.trace) (step { sBusy with seq := .run [.prim .commit] 0 }) = some [.tx 0x00] ∧
    look (·.seq) (step { failsAt 0 sBusy with seq := .run [.prim .commit] 2 }) = some (.drain 1) ∧
    look (·.trace) (step { sBusy with seq := .run [.prim (.delay 7)] 0 }) = some [.delay 7] ∧
    look (·.busy) (step { sBusy with seq := .run [.prim (.delay 7)] 0, delayAnswers := [.reset] }) = some false := by decide
theorem witness_BigStepIsRepeatedSmallSteps :
    CfgOk sBusy ∧ sBusy.rst = .low ∧ sBusy.busy = true ∧ sBusy.seq = .run [.nibble 3] 1 :=
  ⟨⟨by decide, by decide⟩, rfl, rfl, rfl⟩
theorem witness_DisplayCommandsWriteAndSendDs : FaultFree sReady ∧ sReady.dsv = true ∧ sReady.cfg.pins.ok = true :=
  ⟨⟨by decide, by decide⟩, rfl, by decide⟩
theorem witness_DisplayCommandsRefusedBeforeBaseline :
    Idle s0 ∧ s0.dsv = false ∧ NoReset sReady ∧ sReady.dsv = true ∧ look (·.dsv) (exec .blon sReady) = some true ∧
    look (·.dsv) (step { sReady with busy := true, seq := .run [.prim .commit] 0 }) = some true :=
  ⟨⟨rfl, rfl⟩, rfl, ⟨by decide, by decide⟩, rfl, by decide, by decide⟩
theorem witness_WrtextSendsAddressThenText :
    ({ s0 with txt := [0x41, 0x42, 0x43] } : State).txt = [0x41, 0x42] ++ [0x43] ∧
    FaultFree { s0 with txt := [0x41, 0x42, 0x43] } := ⟨rfl, by decide, by decide⟩
theorem witness_WrtextWaitsForMissingText : ({ s0 with txt := [0x41] } : State).txt.length < 2 := by decide
theorem witness_BacklightAndDisplayProperties :
    (∃ t, exec .blon sReady = .next t) ∧ NoReset (failsAt 3 sReady) ∧ (∃ t, exec .dispoff (failsAt 3 sReady) = .next t) :=
  ⟨⟨_, rfl⟩, ⟨by decide, by decide⟩, ⟨_, rfl⟩⟩
theorem witness_TransportErrorEndsTheCommand :
    hostSequence (failsAt 0 s0) .blon = some (asMicros (setBacklight true)) ∧
    (∀ a ∈ (failsAt 0 s0).delayAnswers, a = .elapsed) ∧
    (failsAt 0 s0).txAnswers = List.replicate 0 .done ++ .err true :: [] ∧
    0 < writes (planned s0.cfg.pins (asMicros (setBacklight true)) s0.or) := by decide
theorem witness_TransportErrorEndsTheCommand_last :
    33 < writes (planned s0.cfg.pins (initProgram s0.cfg) s0.or) ∧
    ¬ 34 < writes (planned s0.cfg.pins (initProgram s0.cfg) s0.or) := by decide
theorem witness_InitAbortKeepsTheLastState :
    (failsAt 13 s0).txAnswers = List.replicate 13 .done ++ .err true :: [] ∧
    look (·.fsm) (exec .init (failsAt 12 s0)) = some .unknown ∧
    look (·.fsm) (exec .init (failsAt 13 s0)) = some .forcedIdle ∧
    look (·.fsm) (exec .init (failsAt 20 s0)) = some .functionConfigured ∧
    look (·.fsm) (exec .init (failsAt 33 s0)) = some .cleared := by decide
theorem witness_FailedSendKeepsTheNewDs :
    sReady.dsv = true ∧ (failsAt 6 sReady).txAnswers = List.replicate 6 .done ++ .err true :: [] := by decide
theorem witness_FailuresAreLastAndReported :
    NoReset (failsAt 3 s0) ∧ look (·.trace) (exec .lcdWake (failsAt 2 s0)) = some [.tx 0x04, .tx 0x34, .txFail 0x30] :=
  ⟨⟨by decide, by decide⟩, by decide⟩
/-- WRTEXT of two bytes whose first character fails while the second byte is not yet there. -/
theorem witness_TransportErrorEndsTheCommand_text :
    hostSequence { s0 with txt := [0x41] } (.wrtext 0 0 2) = some [setCursorPosition 0 0, writeChar 0x41] ∧
    8 < writes (planned s0.cfg.pins [setCursorPosition 0 0, writeChar 0x41] s0.or) ∧
    look (fun t => (t.seq, t.txt, t.busy, t.status)) (exec (.wrtext 0 0 2) (failsAt 8 { s0 with txt := [0x41] })) =
      some (.drain 1, [], true, .ok) := by decide
/-- For UnansweredWriteHolds and both clauses of EndlessWaitIsAHang. -/
theorem witness_UnansweredWriteHolds :
    CfgOk s0 ∧ s0.rst = .low ∧
    hostSequence s0 .clear = some [lcdClearDisplayFrame s0.cfg, .prim (.delay s0.cfg.tClear)] ∧
    ({ s0 with txAnswers := [.done, .pending, .pending] } : State).txAnswers = List.replicate 1 .done ++ .pending :: [.pending] ∧
    1 < writes (planned s0.cfg.pins [lcdClearDisplayFrame s0.cfg, .prim (.delay s0.cfg.tClear)] s0.or) ∧
    0 < delays (planned s0.cfg.pins [lcdClearDisplayFrame s0.cfg, .prim (.delay s0.cfg.tClear)] s0.or) :=
  ⟨⟨by decide, by decide⟩, rfl, by decide, by decide, by decide, by decide⟩
/-- R162: the block hangs with `BUSY = 1`, reset ends it, and the next write is answered. -/
theorem witness_EndlessWaitIsAHang :
    look (fun t => (t.busy, t.xp, t.or)) (Sys2Proof.core.run 4 { s0 with cmds := [0x02000000], txAnswers := [.never] }) =
      some (true, 0x00, 0x08) ∧
    look (fun t => (t.busy, t.xp, t.txAnswers)) (step { s0 with
      busy := true, or := 0x08, seq := .run [.prim .commit] 0, txAnswers := [.never], rst := .high true }) =
      some (false, 0x08, []) ∧
    look (fun t => (t.busy, t.trace)) (exec .clear { s0 with delayAnswers := [.never] }) =
      some (true, [.tx 0x00, .tx 0x04, .tx 0x04, .tx 0x00, .tx 0x04, .tx 0x14, .tx 0x10]) := by decide
theorem witness_EveryCommandCompletes :
    CfgOk s0 ∧ s0.rst = .low ∧ Idle s0 ∧ Answered { s0 with txAnswers := [.pending, .err true], delayAnswers := [.pending] } ∧
    textLen (.wrtext 0 0 1) ≤ ({ s0 with txt := [0x41] } : State).txt.length ∧ sBusy.seq ≠ .idle ∧
    sBusy.seq.chars ≤ sBusy.txt.length ∧ look (·.busy) (Sys2Proof.core.run 3 sBusy) = some false :=
  ⟨⟨by decide, by decide⟩, rfl, ⟨rfl, rfl⟩, ⟨by decide, by decide⟩, by decide, by decide, by decide, by decide⟩
theorem witness_InitFirstMakesFsmUnknown :
    look (·.fsm) (exec .init { sReady with delayAnswers := [.pending] }) = some .unknown := by decide
theorem witness_ResetMayCutACommandAnywhere :
    hostSequence s0 .clear = some [lcdClearDisplayFrame s0.cfg, .prim (.delay s0.cfg.tClear)] ∧
    6 < writes (planned s0.cfg.pins [lcdClearDisplayFrame s0.cfg, .prim (.delay s0.cfg.tClear)] s0.or) ∧
    0 < delays (planned s0.cfg.pins [lcdClearDisplayFrame s0.cfg, .prim (.delay s0.cfg.tClear)] s0.or) ∧
    look (fun t => (t.xp, t.status)) (exec .clear { s0 with txAnswers := [.done, .reset true] }) = some (0x04, .ok) := by
  decide
theorem witness_ResetMayCutAHeldCommand :
    CfgOk { s0 with rst := .high false, seq := .run [.prim .commit] 0 } ∧
    txPort { s0 with or := 0x08, seq := .run [.prim .commit] 0 } = some { addr := 0x27, data := 0x08 } ∧ txPort s0 = none ∧
    look (fun t => (t.xp, t.or)) (step { s0 with or := 0x08, seq := .run [.prim .commit] 0, rst := .high true }) =
      some (0x08, 0x00) ∧
    look (·.xp) (step { s0 with or := 0x08, seq := .run [.prim .commit] 0, rst := .high false }) = some 0x00 :=
  ⟨⟨by decide, by decide⟩, by decide, by decide, by decide, by decide⟩
theorem witness_ResumeFrame :
    sBusy.rst = .low ∧ sBusy.busy = true ∧ NoReset sBusy ∧ look (fun t => (t.status, t.fsm)) (step sBusy) =
      some (.ok, .unknown) := ⟨rfl, rfl, ⟨by decide, by decide⟩, by decide⟩
theorem witness_ExecFrame :
    NoReset (failsAt 3 s0) ∧ look (fun t => (t.dsv, t.fsm, t.ds)) (exec .clear (failsAt 3 s0)) = some (false, .unknown, 0) :=
  ⟨⟨by decide, by decide⟩, by decide⟩
theorem witness_BacklightRidesAlong :
    look (fun t => line t.cfg.pins .bl t.or) (exec .lcdWake { s0 with or := 0x08 }) = some true ∧
    look (·.latched) (exec .bloff { s0 with or := 0x08 }) = some [] := by decide
theorem witness_UnwrittenDsIsNeverUsed : s0.dsv = false ∧ look (·.busy) (step s0) = some false := by decide
theorem witness_StepKeepsInvariant : Inv s0 ∧ look (·.cmds) (step s0) = some [] := ⟨inv_s0, by decide⟩

end Sys2Proof.Tests
end

section
/-! PROOFS. The statements of 30_encoding.md: the two frames, the cursor command byte, the opcode map and the illegal
words. -/

namespace Sys2Proof.Machine

/-! ### The frames (R50, R51) -/

/-- Settles O9: the frame's run under a fault-free outside, from `OR` as it stands. -/
theorem nibbleFrameIsThreeWrites : Obligations.NibbleFrameIsThreeWrites :=
  fun s n hpins hff => runMicro_nibble s hpins hff n

/-- Settles O10: the seven bytes are the `BYTE` frame that follows the present `OR`. -/
theorem byteFrameIsSevenWrites : Obligations.ByteFrameIsSevenWrites :=
  fun s d v hpins hff => runMicro_byte s hpins hff d v

end Sys2Proof.Machine

namespace Sys2Proof

/-! ### The cursor command byte (R54, R108) -/

/-- `OR`-ing `0x80` into a byte puts a 1 before its low seven bits. -/
theorem or_0x80_eq_append (x : Byte) : 0x80 ||| x = 0b1#1 ++ x.setWidth 7 := by
  apply BitVec.eq_of_getLsbD_eq
  intro i hi
  simp only [BitVec.getLsbD_or, BitVec.getLsbD_append, BitVec.getLsbD_setWidth]
  have hbit : i < 7 ∨ i = 7 := by omega
  rcases hbit with hlow | rfl
  · have h80 : (0x80 : Byte).getLsbD i = false := by interval_cases i <;> rfl
    rw [h80]
    simp [hlow]
  · rfl

/-- The byte sent for a cursor position is a 1 and then the low seven bits of its address (R54). -/
theorem cursorCommand_eq_append (row col : Byte) :
    cursorCommand row col = 0b1#1 ++ (cursorAddress row col).setWidth 7 := by
  rw [cursorCommand, or_0x80_eq_append, BitVec.setWidth_setWidth_of_le _ (by decide)]

theorem toNat_one_append (a : BitVec 7) : (0b1#1 ++ a).toNat = 0x80 + a.toNat := by
  rw [BitVec.toNat_append, ← Nat.shiftLeft_add_eq_or_of_lt a.isLt]
  rfl

/-- Settles O14: the byte is a 1 before the address's low seven bits, whatever its bit 7. -/
theorem cursorCommandByte : Obligations.CursorCommandByte := by
  refine ⟨fun row col => ?_, by decide, by decide⟩
  rw [cursorCommand_eq_append, toNat_one_append, BitVec.toNat_setWidth]

/-! ### The fields of a command word (R56) -/

@[simp] theorem fieldOp_cmdWord (op a b n : Byte) : fieldOp (cmdWord op a b n) = op := by
  unfold fieldOp cmdWord
  rw [BitVec.extractLsb'_append_eq_of_le (by decide), BitVec.extractLsb'_append_eq_of_le (by decide),
    BitVec.extractLsb'_append_eq_left]

@[simp] theorem fieldA_cmdWord (op a b n : Byte) : fieldA (cmdWord op a b n) = a := by
  unfold fieldA cmdWord
  rw [BitVec.extractLsb'_append_eq_of_le (by decide), BitVec.extractLsb'_append_eq_of_le (by decide),
    BitVec.extractLsb'_append_eq_right]

@[simp] theorem fieldB_cmdWord (op a b n : Byte) : fieldB (cmdWord op a b n) = b := by
  unfold fieldB cmdWord
  rw [BitVec.extractLsb'_append_eq_of_le (by decide), BitVec.extractLsb'_append_eq_right]

@[simp] theorem fieldN_cmdWord (op a b n : Byte) : fieldN (cmdWord op a b n) = n := by
  unfold fieldN cmdWord
  rw [BitVec.extractLsb'_append_eq_right]

/-- A command word is its four fields. -/
theorem cmdWord_fields (w : CmdWord) : cmdWord (fieldOp w) (fieldA w) (fieldB w) (fieldN w) = w := by
  unfold cmdWord fieldOp fieldA fieldB fieldN
  rw [BitVec.extractLsb'_append_extractLsb'_eq_extractLsb' (start₂ := 24) (start₁ := 16) rfl,
    BitVec.extractLsb'_append_extractLsb'_eq_extractLsb' (start₂ := 16) (start₁ := 8) rfl,
    BitVec.extractLsb'_append_extractLsb'_eq_extractLsb' (start₂ := 8) (start₁ := 0) rfl, BitVec.extractLsb'_eq_self]

theorem fieldA_toNat (w : CmdWord) : (fieldA w).toNat = w.toNat / 2 ^ 16 % 2 ^ 8 := by
  rw [fieldA, BitVec.extractLsb'_toNat, Nat.shiftRight_eq_div_pow]

theorem fieldB_toNat (w : CmdWord) : (fieldB w).toNat = w.toNat / 2 ^ 8 % 2 ^ 8 := by
  rw [fieldB, BitVec.extractLsb'_toNat, Nat.shiftRight_eq_div_pow]

theorem fieldN_toNat (w : CmdWord) : (fieldN w).toNat = w.toNat % 2 ^ 8 := by
  rw [fieldN, BitVec.extractLsb'_toNat, Nat.shiftRight_zero]

/-- An operand field whose bits 7:1 are zero is its bit 0 (R63). -/
theorem bitField_getLsbD_zero {a : Byte} (h : a.extractLsb' 1 7 = 0) : bitField (a.getLsbD 0) = a := by
  have hhigh (i : Nat) (hi : i < 7) : a.getLsbD (i + 1) = false := by
    have := congrArg (·.getLsbD i) h
    simpa [hi, Nat.add_comm] using this
  apply BitVec.eq_of_getLsbD_eq
  intro i hi
  cases i with
  | zero => cases a.getLsbD 0 <;> rfl
  | succ i =>
    rw [hhigh i (by omega)]
    cases a.getLsbD 0 <;> simp [bitField]

/-! ### What the command decoder accepts (R57, R58) -/

/-- `decodePlain` accepts exactly the word with its opcode and no operand bit (R58). -/
theorem decodePlain_eq_ok {i j : Instr} {w : CmdWord} (h : decodePlain i w = .ok j) :
    j = i ∧ w = cmdWord (fieldOp w) 0 0 0 := by
  unfold decodePlain at h
  split at h
  next hz =>
    obtain ⟨ha, hb, hn⟩ := hz
    have hw := cmdWord_fields w
    rw [ha, hb, hn] at hw
    exact ⟨(Except.ok.inj h).symm, hw.symm⟩
  next => cases h

/-- `decodeCurmode` accepts exactly the words with one operand bit in each of `a` and `b` (R63). -/
theorem decodeCurmode_eq_ok {j : Instr} {w : CmdWord} (h : decodeCurmode w = .ok j) :
    ∃ v k, j = .curmode v k ∧ w = cmdWord (fieldOp w) (bitField v) (bitField k) 0 := by
  unfold decodeCurmode at h
  split at h
  next hz =>
    obtain ⟨ha, hb, hn⟩ := hz
    refine ⟨_, _, (Except.ok.inj h).symm, ?_⟩
    rw [bitField_getLsbD_zero ha, bitField_getLsbD_zero hb, ← hn, cmdWord_fields]
  next => cases h

/-- An opcode without operands: the word is the encoding. -/
theorem encode_of_decodePlain {i j : Instr} {w : CmdWord} {op : Byte} (hop : fieldOp w = op)
    (hi : i.wellFormed = true) (henc : encode i = .cw (cmdWord op 0 0 0)) (h : decodePlain i w = .ok j) :
    j.wellFormed = true ∧ encode j = .cw w := by
  obtain ⟨rfl, hw⟩ := decodePlain_eq_ok h
  rw [hw, hop]
  exact ⟨hi, henc⟩

/-- Every command word the decoder accepts is the encoding of the well-formed instruction it gives. -/
theorem encode_of_decodeCommand {w : CmdWord} {i : Instr} (h : decodeCommand w = .ok i) :
    i.wellFormed = true ∧ encode i = .cw w := by
  unfold decodeCommand at h
  split_ifs at h with h1 h2 h3 h4 h5 h6 h7 h8
  · exact encode_of_decodePlain h1 rfl rfl h
  · exact encode_of_decodePlain h2 rfl rfl h
  · exact encode_of_decodePlain h3 rfl rfl h
  · exact encode_of_decodePlain h4 rfl rfl h
  · exact encode_of_decodePlain h5 rfl rfl h
  · obtain ⟨v, k, rfl, hw⟩ := decodeCurmode_eq_ok h
    rw [hw, h6]
    exact ⟨rfl, rfl⟩
  · exact encode_of_decodePlain h7 rfl rfl h
  · obtain rfl := Except.ok.inj h
    have hn : (fieldN w).toNat ≤ Config.textMax := Nat.le_of_lt_succ (fieldN w).isLt
    have hw := cmdWord_fields w
    rw [h8] at hw
    exact ⟨decide_eq_true hn, by rw [encode, BitVec.ofNat_toNat, BitVec.setWidth_eq, hw]⟩

/-- The operands of a decoded CURMODE are bits 16 and 8 of its word (R63). -/
theorem curmode_operands {w : CmdWord} {v k : Bool} (h : decodeCommand w = .ok (.curmode v k)) :
    v = w.getLsbD 16 ∧ k = w.getLsbD 8 := by
  obtain ⟨-, henc⟩ := encode_of_decodeCommand h
  obtain rfl := Code.cw.inj henc
  revert v k
  decide

/-- The operands of a decoded WRTEXT are the three fields of its word (R59, R56). -/
theorem wrtext_operands {w : CmdWord} {row col : Byte} {len : Nat} (h : decodeCommand w = .ok (.wrtext row col len)) :
    row = fieldA w ∧ col = fieldB w ∧ len = (fieldN w).toNat := by
  obtain ⟨hwf, henc⟩ := encode_of_decodeCommand h
  obtain rfl := Code.cw.inj henc
  have hlen : len < 2 ^ 8 := Nat.lt_succ_of_le (of_decide_eq_true hwf)
  rw [fieldA_cmdWord, fieldB_cmdWord, fieldN_cmdWord, BitVec.toNat_ofNat, Nat.mod_eq_of_lt hlen]
  exact ⟨rfl, rfl, rfl⟩

/-! ### The opcode map (R57) -/

theorem selects_iff (r : OpcodeRow) (w : CmdWord) : r.selects w = true ↔ w &&& r.mask = r.pattern := beq_iff_eq

/-- The bits a mask covers are those of the match. -/
theorem extractLsb'_of_and_eq {width : Nat} {w mask pattern : BitVec width} (start len : Nat)
    (hmask : mask.extractLsb' start len = BitVec.allOnes len) (h : w &&& mask = pattern) :
    w.extractLsb' start len = pattern.extractLsb' start len := by
  rw [← h, BitVec.extractLsb'_and, hmask, BitVec.and_allOnes]

/-- A row that covers every bit is selected by one word. -/
theorem decode_of_full_mask {w pattern : CmdWord} {i : Instr} (hp : decode (.cw pattern) = .ok i)
    (h : w &&& 0xFFFFFFFF = pattern) : decode (.cw w) = .ok i := by
  have hw : w = pattern := (BitVec.and_allOnes (x := w)).symm.trans h
  rw [hw, hp]

/-- The CURMODE row leaves only bits 16 and 8 open. -/
theorem decode_of_curmode_row {w : CmdWord} (h : w &&& 0xFFFEFEFF = 0x06000000) :
    ∃ v k, decode (.cw w) = .ok (.curmode v k) := by
  have hop : fieldOp w = 0x06 := extractLsb'_of_and_eq 24 8 rfl h
  have ha : (fieldA w).extractLsb' 1 7 = 0 := by
    have hfield : fieldA w &&& 0xFE = 0 := BitVec.extractLsb'_and.symm.trans (congrArg fieldA h)
    exact extractLsb'_of_and_eq 1 7 rfl hfield
  have hb : (fieldB w).extractLsb' 1 7 = 0 := by
    have hfield : fieldB w &&& 0xFE = 0 := BitVec.extractLsb'_and.symm.trans (congrArg fieldB h)
    exact extractLsb'_of_and_eq 1 7 rfl hfield
  have hn : fieldN w = 0 := extractLsb'_of_and_eq 0 8 rfl h
  refine ⟨(fieldA w).getLsbD 0, (fieldB w).getLsbD 0, ?_⟩
  simp [decode, decodeCommand, hop, decodeCurmode, ha, hb, hn]

/-- The WRTEXT row leaves the three operand fields open. -/
theorem decode_of_wrtext_row {w : CmdWord} (h : w &&& 0xFF000000 = 0x08000000) :
    ∃ row col len, decode (.cw w) = .ok (.wrtext row col len) := by
  have hop : fieldOp w = 0x08 := extractLsb'_of_and_eq 24 8 rfl h
  refine ⟨fieldA w, fieldB w, (fieldN w).toNat, ?_⟩
  simp [decode, decodeCommand, hop]

/-- A word that selects a row decodes to an instruction of that row's mnemonic. -/
theorem decode_of_selects {w : CmdWord} {r : OpcodeRow} (hr : r ∈ opcodeRows) (hw : r.selects w = true) :
    ∃ i, decode (.cw w) = .ok i ∧ i.mnemonic = r.mnemonic := by
  rw [selects_iff] at hw
  simp only [opcodeRows, List.mem_cons, List.not_mem_nil, or_false] at hr
  rcases hr with rfl | rfl | rfl | rfl | rfl | rfl | rfl | rfl
  · exact ⟨.init, decode_of_full_mask rfl hw, rfl⟩
  · exact ⟨.blon, decode_of_full_mask rfl hw, rfl⟩
  · exact ⟨.bloff, decode_of_full_mask rfl hw, rfl⟩
  · exact ⟨.dispon, decode_of_full_mask rfl hw, rfl⟩
  · exact ⟨.dispoff, decode_of_full_mask rfl hw, rfl⟩
  · obtain ⟨v, k, hd⟩ := decode_of_curmode_row hw
    exact ⟨.curmode v k, hd, rfl⟩
  · exact ⟨.clear, decode_of_full_mask rfl hw, rfl⟩
  · obtain ⟨row, col, len, hd⟩ := decode_of_wrtext_row hw
    exact ⟨.wrtext row col len, hd, rfl⟩

/-- A row of the opcode map is known by its mnemonic. -/
theorem opcodeRow_eq_of_mnemonic : ∀ r ∈ opcodeRows, ∀ r' ∈ opcodeRows, r.mnemonic = r'.mnemonic → r = r' := by
  decide

/-- Settles O15: rows selected by one word are one row because the word decodes to one instruction, and so to one
mnemonic. -/
theorem decodeFollowsTheOpcodeMap : Obligations.DecodeFollowsTheOpcodeMap := by
  constructor
  · intro w r hr hw
    obtain ⟨i, hd, hm⟩ := decode_of_selects hr hw
    refine ⟨i, hd, hm, ?_, ?_⟩
    · rintro v k rfl
      exact curmode_operands hd
    · rintro row col len rfl
      obtain ⟨rfl, rfl, rfl⟩ := wrtext_operands hd
      exact ⟨fieldA_toNat w, fieldB_toNat w, fieldN_toNat w⟩
  · intro w r hr r' hr' hw hw'
    obtain ⟨i, hd, hm⟩ := decode_of_selects hr hw
    obtain ⟨i', hd', hm'⟩ := decode_of_selects hr' hw'
    obtain rfl : i = i' := Except.ok.inj (hd.symm.trans hd')
    exact opcodeRow_eq_of_mnemonic r hr r' hr' (hm.symm.trans hm')

/-! ### Illegal words (R58, R122) -/

/-- Every instruction's encoding fits its row of the opcode table. -/
theorem fitsRow (i : Instr) : Laws.FitsRow.Statement i := by
  cases i with
  | init => exact Laws.FitsRow.init
  | blon => exact Laws.FitsRow.blon
  | bloff => exact Laws.FitsRow.bloff
  | dispon => exact Laws.FitsRow.dispon
  | dispoff => exact Laws.FitsRow.dispoff
  | curmode visible blink => exact Laws.FitsRow.curmode visible blink
  | clear => exact Laws.FitsRow.clear
  | wrtext row col len => exact Laws.FitsRow.wrtext row col len
  | lcdWake => exact Laws.FitsRow.lcdWake
  | lcdSet4bit => exact Laws.FitsRow.lcdSet4bit
  | lcdFunctionSet => exact Laws.FitsRow.lcdFunctionSet
  | lcdClearDisplay => exact Laws.FitsRow.lcdClearDisplay
  | lcdDisplayControl on cursor blink => exact Laws.FitsRow.lcdDisplayControl on cursor blink
  | lcdSetCursorAddress a => exact Laws.FitsRow.lcdSetCursorAddress a
  | lcdCharacter c => exact Laws.FitsRow.lcdCharacter c

/-- A word the decoder accepts selects the row of its instruction. -/
theorem selects_of_decode {w : CmdWord} {i : Instr} (h : decode (.cw w) = .ok i) :
    ∃ r ∈ opcodeRows, r.mnemonic = i.mnemonic ∧ r.selects w = true := by
  obtain ⟨hwf, henc⟩ := encode_of_decodeCommand h
  have hfit := fitsRow i hwf
  rw [henc] at hfit
  exact hfit

/-- A word that selects no row is no instruction (R58). -/
theorem decode_error_of_not_selects {w : CmdWord} (h : ∀ r ∈ opcodeRows, r.selects w = false) :
    ∃ e, decode (.cw w) = .error e := by
  cases hd : decode (.cw w) with
  | error e => exact ⟨e, rfl⟩
  | ok i =>
    obtain ⟨r, hr, -, hw⟩ := selects_of_decode hd
    rw [h r hr] at hw
    cases hw

end Sys2Proof

namespace Sys2Proof.Machine

/-- An exception raised in an idle block writes its code and nothing else (R130). -/
theorem raise_of_idle (x : Status) {s : State} (h : Idle s) : raise x s = { s with status := x } := by
  obtain ⟨hbusy, hseq⟩ := h
  rw [raise, complete, ← hbusy, ← hseq]

/-- An idle block refuses a word that is no instruction (R58, R122). -/
theorem step_undecodable {s : State} {w : CmdWord} {ws : List CmdWord} {e : DecodeError} (hcfg : CfgOk s)
    (hrst : s.rst = .low) (hbusy : s.busy = false) (hcmds : s.cmds = w :: ws) (hd : decode (.cw w) = .error e) :
    step s = .next (raise .illegalCommand { s with cmds := ws }) := by
  simp [step, fetch, fetchCommand, hcfg.1, hcfg.2, hrst, hbusy, hcmds, hd]

/-- Settles O16: the word is no instruction, and raising in an idle block writes `STATUS` alone. -/
theorem illegalWordsAreRefusedWithoutEffect : Obligations.IllegalWordsAreRefusedWithoutEffect := by
  intro s w ws hcfg hrst hidle hcmds hnone
  obtain ⟨e, hd⟩ := decode_error_of_not_selects hnone
  have hidle' : Idle { s with cmds := ws } := hidle
  rw [step_undecodable hcfg hrst hidle.1 hcmds hd, raise_of_idle _ hidle']

end Sys2Proof.Machine
end

section
/-! PROOFS. The statements of 40_signal_control.md: each setter is one update of `OR` and then one `commit`. -/

namespace Sys2Proof.Machine

/-! ### A setter is one commit of the updated `OR` (R76, R77) -/

/-- A list of one action is that action, on every outcome. -/
theorem runPrims_singleton (p : Prim) (s : State) : runPrims [p] s = runPrim p s := by
  simp only [runPrims]
  cases runPrim p s with
  | fin t => rfl
  | err t => rfl
  | held rem t => simp
  | rst t => rfl

/-- A single-line setter, whatever the transport answers. -/
theorem runPrims_drive_commit (sig : Signal) (level : Bool) (s : State) :
    runPrims [.drive sig level, .commit] s = commit { s with or := driven s.cfg.pins sig level s.or } :=
  runPrims_singleton .commit { s with or := driven s.cfg.pins sig level s.or }

/-- The data setter, whatever the transport answers. -/
theorem runPrims_setDataNibble (n : Nib) (s : State) :
    runPrims (setDataNibble n) s = commit { s with or := drivenData s.cfg.pins n s.or } :=
  runPrims_singleton .commit { s with or := drivenData s.cfg.pins n s.or }

/-! ### The lines a setter writes and those it keeps (R71 to R75) -/

theorem line_driven_same (p : PinMap) (h : p.ok = true) (sig : Signal) (level : Bool) (o : Byte) :
    line p sig (driven p sig level o) = level := by
  rw [line_driven p h, if_pos rfl]

theorem line_driven_ne (p : PinMap) (h : p.ok = true) {sig x : Signal} (hne : sig ≠ x) (level : Bool) (o : Byte) :
    line p sig (driven p x level o) = line p sig o := by
  rw [line_driven p h, if_neg hne]

theorem line_drivenData_of_not_data (p : PinMap) (h : p.ok = true) {sig : Signal}
    (hsig : sig ∉ [Signal.d4, .d5, .d6, .d7]) (n : Nib) (o : Byte) :
    line p sig (drivenData p n o) = line p sig o := by
  rw [line_drivenData p h]
  cases sig with
  | rs | rw | e | bl => rfl
  | d4 | d5 | d6 | d7 => exact absurd hsig (by decide)

/-- Settles O6: the byte committed is the data update of `OR`. -/
theorem setDataNibbleWritesExactlyTheDataLines : Obligations.SetDataNibbleWritesExactlyTheDataLines := by
  intro s n hpins
  have hline (sig : Signal) := line_drivenData s.cfg.pins hpins sig n s.or
  exact ⟨drivenData s.cfg.pins n s.or, runPrims_setDataNibble n s, hline .d4, hline .d5, hline .d6, hline .d7,
    fun _ hsig => line_drivenData_of_not_data s.cfg.pins hpins hsig n s.or⟩

/-- Settles O7: each of the four setters drives its own signal and then commits, so one argument serves them all. -/
theorem settersWriteOneLineAndTransmitOnce : Obligations.SettersWriteOneLineAndTransmitOnce := by
  intro s level hpins x hx
  have hsetter : x.2 = [.drive x.1 level, .commit] := by
    simp only [List.mem_cons, List.not_mem_nil, or_false] at hx
    rcases hx with rfl | rfl | rfl | rfl <;> rfl
  rw [hsetter]
  exact ⟨driven s.cfg.pins x.1 level s.or, runPrims_drive_commit x.1 level s,
    line_driven_same s.cfg.pins hpins x.1 level s.or,
    fun _ hne => line_driven_ne s.cfg.pins hpins hne level s.or⟩

end Sys2Proof.Machine
end

section
/-! PROOFS. The statement of 42_init_sequencer.md: a run is followed to the write that fails, and INIT is cut at its
writes of `FSM`. -/

namespace Sys2Proof.Machine

/-! ### A run up to one of its writes -/

theorem commit_done (s : State) {as : List TxAnswer} (h : s.txAnswers = .done :: as) :
    commit s = .fin (record (.tx s.or) (deliver s.or { s with txAnswers := as })) := by
  rw [commit_eq, h]

theorem commit_err (s : State) {d : Bool} {as : List TxAnswer} (h : s.txAnswers = .err d :: as) :
    commit s = .err (record (.txFail s.or) (deliverIf d s.or { s with txAnswers := as })) := by
  rw [commit_eq, h]

theorem waitDelay_elapsed (t : Nat) (s : State) (h : ∀ a ∈ s.delayAnswers, a = .elapsed) :
    waitDelay t s = .fin (record (.delay t) { s with delayAnswers := s.delayAnswers.tail }) := by
  rcases hs : s.delayAnswers with _ | ⟨a, as⟩
  · simp only [waitDelay, hs, List.tail_nil]
    rw [← hs]
  · obtain rfl : a = .elapsed := h a (by simp [hs])
    simp only [waitDelay, hs, List.tail_cons]

/-- `FSM`, `DS` and `DSV` when write number `k` (from 0) is made, the three being `r` at the start (R95, R96). -/
def regsAtWrite : Nat → List Prim → Fsm × Byte × Bool → Fsm × Byte × Bool
  | _, [], r => r
  | 0, .commit :: _, r => r
  | k + 1, .commit :: ps, r => regsAtWrite k ps r
  | k, .drive _ _ :: ps, r => regsAtWrite k ps r
  | k, .driveData _ :: ps, r => regsAtWrite k ps r
  | k, .delay _ :: ps, r => regsAtWrite k ps r
  | k, .fsm f :: ps, r => regsAtWrite k ps (f, r.2)
  | k, .baseline v :: ps, r => regsAtWrite k ps (r.1, v, true)

/-- `u` is the state that `s` has become when write number `k` of `ps` is about to be made, the writes before it done. -/
structure AtWrite (k : Nat) (ps : List Prim) (s u : State) : Prop where
  answers : u.txAnswers = s.txAnswers.drop k
  trace : u.trace = s.trace ++ beforeWrite k (plannedPrims s.cfg.pins ps s.or)
  byte : (eventBytes (plannedPrims s.cfg.pins ps s.or))[k]? = some u.or
  regs : (u.fsm, u.ds, u.dsv) = regsAtWrite k ps (s.fsm, s.ds, s.dsv)

/-- The run of `ps` from `s` reaches write number `k`: what comes before it is done. -/
def ReachesWrite (k : Nat) (ps : List Prim) (s : State) : Prop :=
  ∃ qs rs u, ps = qs ++ .commit :: rs ∧ runPrims qs s = .fin u ∧ AtWrite k ps s u

/-- A write reached after one action that was done is reached. -/
theorem ReachesWrite.cons {j k : Nat} {p : Prim} {ps : List Prim} {s s' : State} (hp : runPrim p s = .fin s')
    (h : ReachesWrite j ps s') (hat : ∀ u, AtWrite j ps s' u → AtWrite k (p :: ps) s u) :
    ReachesWrite k (p :: ps) s := by
  obtain ⟨qs, rs, u, hps, hrun, hu⟩ := h
  exact ⟨p :: qs, rs, u, by rw [hps, List.cons_append], by rw [runPrims, hp]; exact hrun, hat u hu⟩

/-- When the first `k` writes are answered *done* and every delay ends, the run reaches write number `k`. -/
theorem runPrims_reaches_write (ps : List Prim) (k : Nat) (s : State) (as : List TxAnswer)
    (hd : ∀ a ∈ s.delayAnswers, a = .elapsed) (ha : s.txAnswers = List.replicate k .done ++ as)
    (hk : k < writes (plannedPrims s.cfg.pins ps s.or)) : ReachesWrite k ps s := by
  induction ps generalizing k s with
  | nil => exact absurd hk (Nat.not_lt_zero k)
  | cons p ps ih =>
    cases p with
    | drive sig l =>
      exact (ih k { s with or := driven s.cfg.pins sig l s.or } hd ha hk).cons rfl
        fun u h => ⟨h.answers, h.trace, h.byte, by simpa [regsAtWrite] using h.regs⟩
    | driveData n =>
      exact (ih k { s with or := drivenData s.cfg.pins n s.or } hd ha hk).cons rfl
        fun u h => ⟨h.answers, h.trace, h.byte, by simpa [regsAtWrite] using h.regs⟩
    | fsm f =>
      exact (ih k { s with fsm := f } hd ha hk).cons rfl
        fun u h => ⟨h.answers, h.trace, h.byte, by simpa [regsAtWrite] using h.regs⟩
    | baseline v =>
      exact (ih k { s with ds := v, dsv := true } hd ha hk).cons rfl
        fun u h => ⟨h.answers, h.trace, h.byte, by simpa [regsAtWrite] using h.regs⟩
    | delay t =>
      have hreach := ih k (record (.delay t) { s with delayAnswers := s.delayAnswers.tail })
        (fun a h => hd a (List.mem_of_mem_tail h)) ha hk
      exact hreach.cons (waitDelay_elapsed t s hd) fun u h =>
        ⟨h.answers, by simpa [plannedPrims, beforeWrite] using h.trace, h.byte, by simpa [regsAtWrite] using h.regs⟩
    | commit =>
      cases k with
      | zero => exact ⟨[], ps, s, rfl, rfl, rfl, by simp [plannedPrims, beforeWrite], rfl, rfl⟩
      | succ k =>
        have hreach := ih k (record (.tx s.or) (deliver s.or { s with txAnswers := List.replicate k .done ++ as })) hd
          rfl (Nat.lt_of_succ_lt_succ hk)
        exact hreach.cons (commit_done s ha) fun u h =>
          ⟨by simpa [ha, List.replicate_succ] using h.answers, by simpa [plannedPrims, beforeWrite] using h.trace,
            h.byte, h.regs⟩

/-- The events of a failure are those before it and the failure of the planned byte (R130). -/
theorem failAt_plannedPrims (p : PinMap) (ps : List Prim) (k : Nat) (o b : Byte)
    (h : (eventBytes (plannedPrims p ps o))[k]? = some b) :
    failAt k (plannedPrims p ps o) = beforeWrite k (plannedPrims p ps o) ++ [.txFail b] := by
  induction ps generalizing k o with
  | nil => simp [plannedPrims, eventBytes] at h
  | cons a ps ih =>
    cases a with
    | drive sig l => exact ih k _ h
    | driveData n => exact ih k _ h
    | fsm f => exact ih k o h
    | baseline v => exact ih k o h
    | delay t => simpa [plannedPrims, failAt, beforeWrite] using ih k o h
    | commit =>
      cases k with
      | zero => simpa [plannedPrims, failAt, beforeWrite, eventBytes] using h
      | succ k => simpa [plannedPrims, failAt, beforeWrite] using ih k o h

/-- When write number `k` is the first to fail, the run ends there: nothing is rolled back, `OR` is the failing byte and
`FSM`, `DS` and `DSV` are as the actions before it left them (R121, R130). -/
theorem runPrims_fails (ps : List Prim) (k : Nat) (s : State) (d : Bool) (rest : List TxAnswer)
    (hd : ∀ a ∈ s.delayAnswers, a = .elapsed) (ha : s.txAnswers = List.replicate k .done ++ .err d :: rest)
    (hk : k < writes (plannedPrims s.cfg.pins ps s.or)) :
    ∃ t, runPrims ps s = .err t ∧ t.trace = s.trace ++ failAt k (plannedPrims s.cfg.pins ps s.or) ∧
      some t.or = (eventBytes (failAt k (plannedPrims s.cfg.pins ps s.or))).getLast? ∧
      (t.fsm, t.ds, t.dsv) = regsAtWrite k ps (s.fsm, s.ds, s.dsv) := by
  obtain ⟨qs, rs, u, hps, hrun, h⟩ := runPrims_reaches_write ps k s _ hd ha hk
  have hans : u.txAnswers = .err d :: rest := by simp [h.answers, ha]
  refine ⟨record (.txFail u.or) (deliverIf d u.or { u with txAnswers := rest }), ?_, ?_, ?_, ?_⟩
  · simp [hps, runPrims_append, hrun, runPrims, runPrim, commit_err u hans]
  · simp [failAt_plannedPrims _ _ _ _ _ h.byte, h.trace]
  · simp [failAt_plannedPrims _ _ _ _ _ h.byte, eventBytes_append, eventBytes]
  · simp [h.regs]

/-- A sequence whose actions fail ends as the failure of its element does: the text not yet taken is discarded (R117). -/
theorem runOps_of_runPrims_err (ms : List Micro) (n : Nat) (s t : State)
    (h : runPrims (ms.flatMap expand) s = .err t) : runOps ms n s = drainText n t := by
  induction ms generalizing s with
  | nil => simp at h
  | cons m ms ih =>
    rw [List.flatMap_cons, runPrims_append] at h
    rw [runOps_cons, runMicro]
    cases hm : runPrims (expand m) s with
    | fin s' => rw [hm] at h; exact ih s' h
    | err s' => rw [hm] at h; cases h; rfl
    | held rem s' => simp [hm] at h
    | rst s' => simp [hm] at h

/-! ### Frames planned from an `OR` given by its lines (R50, R51) -/

theorem plannedPrims_setRW (p : PinMap) (h : p.ok = true) (l rs rw e bl : Bool) (n : Nib) (ps : List Prim) :
    plannedPrims p (setRW l ++ ps) (pack p rs rw e bl n) =
      .tx (pack p rs l e bl n) :: plannedPrims p ps (pack p rs l e bl n) := by
  simp [setRW, plannedPrims, driven_rw_pack p h]

theorem plannedPrims_sendNibble (p : PinMap) (h : p.ok = true) (rs rw e bl : Bool) (old n : Nib) (ps : List Prim) :
    plannedPrims p (sendNibble n ++ ps) (pack p rs rw e bl old) =
      txs (nibbleBytes p rs rw bl old n) ++ plannedPrims p ps (pack p rs rw false bl n) := by
  simp [sendNibble, setE, setDataNibble, plannedPrims, driven_e_pack p h, drivenData_pack p h, nibbleBytes, txs]

theorem plannedPrims_writeByte (p : PinMap) (h : p.ok = true) (d rs rw e bl : Bool) (old : Nib) (v : Byte)
    (ps : List Prim) :
    plannedPrims p (writeByte d v ++ ps) (pack p rs rw e bl old) =
      txs (byteBytes p rw e bl d old v) ++ plannedPrims p ps (pack p d rw false bl (loNibble v)) := by
  simp [writeByte, setRS, plannedPrims, driven_rs_pack p h, plannedPrims_sendNibble p h, byteBytes, txs]

/-! ### INIT, cut at its writes of `FSM` -/

/-- Whether an action leaves `FSM`, `DS` and `DSV` alone. -/
def keepsRegs : Prim → Bool
  | .drive _ _ => true
  | .driveData _ => true
  | .commit => true
  | .delay _ => true
  | .fsm _ => false
  | .baseline _ => false

/-- Over actions that leave the registers alone, a write is either one of theirs or one of the rest. -/
theorem regsAtWrite_append (ps qs : List Prim) (hps : ps.all keepsRegs = true) (k : Nat) (r : Fsm × Byte × Bool) :
    regsAtWrite k (ps ++ qs) r =
      if k < ps.count .commit then r else regsAtWrite (k - ps.count .commit) qs r := by
  induction ps generalizing k with
  | nil => simp
  | cons p ps ih =>
    cases p with
    | drive sig l => simpa [regsAtWrite] using ih hps k
    | driveData n => simpa [regsAtWrite] using ih hps k
    | delay t => simpa [regsAtWrite] using ih hps k
    | fsm f => simp [keepsRegs] at hps
    | baseline v => simp [keepsRegs] at hps
    | commit =>
      cases k with
      | zero => simp [regsAtWrite]
      | succ k => simpa [regsAtWrite] using ih hps k

/-- Steps 1 to 4 of INIT after the first action (R89 to R92). -/
def initWake (c : Cfg) : List Prim :=
  .delay c.tPower :: setRW false ++ sendNibble 0x3 ++ [.delay c.tWake1] ++ sendNibble 0x3 ++ [.delay c.tWake2]
    ++ sendNibble 0x3 ++ [.delay c.tWake3] ++ sendNibble 0x2 ++ [.delay c.t4Bit]

/-- A command byte of INIT and the delay after it, as steps 5 and 6 have them (R93, R94). -/
def initSend (v : Byte) (t : Nat) : List Prim := writeByte false v ++ [.delay t]

/-- The actions of INIT, by the steps that write `FSM` (R88 to R96). -/
theorem initProgram_expand (c : Cfg) :
    (initProgram c).flatMap expand =
      .fsm .unknown :: (initWake c ++ .fsm .forcedIdle :: (initSend c.cmdFunctionSet c.tFunction ++
        .fsm .functionConfigured :: (initSend c.cmdClearDisplay c.tClear ++
          .fsm .cleared :: .baseline c.cmdDisplayOn :: (writeByte false c.cmdDisplayOn ++ [.fsm .ready])))) := rfl

/-- INIT plans the events of R88 to R95: its frames one after the other, from `OR` as it stands. -/
theorem plannedPrims_initProgram (c : Cfg) (hpins : c.pins.ok = true) (o : Byte) :
    plannedPrims c.pins ((initProgram c).flatMap expand) o = initEvents c o := by
  conv_lhs => rw [← pack_lines c.pins hpins o]
  simp [initProgram_expand, initWake, initSend, initEvents, plannedPrims, plannedPrims_setRW c.pins hpins,
    plannedPrims_sendNibble c.pins hpins, plannedPrims_writeByte c.pins hpins, txs]

theorem writes_initEvents (c : Cfg) (o : Byte) : writes (initEvents c o) = 34 := rfl

/-- `FSM`, `DS` and `DSV` at each write of INIT: 13 writes in steps 2 to 4, then 7 in each of steps 5, 6 and 7, the
baseline being written as step 7 begins (R97). -/
theorem regsAtWrite_initProgram (c : Cfg) (k : Nat) (hk : k < 34) (f : Fsm) (ds : Byte) (dsv : Bool) :
    regsAtWrite k ((initProgram c).flatMap expand) (f, ds, dsv) =
      (if k < 13 then .unknown else if k < 20 then .forcedIdle else if k < 27 then .functionConfigured else .cleared,
        if k < 27 then ds else c.cmdDisplayOn, if k < 27 then dsv else true) := by
  have hwake : (initWake c).count .commit = 13 := rfl
  have hsend (v : Byte) (t : Nat) : (initSend v t).count .commit = 7 := rfl
  have hbyte (v : Byte) : (writeByte false v).count .commit = 7 := rfl
  have hstep5 : k - 13 < 7 ↔ k < 20 := by omega
  have hstep6 : k - 13 - 7 < 7 ↔ k < 27 := by omega
  have hstep7 : k - 13 - 7 - 7 < 7 := by omega
  simp only [initProgram_expand, regsAtWrite, regsAtWrite_append (initWake c) _ rfl,
    regsAtWrite_append (initSend _ _) _ rfl, regsAtWrite_append (writeByte false _) _ rfl, hwake, hsend, hbyte, hstep5,
    hstep6, if_pos hstep7]
  by_cases h27 : k < 27
  · simp only [if_pos h27]
    split_ifs <;> rfl
  · have h13 : ¬k < 13 := by omega
    have h20 : ¬k < 20 := by omega
    simp only [if_neg h13, if_neg h20, if_neg h27]

/-- Settles O36: the run of INIT ends at the failing write, and the registers there are those of the write's step. -/
theorem initAbortKeepsTheLastState : Obligations.InitAbortKeepsTheLastState := by
  intro s k d rest hpins hdelays hanswers hk
  have hplan := plannedPrims_initProgram s.cfg hpins s.or
  obtain ⟨t, hrun, htrace, hor, hregs⟩ := runPrims_fails ((initProgram s.cfg).flatMap expand) k (accept s) d rest
    hdelays hanswers (by simpa [hplan, writes_initEvents] using hk)
  have hexec : exec .init s = .next (raise .transportError t) := by
    rw [exec_hostSequence_init, runCommand, runOps_of_runPrims_err _ _ _ _ hrun, drainText]
  simp only [accept_cfg, accept_or, accept_trace, hplan] at htrace hor
  simp only [accept_fsm, accept_ds, accept_dsv, regsAtWrite_initProgram s.cfg k hk, Prod.mk.injEq] at hregs
  exact ⟨raise .transportError t, hexec, htrace, rfl, rfl, hor, hregs⟩

end Sys2Proof.Machine
end

section
/-! PROOFS. The statement of 43_display_cursor.md: the cursor address. -/

namespace Sys2Proof

/-! ### The cursor address calculator (R107) -/

/-- A column is below `0x100` and a base at most `0x40`, so their sum stays below `0x200` and nine bits hold it. -/
theorem toNat_column_add_base (col : Byte) (base : BitVec 9) (hbase : base.toNat ≤ 0x40) :
    (col.setWidth 9 + base).toNat = col.toNat + base.toNat := by
  have hcol : (col.setWidth 9).toNat = col.toNat := BitVec.toNat_setWidth_of_le (by decide)
  have hsum : (col.setWidth 9).toNat + base.toNat < 2 ^ 9 := by omega
  rw [BitVec.toNat_add_of_lt hsum, hcol]

/-- Row 1 is based at `0x40` (R107). -/
theorem cursorAddress_one (col : Byte) : (cursorAddress 1 col).toNat = col.toNat + 0x40 :=
  toNat_column_add_base col 0x40 (by decide)

/-- Every row but row 1 is based at `0x00`, row 0 and rows 2 to 255 alike (R107). -/
theorem cursorAddress_of_ne_one {row : Byte} (hrow : row ≠ 1) (col : Byte) :
    (cursorAddress row col).toNat = col.toNat := by
  rw [cursorAddress, if_neg hrow]
  exact toNat_column_add_base col 0x00 (by decide)

/-- Settles O13: row 1 and the other rows, by the base of each. -/
theorem cursorAddressFormula : Obligations.CursorAddressFormula := by
  intro row col
  by_cases hrow : row = 1
  · subst hrow
    exact cursorAddress_one col
  · have hnat : row.toNat ≠ 1 := fun h => hrow (BitVec.eq_of_toNat_eq h)
    rw [cursorAddress_of_ne_one hrow, if_neg hnat, Nat.add_zero]

end Sys2Proof
end

section
/-! PROOFS. The statement of 60_exceptions.md about `DSV`: until a reset comes, nothing the block runs clears a `DSV` that is
set. -/

namespace Sys2Proof.Machine

/-! ### Runs that keep the baseline (R15, R123) -/

/-- A set of answers without a reset stays so as they are used up. -/
theorem NoReset.of_subset {s t : State} (h : NoReset s) (htx : t.txAnswers ⊆ s.txAnswers)
    (hdelay : t.delayAnswers ⊆ s.delayAnswers) : NoReset t :=
  ⟨fun a ha => h.1 a (htx ha), fun d hd => h.2 d (hdelay hd)⟩

/-- `DSV` is set and none of the answers to come is a reset. -/
def BaselineHeld (s : State) : Prop := NoReset s ∧ s.dsv = true

/-- A result in which the baseline is still held: no reset arrived, and none is to come. -/
def KeepsBaseline : Res → Prop
  | .fin t => BaselineHeld t
  | .err t => BaselineHeld t
  | .held _ t => BaselineHeld t
  | .rst _ => False

/-- A write keeps the baseline, whatever the transport answers short of a reset. -/
theorem commit_keepsBaseline {s : State} (h : BaselineHeld s) : KeepsBaseline (commit s) := by
  obtain ⟨hnr, hdsv⟩ := h
  have hrest {a : TxAnswer} {as : List TxAnswer} (hs : s.txAnswers = a :: as) :
      NoReset { s with txAnswers := as } :=
    hnr.of_subset (by simp [hs]) (List.Subset.refl _)
  rw [commit_eq]
  rcases hs : s.txAnswers with _ | ⟨a, as⟩
  · exact ⟨hnr, hdsv⟩
  · cases a with
    | done => exact ⟨hrest hs, hdsv⟩
    | err d => exact ⟨(hrest hs).of_subset (by simp) (by simp), by simpa using hdsv⟩
    | pending => exact ⟨hrest hs, hdsv⟩
    | never => exact ⟨hnr, hdsv⟩
    | reset d => exact hnr.1 (.reset d) (by simp [hs]) d rfl

/-- A delay keeps the baseline, however it ends short of a reset. -/
theorem waitDelay_keepsBaseline (t : Nat) {s : State} (h : BaselineHeld s) : KeepsBaseline (waitDelay t s) := by
  obtain ⟨hnr, hdsv⟩ := h
  have hrest {d : DelayAnswer} {ds : List DelayAnswer} (hs : s.delayAnswers = d :: ds) :
      NoReset { s with delayAnswers := ds } :=
    hnr.of_subset (List.Subset.refl _) (by simp [hs])
  rw [waitDelay]
  rcases hs : s.delayAnswers with _ | ⟨d, ds⟩
  · exact ⟨hnr, hdsv⟩
  · cases d with
    | elapsed => exact ⟨hrest hs, hdsv⟩
    | pending => exact ⟨hrest hs, hdsv⟩
    | never => exact ⟨hnr, hdsv⟩
    | reset => exact hnr.2 .reset (by simp [hs]) rfl

theorem runPrim_keepsBaseline (p : Prim) {s : State} (h : BaselineHeld s) : KeepsBaseline (runPrim p s) := by
  cases p with
  | drive sig level => exact h
  | driveData n => exact h
  | commit => exact commit_keepsBaseline h
  | delay t => exact waitDelay_keepsBaseline t h
  | fsm f => exact h
  | baseline v => exact ⟨h.1, rfl⟩

theorem runPrims_keepsBaseline (ps : List Prim) {s : State} (h : BaselineHeld s) : KeepsBaseline (runPrims ps s) := by
  induction ps generalizing s with
  | nil => exact h
  | cons p ps ih =>
    have hp := runPrim_keepsBaseline p h
    rw [runPrims]
    cases hr : runPrim p s with
    | fin t => rw [hr] at hp; exact ih hp
    | err t => rw [hr] at hp; exact hp
    | held rem t => rw [hr] at hp; exact hp
    | rst t => rw [hr] at hp; exact hp.elim

theorem drainText_keepsBaseline (n : Nat) {s : State} (h : BaselineHeld s) : BaselineHeld (drainText n s) := by
  rw [drainText_spec]
  split
  · exact h
  · exact h

/-- The end of an element keeps the baseline when what comes after it does. -/
theorem conclude_keepsBaseline (ms : List Micro) (n : Nat) {k : State → State}
    (hk : ∀ t, BaselineHeld t → BaselineHeld (k t)) (m : Micro) {s : State} (h : BaselineHeld s) :
    BaselineHeld (conclude ms n k (runMicro m s)) := by
  have hm : KeepsBaseline (runMicro m s) := runPrims_keepsBaseline (expand m) h
  cases hr : runMicro m s with
  | fin t => rw [hr] at hm; exact hk t hm
  | err t => rw [hr] at hm; exact drainText_keepsBaseline n hm
  | held rem t => rw [hr] at hm; exact hm
  | rst t => rw [hr] at hm; exact hm.elim

theorem runText_keepsBaseline (n : Nat) {s : State} (h : BaselineHeld s) : BaselineHeld (runText n s) := by
  induction n generalizing s with
  | zero => exact h
  | succ n ih =>
    rw [runText]
    split
    · exact h
    next b bs _ =>
      have hb : BaselineHeld { s with txt := bs } := h
      exact conclude_keepsBaseline [] n (fun _ => ih) (writeChar b) hb

theorem runOps_keepsBaseline (ms : List Micro) (n : Nat) {s : State} (h : BaselineHeld s) :
    BaselineHeld (runOps ms n s) := by
  induction ms generalizing s with
  | nil => exact runText_keepsBaseline n h
  | cons m ms ih => exact conclude_keepsBaseline ms n (fun _ => ih) m h

theorem runCommand_keepsBaseline (ms : List Micro) (n : Nat) {s : State} (h : BaselineHeld s) :
    BaselineHeld (runCommand ms n s) :=
  have haccept : BaselineHeld (accept s) := h
  runOps_keepsBaseline ms n haccept

theorem perform_keepsBaseline (m : Micro) {s : State} (h : BaselineHeld s) : BaselineHeld (perform m s) :=
  conclude_keepsBaseline _ _ (fun _ ht => ht) m h

theorem advance_keepsBaseline {s : State} (h : BaselineHeld s) : BaselineHeld (advance s) := by
  unfold advance
  split
  · exact h
  next m ms n _ =>
    have hrest : BaselineHeld { s with seq := .run ms n } := h
    exact perform_keepsBaseline m hrest
  · exact h
  next n _ =>
    split
    · exact h
    next b bs _ =>
      have hrest : BaselineHeld { s with txt := bs, seq := .run [] n } := h
      exact perform_keepsBaseline (writeChar b) hrest
  next n _ => exact drainText_keepsBaseline n h

/-! ### The display commands by `DSV` (R105, R123) -/

theorem sendDisplayState_written (f : Byte → Byte) {s : State} (h : s.dsv = true) :
    sendDisplayState f s = runCommand [writeCmd (f s.ds)] 0 { s with ds := f s.ds } := by
  rw [sendDisplayState, if_pos h]

theorem sendDisplayState_unwritten (f : Byte → Byte) {s : State} (h : s.dsv = false) :
    sendDisplayState f s = raise .dsUnwritten s := by
  rw [sendDisplayState, h]
  rfl

/-- An idle block refuses to send a display state that no baseline was written for, and only `STATUS` tells (R123). -/
theorem sendDisplayState_of_idle (f : Byte → Byte) {s : State} (hidle : Idle s) (h : s.dsv = false) :
    sendDisplayState f s = { s with status := .dsUnwritten } := by
  rw [sendDisplayState_unwritten f h, raise_of_idle _ hidle]

theorem sendDisplayState_keepsBaseline (f : Byte → Byte) {s : State} (h : BaselineHeld s) :
    BaselineHeld (sendDisplayState f s) := by
  have hwritten : BaselineHeld { s with ds := f s.ds } := h
  rw [sendDisplayState_written f h.2]
  exact runCommand_keepsBaseline _ 0 hwritten

/-! ### Every instruction and every step -/

/-- Everything an instruction can be: a sequence run as a command, a display command, or one element by itself. -/
theorem exec_cases (i : Instr) (s : State) :
    (∃ ms n, exec i s = .next (runCommand ms n s)) ∨ (∃ f, exec i s = .next (sendDisplayState f s)) ∨
      ∃ m, exec i s = .next (perform m s) := by
  cases i with
  | init | blon | bloff | clear | wrtext => exact .inl ⟨_, _, rfl⟩
  | dispon | dispoff | curmode => exact .inr (.inl ⟨_, rfl⟩)
  | lcdWake | lcdSet4bit | lcdFunctionSet | lcdClearDisplay | lcdDisplayControl | lcdSetCursorAddress | lcdCharacter =>
    exact .inr (.inr ⟨_, rfl⟩)

theorem exec_keepsBaseline (i : Instr) {s t : State} (h : BaselineHeld s) (he : exec i s = .next t) :
    BaselineHeld t := by
  obtain ⟨ms, n, hi⟩ | ⟨f, hi⟩ | ⟨m, hi⟩ := exec_cases i s
  · cases hi.symm.trans he
    exact runCommand_keepsBaseline ms n h
  · cases hi.symm.trans he
    exact sendDisplayState_keepsBaseline f h
  · cases hi.symm.trans he
    exact perform_keepsBaseline m h

/-- A step on a low reset input is the next element of a command, a wait, an instruction, or a refused word. -/
theorem step_keepsBaseline {s t : State} (hrst : s.rst = .low) (h : BaselineHeld s) (hstep : step s = .next t) :
    BaselineHeld t := by
  unfold step at hstep
  obtain ⟨-, hf⟩ | ⟨-, -, hf⟩ | ⟨-, d, hhigh, -⟩ | ⟨-, -, -, hf⟩ | ⟨-, -, -, -, hf⟩ |
    ⟨-, -, -, w, ws, -, ⟨i, -, hf⟩ | ⟨e, -, hf⟩⟩ := fetch_cases s
  · rw [hf] at hstep; cases hstep
  · rw [hf] at hstep; cases hstep
  · rw [hrst] at hhigh; cases hhigh
  · rw [hf] at hstep; cases hstep
    exact advance_keepsBaseline h
  · rw [hf] at hstep; cases hstep
    exact h
  · rw [hf] at hstep
    have hword : BaselineHeld { s with cmds := ws } := h
    exact exec_keepsBaseline i hword hstep
  · rw [hf] at hstep; cases hstep
    exact h

/-- Settles O28: every instruction and every step keeps the baseline until a reset, and the three display commands are one
refusal when it was never written. -/
theorem displayCommandsRefusedBeforeBaseline : Obligations.DisplayCommandsRefusedBeforeBaseline := by
  refine ⟨fun i s t hnr hdsv he => (exec_keepsBaseline i ⟨hnr, hdsv⟩ he).2,
    fun s t hnr hrst hdsv hstep => (step_keepsBaseline hrst ⟨hnr, hdsv⟩ hstep).2, ?_⟩
  intro s hidle hdsv i hi
  have hrefused (f : Byte → Byte) :
      (.next (sendDisplayState f s) : Host.Outcome State Fault Refusal) = .next { s with status := .dsUnwritten } :=
    congrArg _ (sendDisplayState_of_idle f hidle hdsv)
  rcases hi with rfl | rfl | ⟨v, k, rfl⟩
  · exact hrefused dsTurnOn
  · exact hrefused dsTurnOff
  · exact hrefused (dsCursorMode v k)

end Sys2Proof.Machine
end

section
/-! PROOFS. The statement of 70_reset_and_hazards.md: a run cut by a reset at one of its writes or during one of its
delays, and the host command it belongs to. -/

namespace Sys2Proof.Machine

/-! ### Actions met by the outside in full or by a reset (R31, R143) -/

theorem commit_all_done (s : State) (h : ∀ a ∈ s.txAnswers, a = .done) :
    commit s = .fin (record (.tx s.or) (deliver s.or { s with txAnswers := s.txAnswers.tail })) := by
  rcases hs : s.txAnswers with _ | ⟨a, as⟩
  · simp only [commit_eq, hs, List.tail_nil]
    rw [← hs]
  · obtain rfl : a = .done := h a (by simp [hs])
    exact commit_done s hs

theorem commit_reset (s : State) {d : Bool} {as : List TxAnswer} (h : s.txAnswers = .reset d :: as) :
    commit s = .rst (deliverIf d s.or { s with txAnswers := as }) := by
  rw [commit_eq, h]

theorem waitDelay_elapsed_cons (t : Nat) (s : State) {ds : List DelayAnswer} (h : s.delayAnswers = .elapsed :: ds) :
    waitDelay t s = .fin (record (.delay t) { s with delayAnswers := ds }) := by
  simp only [waitDelay, h]

theorem waitDelay_reset (t : Nat) (s : State) {ds : List DelayAnswer} (h : s.delayAnswers = .reset :: ds) :
    waitDelay t s = .rst { s with delayAnswers := ds } := by
  simp only [waitDelay, h]

/-! ### A run cut by a reset -/

/-- The run of `ps` from `s` is cut by a reset, with `x` on the expander's lines. -/
def CutByReset (ps : List Prim) (s : State) (x : Byte) : Prop := ∃ t, runPrims ps s = .rst t ∧ t.xp = x

theorem not_cutByReset_nil (s : State) (x : Byte) : ¬ CutByReset [] s x := by
  rintro ⟨t, hrun, -⟩
  cases hrun

/-- The run is cut at its first action. -/
theorem CutByReset.head {p : Prim} {s t : State} (hp : runPrim p s = .rst t) (ps : List Prim) :
    CutByReset (p :: ps) s t.xp :=
  ⟨t, by rw [runPrims, hp], rfl⟩

/-- The first action is done and the rest is cut. -/
theorem CutByReset.cons {p : Prim} {ps : List Prim} {s s' : State} {x : Byte} (hp : runPrim p s = .fin s')
    (h : CutByReset ps s' x) : CutByReset (p :: ps) s x := by
  obtain ⟨t, hrun, hx⟩ := h
  exact ⟨t, by rw [runPrims, hp]; exact hrun, hx⟩

/-- A run cut somewhere in two parts is cut in the first, or in the second once the first is done. -/
theorem CutByReset.of_append {ps qs : List Prim} {s : State} {x : Byte} (h : CutByReset (ps ++ qs) s x) :
    CutByReset ps s x ∨ ∃ s', runPrims ps s = .fin s' ∧ CutByReset qs s' x := by
  obtain ⟨t, hrun, hx⟩ := h
  rw [runPrims_append] at hrun
  cases hps : runPrims ps s with
  | fin s' => rw [hps] at hrun; exact .inr ⟨s', rfl, t, hrun, hx⟩
  | err s' => simp [hps] at hrun
  | held rem s' => simp [hps] at hrun
  | rst s' => rw [hps] at hrun; exact .inl ⟨t, hps.trans hrun, hx⟩

/-- When the first `k` writes are answered *done* and every delay ends, a reset that answers write number `k` cuts the run
there: the lines hold the last of the bytes before it, or its own if that was delivered (R143). -/
theorem cutByReset_at_write (ps : List Prim) (k : Nat) (s : State) (d : Bool) (rest : List TxAnswer)
    (hd : ∀ a ∈ s.delayAnswers, a = .elapsed) (ha : s.txAnswers = List.replicate k .done ++ .reset d :: rest)
    (hk : k < writes (plannedPrims s.cfg.pins ps s.or)) :
    CutByReset ps s
      (((eventBytes (plannedPrims s.cfg.pins ps s.or)).take (if d then k + 1 else k)).getLastD s.xp) := by
  induction ps generalizing k s with
  | nil => exact absurd hk (Nat.not_lt_zero k)
  | cons p ps ih =>
    cases p with
    | drive sig l => exact (ih k { s with or := driven s.cfg.pins sig l s.or } hd ha hk).cons rfl
    | driveData n => exact (ih k { s with or := drivenData s.cfg.pins n s.or } hd ha hk).cons rfl
    | fsm f => exact (ih k { s with fsm := f } hd ha hk).cons rfl
    | baseline v => exact (ih k { s with ds := v, dsv := true } hd ha hk).cons rfl
    | delay t =>
      exact (ih k (record (.delay t) { s with delayAnswers := s.delayAnswers.tail })
        (fun a h => hd a (List.mem_of_mem_tail h)) ha hk).cons (waitDelay_elapsed t s hd)
    | commit =>
      cases k with
      | zero =>
        have hcut : CutByReset (.commit :: ps) s _ := CutByReset.head (p := .commit) (commit_reset s ha) ps
        cases d <;> simpa [plannedPrims, eventBytes] using hcut
      | succ k =>
        have hrest := ih k
          (record (.tx s.or) (deliver s.or { s with txAnswers := List.replicate k .done ++ .reset d :: rest })) hd rfl
          (Nat.lt_of_succ_lt_succ hk)
        have hcut := hrest.cons (p := .commit) (commit_done s ha)
        cases d <;> simpa [plannedPrims, eventBytes, List.getLast?_cons] using hcut

/-- When every write is answered *done* and the first `k` delays end, a reset during delay number `k` cuts the run there:
the lines hold the last of the bytes before it (R143). -/
theorem cutByReset_at_delay (ps : List Prim) (k : Nat) (s : State) (rest : List DelayAnswer)
    (ha : ∀ a ∈ s.txAnswers, a = .done) (hd : s.delayAnswers = List.replicate k .elapsed ++ .reset :: rest)
    (hk : k < delays (plannedPrims s.cfg.pins ps s.or)) :
    CutByReset ps s ((eventBytes (beforeDelay k (plannedPrims s.cfg.pins ps s.or))).getLastD s.xp) := by
  induction ps generalizing k s with
  | nil => exact absurd hk (Nat.not_lt_zero k)
  | cons p ps ih =>
    cases p with
    | drive sig l => exact (ih k { s with or := driven s.cfg.pins sig l s.or } ha hd hk).cons rfl
    | driveData n => exact (ih k { s with or := drivenData s.cfg.pins n s.or } ha hd hk).cons rfl
    | fsm f => exact (ih k { s with fsm := f } ha hd hk).cons rfl
    | baseline v => exact (ih k { s with ds := v, dsv := true } ha hd hk).cons rfl
    | commit =>
      have hrest := ih k (record (.tx s.or) (deliver s.or { s with txAnswers := s.txAnswers.tail }))
        (fun a h => ha a (List.mem_of_mem_tail h)) hd hk
      have hcut := hrest.cons (p := .commit) (commit_all_done s ha)
      simpa [plannedPrims, beforeDelay, eventBytes, List.getLast?_cons] using hcut
    | delay t =>
      cases k with
      | zero => exact CutByReset.head (p := .delay t) (waitDelay_reset t s hd) ps
      | succ k =>
        exact (ih k (record (.delay t) { s with delayAnswers := List.replicate k .elapsed ++ .reset :: rest }) ha rfl
          (Nat.lt_of_succ_lt_succ hk)).cons (waitDelay_elapsed_cons t s hd)

/-! ### The text port is not read by primitive actions -/

theorem runPrim_setTxt (p : Prim) (s : State) (bs : List Byte) :
    runPrim p { s with txt := bs } = resMap (fun t => { t with txt := bs }) (runPrim p s) := by
  obtain ⟨cfg, or, ds, dsv, fsm, busy, status, seq, xp, latched, trace, cmds, txt, rst, answers, waits⟩ := s
  cases p with
  | commit =>
    rcases answers with _ | ⟨a, as⟩
    · rfl
    · cases a with
      | done | pending | never => rfl
      | err d | reset d => cases d <;> rfl
  | delay t =>
    rcases waits with _ | ⟨a, as⟩
    · rfl
    · cases a <;> rfl
  | drive | driveData | fsm | baseline => rfl

theorem runPrims_setTxt (ps : List Prim) (s : State) (bs : List Byte) :
    runPrims ps { s with txt := bs } = resMap (fun t => { t with txt := bs }) (runPrims ps s) := by
  induction ps generalizing s with
  | nil => rfl
  | cons p ps ih =>
    simp only [runPrims, runPrim_setTxt]
    cases runPrim p s with
    | fin s' => exact ih s'
    | err s' | held rem s' | rst s' => rfl

theorem CutByReset.setTxt {ps : List Prim} {s : State} {x : Byte} (h : CutByReset ps s x) (bs : List Byte) :
    CutByReset ps { s with txt := bs } x := by
  obtain ⟨t, hrun, hx⟩ := h
  exact ⟨{ t with txt := bs }, by rw [runPrims_setTxt, hrun, resMap_rst], hx⟩

/-! ### The command a reset cuts -/

/-- `t` is what a reset leaves of a machine that was `s`, with `x` on the expander's lines (R142, R143). -/
def ResetWith (s : State) (x : Byte) (t : State) : Prop := ResetRegisters s t ∧ t.xp = x

theorem doReset_resetWith {s t : State} (h : t.cfg = s.cfg) : ResetWith s t.xp (doReset t) :=
  ⟨⟨by rw [doReset_or, h], rfl, rfl, rfl, rfl, rfl, rfl, h⟩, rfl⟩

theorem ResetWith.of_cfg {s s' t : State} {x : Byte} (hc : s'.cfg = s.cfg) (h : ResetWith s' x t) : ResetWith s x t := by
  simpa only [ResetWith, ResetRegisters, hc] using h

/-- A reset falls in an element or in what follows it; what follows finds the configuration and the text port as they
were. -/
theorem conclude_resetWith (ms : List Micro) (n : Nat) (k : State → State) (m : Micro) {qs : List Prim} {s : State}
    {x : Byte} (h : CutByReset (expand m ++ qs) s x)
    (hk : ∀ s', s'.txt = s.txt → CutByReset qs s' x → ResetWith s' x (k s')) :
    ResetWith s x (conclude ms n k (runMicro m s)) := by
  obtain ⟨hcfg, -, htxt, -⟩ := runPrims_frame (expand m) s
  rw [runMicro]
  obtain ⟨t, hrun, rfl⟩ | ⟨s', hrun, hrest⟩ := h.of_append
  · rw [hrun] at hcfg ⊢
    exact doReset_resetWith hcfg
  · rw [hrun] at hcfg htxt ⊢
    exact (hk s' htxt hrest).of_cfg hcfg

theorem runText_resetWith (n : Nat) {s : State} {x : Byte}
    (h : CutByReset (((s.txt.take n).map writeChar).flatMap expand) s x) : ResetWith s x (runText n s) := by
  induction n generalizing s with
  | zero => exact absurd h (not_cutByReset_nil s x)
  | succ n ih =>
    rw [runText]
    cases htxt : s.txt with
    | nil =>
      rw [htxt] at h
      exact absurd h (not_cutByReset_nil s x)
    | cons b bs =>
      rw [htxt] at h
      have hrest (s' : State) (hs' : s'.txt = bs)
          (hcut : CutByReset (((bs.take n).map writeChar).flatMap expand) s' x) : ResetWith s' x (runText n s') :=
        ih (hs' ▸ hcut)
      exact conclude_resetWith [] n (runText n) (writeChar b) (h.setTxt bs) hrest

/-- A reset that falls in a sequence or in the text that follows it leaves the reset state. -/
theorem runOps_resetWith (ms : List Micro) (n : Nat) {s : State} {x : Byte}
    (h : CutByReset ((ms ++ (s.txt.take n).map writeChar).flatMap expand) s x) : ResetWith s x (runOps ms n s) := by
  induction ms generalizing s with
  | nil => exact runText_resetWith n h
  | cons m ms ih => exact conclude_resetWith ms n (runOps ms n) m h fun s' hs' hcut => ih (hs' ▸ hcut)

/-- A host command runs its sequence, `DS` having been written where it is a display command (R102 to R104); the text
bytes are the last part of the sequence (R113). -/
theorem exec_of_hostSequence {s : State} {i : Instr} {ms : List Micro} (h : hostSequence s i = some ms) :
    ∃ ops n ds, exec i s = .next (runCommand ops n { s with ds := ds }) ∧ ms = ops ++ (s.txt.take n).map writeChar := by
  have hdisplay (f : Byte → Byte) (hf : (if s.dsv then some [writeCmd (f s.ds)] else none) = some ms) :
      ∃ ops n ds, Host.Outcome.next (sendDisplayState f s) =
          (.next (runCommand ops n { s with ds := ds }) : Host.Outcome State Fault Refusal) ∧
        ms = ops ++ (s.txt.take n).map writeChar := by
    obtain ⟨hdsv, hms⟩ := Option.ite_none_right_eq_some.1 hf
    exact ⟨_, 0, f s.ds, by rw [sendDisplayState_written f hdsv], (Option.some.inj hms).symm⟩
  cases i with
  | init | blon | bloff | clear => exact ⟨ms, 0, s.ds, by obtain rfl := Option.some.inj h; rfl, by simp⟩
  | wrtext row col len => exact ⟨_, len, s.ds, rfl, (Option.some.inj h).symm⟩
  | dispon => exact hdisplay dsTurnOn h
  | dispoff => exact hdisplay dsTurnOff h
  | curmode v k => exact hdisplay (dsCursorMode v k) h
  | lcdWake | lcdSet4bit | lcdFunctionSet | lcdClearDisplay | lcdDisplayControl | lcdSetCursorAddress | lcdCharacter =>
    cases h

/-- A host command whose sequence is cut by a reset, whatever `DS` it runs with, ends in the reset state. -/
theorem exec_resetWith {s : State} {i : Instr} {ms : List Micro} {x : Byte} (h : hostSequence s i = some ms)
    (hcut : ∀ ds, CutByReset (ms.flatMap expand) (accept { s with ds := ds }) x) :
    ∃ t, exec i s = .next t ∧ ResetRegisters s t ∧ t.xp = x := by
  obtain ⟨ops, n, ds, hexec, rfl⟩ := exec_of_hostSequence h
  exact ⟨_, hexec, runOps_resetWith ops n (hcut ds)⟩

/-- Settles O41: acceptance and a new `DS` change neither what the sequence plans nor how the outside meets it, so the run
is cut at the write or delay the reset answers. -/
theorem resetMayCutACommandAnywhere : Obligations.ResetMayCutACommandAnywhere := by
  intro s i ms k hseq
  constructor
  · intro d rest hdelays hanswers hk
    exact exec_resetWith hseq fun ds =>
      cutByReset_at_write (ms.flatMap expand) k (accept { s with ds := ds }) d rest hdelays hanswers hk
  · intro rest hanswers hdelays hk
    exact exec_resetWith hseq fun ds =>
      cutByReset_at_delay (ms.flatMap expand) k (accept { s with ds := ds }) rest hanswers hdelays hk

end Sys2Proof.Machine
end

section
/-! PROOFS. The statements of 30_encoding.md about the decoder and the encoder, and the seven LCD items. -/

namespace Sys2Proof

open Machine

/-! ### A byte as its fixed bits and its three flags (R13, R53) -/

/-- The bits of a display-control byte, from bit 0 up (R13). -/
theorem getLsbD_displayControlByte (fixed : BitVec 5) (on cursor blink : Bool) (i : Nat) :
    (displayControlByte fixed on cursor blink).getLsbD i =
      if i = 0 then blink else if i = 1 then cursor else if i = 2 then on else fixed.getLsbD (i - 3) := by
  rw [displayControlByte, BitVec.getLsbD_append, BitVec.getLsbD_append, BitVec.getLsbD_append]
  match i with
  | 0 | 1 | 2 => simp
  | i + 3 => simp

@[simp] theorem dsOn_displayControlByte (fixed : BitVec 5) (on cursor blink : Bool) :
    dsOn (displayControlByte fixed on cursor blink) = on := getLsbD_displayControlByte fixed on cursor blink 2

@[simp] theorem dsCur_displayControlByte (fixed : BitVec 5) (on cursor blink : Bool) :
    dsCur (displayControlByte fixed on cursor blink) = cursor := getLsbD_displayControlByte fixed on cursor blink 1

@[simp] theorem dsBlink_displayControlByte (fixed : BitVec 5) (on cursor blink : Bool) :
    dsBlink (displayControlByte fixed on cursor blink) = blink := getLsbD_displayControlByte fixed on cursor blink 0

@[simp] theorem dsFixed_displayControlByte (fixed : BitVec 5) (on cursor blink : Bool) :
    dsFixed (displayControlByte fixed on cursor blink) = fixed := by
  apply BitVec.eq_of_getLsbD_eq
  intro i hi
  rw [dsFixed, BitVec.getLsbD_extractLsb', getLsbD_displayControlByte, if_neg (by omega), if_neg (by omega),
    if_neg (by omega), Nat.add_sub_cancel_left, decide_eq_true hi, Bool.true_and]

/-- A byte is the display-control byte of its fixed bits and flags (R13). -/
theorem displayControlByte_flags (v : Byte) : displayControlByte (dsFixed v) (dsOn v) (dsCur v) (dsBlink v) = v := by
  apply BitVec.eq_of_getLsbD_eq
  intro i hi
  rw [getLsbD_displayControlByte]
  match i with
  | 0 | 1 | 2 => rfl
  | i + 3 => simp [dsFixed, show i < 5 by omega, Nat.add_comm]

/-- Two bytes with the same fixed bits and flags are equal. -/
theorem eq_displayControlByte {v : Byte} {fixed : BitVec 5} {on cursor blink : Bool} (h : dsFixed v = fixed)
    (h2 : dsOn v = on) (h1 : dsCur v = cursor) (h0 : dsBlink v = blink) :
    v = displayControlByte fixed on cursor blink := by
  rw [← h, ← h2, ← h1, ← h0, displayControlByte_flags]

/-- `DISPON` sets bit 2 and keeps the other seven (R102). -/
theorem dsTurnOn_eq (v : Byte) : dsTurnOn v = displayControlByte (dsFixed v) true (dsCur v) (dsBlink v) := by
  apply eq_displayControlByte
  · simp [dsTurnOn, dsFixed, BitVec.extractLsb'_or]
  · simp [dsTurnOn, dsOn]
  · simp [dsTurnOn, dsCur]
  · simp [dsTurnOn, dsBlink]

/-- `DISPOFF` clears bit 2 and keeps the other seven (R103). -/
theorem dsTurnOff_eq (v : Byte) : dsTurnOff v = displayControlByte (dsFixed v) false (dsCur v) (dsBlink v) := by
  have hfixed : dsFixed (~~~0x04#8) = BitVec.allOnes 5 := by decide
  apply eq_displayControlByte
  · rw [dsFixed, dsTurnOff, BitVec.extractLsb'_and]
    exact (congrArg (_ &&& ·) hfixed).trans BitVec.and_allOnes
  · simp [dsTurnOff, dsOn]
  · simp [dsTurnOff, dsCur]
  · simp [dsTurnOff, dsBlink]

/-- `CURMODE` writes bits 1:0 and keeps the other six (R104). -/
theorem dsCursorMode_eq (visible blink : Bool) (v : Byte) :
    dsCursorMode visible blink v = displayControlByte (dsFixed v) (dsOn v) visible blink := by
  have hfixed : dsFixed (v &&& ~~~0x03#8) = dsFixed v := by
    have hmask : dsFixed (~~~0x03#8) = BitVec.allOnes 5 := by decide
    rw [dsFixed, BitVec.extractLsb'_and]
    exact (congrArg (_ &&& ·) hmask).trans BitVec.and_allOnes
  apply eq_displayControlByte
  · rw [← hfixed]
    cases visible <;> cases blink <;> simp [dsCursorMode, dsFixed, BitVec.extractLsb'_or]
  · cases visible <;> cases blink <;> simp [dsCursorMode, dsOn]
  · cases visible <;> cases blink <;> simp [dsCursorMode, dsCur]
  · cases visible <;> cases blink <;> simp [dsCursorMode, dsBlink]

/-! ### Command words (R56 to R58) -/

/-- A command without operands decodes to its instruction when the operand fields are zero (R58). -/
theorem decodePlain_cmdWord (i : Instr) (op : Byte) : decodePlain i (cmdWord op 0#8 0#8 0#8) = .ok i := by
  simp [decodePlain]

/-- The two operand bits of `CURMODE` come back from their fields (R63). -/
theorem decodeCurmode_cmdWord (op : Byte) (v k : Bool) :
    decodeCurmode (cmdWord op (bitField v) (bitField k) 0#8) = .ok (.curmode v k) := by
  have hhigh (b : Bool) : (bitField b).extractLsb' 1 7 = 0 := by cases b <;> rfl
  have hlow (b : Bool) : (bitField b).getLsbD 0 = b := by cases b <;> rfl
  rw [decodeCurmode, fieldA_cmdWord, fieldB_cmdWord, fieldN_cmdWord, hlow, hlow]
  exact if_pos ⟨hhigh v, hhigh k, rfl⟩

/-! ### Command bytes (R53 to R55) -/

/-- A byte with bit 7 set is a 1 before its low seven bits (R54). -/
theorem one_append_of_getLsbD_seven {v : Byte} (h : v.getLsbD 7 = true) : 0b1#1 ++ v.extractLsb' 0 7 = v := by
  apply BitVec.eq_of_getLsbD_eq
  intro i hi
  rw [BitVec.getLsbD_append]
  have hbit : i < 7 ∨ i = 7 := by omega
  rcases hbit with hlow | rfl
  · simp [hlow]
  · simpa using h.symm

theorem decodeCommandByte_one_append (a : BitVec 7) :
    decodeCommandByte (0b1#1 ++ a) = .ok (.lcdSetCursorAddress a) := by
  have htop : (0b1#1 ++ a).getLsbD 7 = true := by rw [BitVec.getLsbD_append]; rfl
  rw [decodeCommandByte, if_pos htop, BitVec.extractLsb'_append_eq_right]

/-- Every byte accepted as an LCD command is the encoding of what it decodes to (R53, R54). -/
theorem encode_of_decodeCommandByte {v : Byte} {i : Instr} (h : decodeCommandByte v = .ok i) :
    i.wellFormed = true ∧ encode i = .byte false v := by
  unfold decodeCommandByte at h
  split_ifs at h with hcursor hfunction hdisplay hclear
  · cases h
    exact ⟨rfl, congrArg (Code.byte false) (one_append_of_getLsbD_seven hcursor)⟩
  · cases h
    rw [hfunction]
    exact ⟨rfl, rfl⟩
  · cases h
    have hbyte := displayControlByte_flags v
    rw [show dsFixed v = 0b00001#5 from hdisplay] at hbyte
    exact ⟨rfl, congrArg (Code.byte false) hbyte⟩
  · cases h
    rw [hclear]
    exact ⟨rfl, rfl⟩

theorem encode_of_decodeNibble {n : Nib} {i : Instr} (h : decodeNibble n = .ok i) :
    i.wellFormed = true ∧ encode i = .nib n := by
  unfold decodeNibble at h
  split_ifs at h with hwake hset
  · cases h
    rw [hwake]
    exact ⟨rfl, rfl⟩
  · cases h
    rw [hset]
    exact ⟨rfl, rfl⟩

/-! ### The decoder and the encoder -/

/-- Settles O18, instruction by instruction: a command word gives back its opcode and its operand fields, a byte its
fixed bits and flags. -/
theorem decodeInvertsEncode : Obligations.DecodeInvertsEncode := by
  intro i hwf
  cases i with
  | init | blon | bloff | dispon | dispoff | clear =>
    simp [encode, decode, decodeCommand, decodePlain_cmdWord]
  | curmode v k => simp [encode, decode, decodeCommand, decodeCurmode_cmdWord]
  | wrtext row col len =>
    have hlen : len < 256 := Nat.lt_succ_of_le (of_decide_eq_true hwf)
    simp [encode, decode, decodeCommand, Nat.mod_eq_of_lt hlen]
  | lcdWake | lcdSet4bit | lcdFunctionSet | lcdClearDisplay => rfl
  | lcdDisplayControl on cursor blink => revert on cursor blink; decide
  | lcdSetCursorAddress a => exact decodeCommandByte_one_append a
  | lcdCharacter c => rfl

/-- Settles O19, format by format. -/
theorem encodeInvertsDecode : Obligations.EncodeInvertsDecode := by
  intro c i h
  match c with
  | .cw w => exact encode_of_decodeCommand h
  | .nib n => exact encode_of_decodeNibble h
  | .byte false v => exact encode_of_decodeCommandByte h
  | .byte true v => cases h; exact ⟨rfl, rfl⟩

/-- Settles O17: the ten words and bytes, each evaluated. -/
theorem knownWordsDecode : Obligations.KnownWordsDecode := by
  unfold Obligations.KnownWordsDecode
  decide

end Sys2Proof

namespace Sys2Proof.Machine

/-! ### The items toward the LCD (R53) -/

/-- Settles O21: the bytes of the configuration are those of the table, so frame and encoding are the same code. -/
theorem itemFramesCarryTheirEncoding : Obligations.ItemFramesCarryTheirEncoding := by
  intro c i m hfunction hclear hdisplay hframe
  have hfixed : dsFixed c.cmdDisplayOn = 0b00001#5 := by rw [hdisplay]; rfl
  cases i with
  | init | blon | bloff | dispon | dispoff | curmode | clear | wrtext => cases hframe
  | lcdWake | lcdSet4bit => cases hframe; simp [encode, lcdWakeFrame, lcdSet4bitFrame]
  | lcdFunctionSet => cases hframe; simp [encode, lcdFunctionSetFrame, writeCmd, hfunction]
  | lcdClearDisplay => cases hframe; simp [encode, lcdClearDisplayFrame, writeCmd, hclear]
  | lcdDisplayControl on cursor blink =>
    cases hframe; simp [encode, lcdDisplayControlFrame, writeCmd, hfixed, displayControlByte]
  | lcdSetCursorAddress a => cases hframe; simp [encode, lcdSetCursorAddressFrame, writeCmd]
  | lcdCharacter ch => cases hframe; simp [encode, lcdCharacterFrame, writeChar]

/-- A command byte with the fixed bits of `CMD_DISPLAY_ON` is the frame of a display-control item (R53, R105). -/
theorem displayControl_isItem {c : Cfg} {v : Byte} (h : dsFixed v = dsFixed c.cmdDisplayOn) :
    ∃ j, itemFrame c j = some (writeCmd v) :=
  ⟨.lcdDisplayControl (dsOn v) (dsCur v) (dsBlink v), by
    rw [itemFrame, lcdDisplayControlFrame, ← h, displayControlByte_flags]⟩

/-- A cursor position is the frame of a set-cursor-address item (R54, R108). -/
theorem setCursorPosition_isItem (c : Cfg) (row col : Byte) : ∃ j, itemFrame c j = some (setCursorPosition row col) :=
  ⟨.lcdSetCursorAddress ((cursorAddress row col).setWidth 7), by
    rw [setCursorPosition, cursorCommand_eq_append]; rfl⟩

/-- Every frame of `INIT` is the frame of an item (R91 to R95). -/
theorem initProgram_isItem (c : Cfg) {m : Micro} (hm : m ∈ initProgram c) (hframe : ∀ p, m ≠ .prim p) :
    ∃ j, itemFrame c j = some m := by
  simp only [initProgram, setRW, asMicros, List.map_cons, List.map_nil, List.cons_append, List.nil_append,
    List.mem_cons, List.not_mem_nil, or_false, hframe, false_or] at hm
  rcases hm with rfl | rfl | rfl | rfl | rfl | rfl | rfl
  · exact ⟨.lcdWake, rfl⟩
  · exact ⟨.lcdWake, rfl⟩
  · exact ⟨.lcdWake, rfl⟩
  · exact ⟨.lcdSet4bit, rfl⟩
  · exact ⟨.lcdFunctionSet, rfl⟩
  · exact ⟨.lcdClearDisplay, rfl⟩
  · exact displayControl_isItem rfl

/-- Settles O20: the display commands send `DS`, whose fixed bits the invariant ties to `CMD_DISPLAY_ON`. -/
theorem onlyTheSevenItemsAreSent : Obligations.OnlyTheSevenItemsAreSent := by
  intro s i ms hinv hseq m hm hframe
  have hdisplay (f : Byte → Byte) (hf : dsFixed (f s.ds) = dsFixed s.ds)
      (hms : (if s.dsv then some [writeCmd (f s.ds)] else none) = some ms) : ∃ j, itemFrame s.cfg j = some m := by
    obtain ⟨hdsv, hms⟩ := Option.ite_none_right_eq_some.1 hms
    obtain rfl := Option.some.inj hms
    obtain rfl := List.mem_singleton.1 hm
    exact displayControl_isItem (hf.trans (hinv.ds_fixed hdsv))
  cases i with
  | init =>
    obtain rfl := Option.some.inj hseq
    exact initProgram_isItem s.cfg hm hframe
  | blon | bloff =>
    obtain rfl := Option.some.inj hseq
    obtain ⟨p, -, rfl⟩ := List.mem_map.1 hm
    exact absurd rfl (hframe p)
  | dispon => exact hdisplay dsTurnOn (by rw [dsTurnOn_eq, dsFixed_displayControlByte]) hseq
  | dispoff => exact hdisplay dsTurnOff (by rw [dsTurnOff_eq, dsFixed_displayControlByte]) hseq
  | curmode v k => exact hdisplay (dsCursorMode v k) (by rw [dsCursorMode_eq, dsFixed_displayControlByte]) hseq
  | clear =>
    obtain rfl := Option.some.inj hseq
    simp only [List.mem_cons, List.not_mem_nil, or_false, hframe] at hm
    exact ⟨.lcdClearDisplay, congrArg some hm.symm⟩
  | wrtext row col len =>
    obtain rfl := Option.some.inj hseq
    rcases List.mem_cons.1 hm with rfl | htext
    · exact setCursorPosition_isItem s.cfg row col
    · obtain ⟨b, -, rfl⟩ := List.mem_map.1 htext
      exact ⟨.lcdCharacter b, rfl⟩
  | lcdWake | lcdSet4bit | lcdFunctionSet | lcdClearDisplay | lcdDisplayControl | lcdSetCursorAddress | lcdCharacter =>
    cases hseq

end Sys2Proof.Machine
end

section
/-! PROOFS. What one action does to the state, and what a run of any length then keeps, said once: a law of single actions is
a law of every list, frame, sequence, instruction and step built from them. -/

namespace Sys2Proof.Machine

/-! ### One contact with the outside (R31, R143, R160) -/

/-- `t` is what a write or a delay, however it is met, makes of `s`: the registers stand, the answers are used up from
the front, the lines are as before or those of `OR`, and at most one event is added. -/
structure Contact (s t : State) : Prop where
  only : t = { s with xp := t.xp, latched := t.latched, trace := t.trace, txAnswers := t.txAnswers,
                      delayAnswers := t.delayAnswers }
  tx : t.txAnswers <:+ s.txAnswers
  delay : t.delayAnswers <:+ s.delayAnswers
  lines : (t.xp = s.xp ∧ t.latched = s.latched) ∨
    (t.xp = s.or ∧ t.latched = s.latched ++ latchEdge s.cfg.pins s.xp s.or)
  trace : ∃ es, t.trace = s.trace ++ es ∧ ∀ b ∈ eventBytes es, b = s.or

theorem Contact.cfg {s t : State} (h : Contact s t) : t.cfg = s.cfg := by rw [h.only]
theorem Contact.or {s t : State} (h : Contact s t) : t.or = s.or := by rw [h.only]
theorem Contact.ds {s t : State} (h : Contact s t) : t.ds = s.ds := by rw [h.only]
theorem Contact.dsv {s t : State} (h : Contact s t) : t.dsv = s.dsv := by rw [h.only]
theorem Contact.fsm {s t : State} (h : Contact s t) : t.fsm = s.fsm := by rw [h.only]

theorem commit_contact (s : State) : Contact s (resState (commit s)) := by
  rw [commit_eq]
  rcases hs : s.txAnswers with _ | ⟨a, as⟩
  · exact ⟨rfl, by simp [hs], List.suffix_refl _, .inr ⟨rfl, rfl⟩, _, rfl, by simp [eventBytes]⟩
  · have htail : as <:+ s.txAnswers := hs ▸ List.suffix_cons a as
    have hkeep (es : List Event) (hes : ∀ b ∈ eventBytes es, b = s.or) (d : Bool) :
        Contact s { deliverIf d s.or { s with txAnswers := as } with trace := s.trace ++ es } := by
      cases d with
      | false => exact ⟨rfl, htail, List.suffix_refl _, .inl ⟨rfl, rfl⟩, es, rfl, hes⟩
      | true => exact ⟨rfl, htail, List.suffix_refl _, .inr ⟨rfl, rfl⟩, es, rfl, hes⟩
    cases a with
    | done => exact hkeep [.tx s.or] (by simp [eventBytes]) true
    | err d => simpa [record] using hkeep [.txFail s.or] (by simp [eventBytes]) d
    | pending => exact ⟨rfl, htail, List.suffix_refl _, .inl ⟨rfl, rfl⟩, [], (List.append_nil _).symm, by simp [eventBytes]⟩
    | never => exact ⟨rfl, List.suffix_refl _, List.suffix_refl _, .inl ⟨rfl, rfl⟩, [], (List.append_nil _).symm,
        by simp [eventBytes]⟩
    | reset d =>
      have h := hkeep [] (by simp [eventBytes]) d
      cases d <;> simpa [deliverIf, deliver] using h

theorem waitDelay_contact (x : Nat) (s : State) : Contact s (resState (waitDelay x s)) := by
  rw [waitDelay]
  rcases hs : s.delayAnswers with _ | ⟨a, as⟩
  · exact ⟨rfl, List.suffix_refl _, by simp [hs], .inl ⟨rfl, rfl⟩, [.delay x], rfl, by simp [eventBytes]⟩
  · have htail : as <:+ s.delayAnswers := hs ▸ List.suffix_cons a as
    cases a with
    | elapsed => exact ⟨rfl, List.suffix_refl _, htail, .inl ⟨rfl, rfl⟩, [.delay x], rfl, by simp [eventBytes]⟩
    | pending | reset => exact ⟨rfl, List.suffix_refl _, htail, .inl ⟨rfl, rfl⟩, [], (List.append_nil _).symm,
        by simp [eventBytes]⟩
    | never => exact ⟨rfl, List.suffix_refl _, List.suffix_refl _, .inl ⟨rfl, rfl⟩, [], (List.append_nil _).symm,
        by simp [eventBytes]⟩

/-- An action that has to wait is itself what is left to do (R127, R162). -/
theorem runPrim_held {p : Prim} {s t : State} {rem : List Prim} (h : runPrim p s = .held rem t) : rem = [p] := by
  cases p with
  | commit => simp only [runPrim, commit_eq] at h; split at h <;> cases h <;> rfl
  | delay x => simp only [runPrim, waitDelay] at h; split at h <;> cases h <;> rfl
  | drive | driveData | fsm | baseline => cases h

/-- An action uses up answers from the front of the two lists. -/
theorem runPrim_answers (p : Prim) (s : State) :
    (resState (runPrim p s)).txAnswers <:+ s.txAnswers ∧ (resState (runPrim p s)).delayAnswers <:+ s.delayAnswers := by
  cases p with
  | commit => exact ⟨(commit_contact s).tx, (commit_contact s).delay⟩
  | delay x => exact ⟨(waitDelay_contact x s).tx, (waitDelay_contact x s).delay⟩
  | drive | driveData | fsm | baseline => exact ⟨List.suffix_refl _, List.suffix_refl _⟩

/-! ### The actions of a frame (R80, R81) -/

/-- An action of a frame writes `OR` or transmits it. -/
def isFrameAction : Prim → Bool
  | .drive _ _ => true
  | .driveData _ => true
  | .commit => true
  | .delay _ => false
  | .fsm _ => false
  | .baseline _ => false

theorem isFrameAction_of_expand {m : Micro} (hm : ∀ p, m ≠ .prim p) : ∀ p ∈ expand m, isFrameAction p = true := by
  cases m with
  | prim p => exact absurd rfl (hm p)
  | nibble n => simp [expand, sendNibble, setE, setDataNibble, isFrameAction]
  | byte d v => simp [expand, writeByte, setRS, sendNibble, setE, setDataNibble, isFrameAction]

/-! ### The next element of a command in progress, case by case (R22, R117) -/

theorem advance_of_idle {s : State} (h : s.seq = .idle) : advance s = s := by simp [advance, h]

theorem advance_of_cons {s : State} {m : Micro} {ms : List Micro} {n : Nat} (h : s.seq = .run (m :: ms) n) :
    advance s = perform m { s with seq := .run ms n } := by simp [advance, h]

theorem advance_of_done {s : State} (h : s.seq = .run [] 0) : advance s = complete .ok s := by simp [advance, h]

theorem advance_of_char {s : State} {n : Nat} {b : Byte} {bs : List Byte} (h : s.seq = .run [] (n + 1))
    (htxt : s.txt = b :: bs) : advance s = perform (writeChar b) { s with txt := bs, seq := .run [] n } := by
  simp [advance, h, htxt]

theorem advance_of_wait {s : State} {n : Nat} (h : s.seq = .run [] (n + 1)) (htxt : s.txt = []) : advance s = s := by
  simp [advance, h, htxt]

theorem advance_of_drain {s : State} {n : Nat} (h : s.seq = .drain n) : advance s = drainText n s := by
  simp [advance, h]

/-! ### A law of single actions is a law of runs (R22, R37) -/

/-- What a result satisfies: `I` when all was done or it waits, `E` after a failed write; a reset says nothing. -/
def Meets (I E : State → Prop) : Res → Prop
  | .fin t => I t
  | .err t => E t
  | .held _ t => I t
  | .rst _ => True

/-- A law of runs: `I` holds while a run goes on and `E` after its failed write; every end of the run has `J`. `P` says of
which actions the run may consist. -/
structure RunLaw (P : Prim → Prop) (I E J : State → Prop) : Prop where
  prim : ∀ p s, P p → I s → Meets I E (runPrim p s)
  txt : ∀ s bs, I s → I { s with txt := bs }
  seq : ∀ s q, I s → I { s with seq := q }
  failTxt : ∀ s bs, E s → E { s with txt := bs }
  hold : ∀ s q, I s → J { s with busy := true, seq := q }
  stop : ∀ s, I s → J s
  ok : ∀ s, I s → J (complete .ok s)
  failed : ∀ s, E s → J (raise .transportError s)
  drain : ∀ s n, E s → J { s with busy := true, seq := .drain (n + 1) }

/-- A predicate that every action keeps, and that does not speak of what the end of a run writes. -/
theorem RunLaw.of_kept {P : Prim → Prop} {I : State → Prop}
    (hprim : ∀ p s, P p → I s → I (resState (runPrim p s)))
    (hctl : ∀ (s : State) b c q bs, I s → I { s with busy := b, status := c, seq := q, txt := bs }) :
    RunLaw P I I I where
  prim p s hp hs := by
    have h := hprim p s hp hs
    cases hr : runPrim p s with
    | fin t | err t | held rem t => rw [hr] at h; exact h
    | rst t => trivial
  txt s bs h := hctl s s.busy s.status s.seq bs h
  seq s q h := hctl s s.busy s.status q s.txt h
  failTxt s bs h := hctl s s.busy s.status s.seq bs h
  hold s q h := hctl s true s.status q s.txt h
  stop _ h := h
  ok s h := hctl s false .ok .idle s.txt h
  failed s h := hctl s false .transportError .idle s.txt h
  drain s n h := hctl s true s.status (.drain (n + 1)) s.txt h

/-- Short of a reset among the answers, a run uses up answers and meets no reset. -/
theorem runPrims_noReset (ps : List Prim) {s : State} (h : NoReset s) :
    NoReset (resState (runPrims ps s)) ∧ ∀ t, runPrims ps s ≠ .rst t := by
  constructor
  · induction ps generalizing s with
    | nil => exact h
    | cons p ps ih =>
      obtain ⟨htx, hdelay⟩ := runPrim_answers p s
      have hp := h.of_subset htx.subset hdelay.subset
      rw [runPrims]
      cases hr : runPrim p s with
      | fin t => rw [hr] at hp; exact ih hp
      | err t | held rem t | rst t => rw [hr] at hp; exact hp
  · intro t hrst
    have hcases := runPrims_cases ps s
    rw [hrst] at hcases
    rcases hcases with htx | htx | hdelay
    · exact h.1 _ htx true rfl
    · exact h.1 _ htx false rfl
    · exact h.2 _ hdelay rfl

namespace RunLaw

variable {P : Prim → Prop} {I E J : State → Prop}

theorem runPrims (law : RunLaw P I E J) (ps : List Prim) (hps : ∀ p ∈ ps, P p) {s : State} (h : I s) :
    Meets I E (Machine.runPrims ps s) := by
  induction ps generalizing s with
  | nil => exact h
  | cons p ps ih =>
    have hp := law.prim p s (hps p List.mem_cons_self) h
    rw [Machine.runPrims]
    cases hr : runPrim p s with
    | fin t => rw [hr] at hp; exact ih (fun q hq => hps q (List.mem_cons_of_mem _ hq)) hp
    | err t | held rem t | rst t => rw [hr] at hp; exact hp

theorem drainText (law : RunLaw P I E J) (n : Nat) {s : State} (h : E s) : J (Machine.drainText n s) := by
  rw [drainText_spec]
  split
  · exact law.failed _ (law.failTxt s _ h)
  next hn =>
    obtain ⟨k, hk⟩ := Nat.exists_eq_succ_of_ne_zero (Nat.sub_ne_zero_of_lt (Nat.lt_of_not_le hn))
    have hdrain := law.drain { s with txt := [] } k (law.failTxt s [] h)
    rw [hk]
    exact hdrain

/-- The end of an element has `J` when what comes after it does. -/
theorem conclude (law : RunLaw P I E J) (ms : List Micro) (n : Nat) {k : State → State}
    (hk : ∀ t, NoReset t → I t → J (k t)) (m : Micro) (hm : ∀ p ∈ expand m, P p) {s : State} (hnr : NoReset s)
    (h : I s) : J (Machine.conclude ms n k (runMicro m s)) := by
  have hmeets : Meets I E (runMicro m s) := law.runPrims (expand m) hm h
  obtain ⟨hnr', hrst⟩ := runPrims_noReset (expand m) hnr
  rw [runMicro] at *
  cases hr : Machine.runPrims (expand m) s with
  | fin t => rw [hr] at hmeets hnr'; exact hk t hnr' hmeets
  | err t => rw [hr] at hmeets; exact law.drainText n hmeets
  | held rem t => rw [hr] at hmeets; exact law.hold t _ hmeets
  | rst t => exact absurd hr (hrst t)

theorem runText (law : RunLaw P I E J) (n : Nat) (hchar : n ≠ 0 → ∀ b, ∀ p ∈ writeByte true b, P p) {s : State}
    (hnr : NoReset s) (h : I s) : J (Machine.runText n s) := by
  induction n generalizing s with
  | zero => exact law.ok s h
  | succ n ih =>
    rw [Machine.runText]
    split
    · exact law.stop _ (law.seq s _ h)
    next b bs _ =>
      have hnr' : NoReset { s with txt := bs } := hnr
      have hall := hchar (Nat.succ_ne_zero n)
      exact law.conclude [] n (fun _ => ih fun _ => hall) (writeChar b) (hall b) hnr' (law.txt s bs h)

theorem runOps (law : RunLaw P I E J) (ms : List Micro) (hms : ∀ p ∈ ms.flatMap expand, P p) (n : Nat)
    (hchar : n ≠ 0 → ∀ b, ∀ p ∈ writeByte true b, P p) {s : State} (hnr : NoReset s) (h : I s) :
    J (Machine.runOps ms n s) := by
  induction ms generalizing s with
  | nil => exact law.runText n hchar hnr h
  | cons m ms ih =>
    rw [List.flatMap_cons, List.forall_mem_append] at hms
    exact law.conclude ms n (fun _ => ih hms.2) m hms.1 hnr h

theorem perform (law : RunLaw P I E J) (m : Micro) (hm : ∀ p ∈ expand m, P p) {s : State} (hnr : NoReset s)
    (h : I s) : J (Machine.perform m s) :=
  law.conclude _ _ (fun t _ ht => law.stop t ht) m hm hnr h

/-- One element of a command in progress: only the actions of the element at the head of `SEQ`, or of a character, are
done; a block that discards text must have `E`, since its write has failed (R117). -/
theorem advance (law : RunLaw P I E J) (hchar : ∀ b, ∀ p ∈ writeByte true b, P p) {s : State}
    (hhead : ∀ m ms n, s.seq = .run (m :: ms) n → ∀ p ∈ expand m, P p) (hdrain : ∀ n, s.seq = .drain n → E s)
    (hnr : NoReset s) (h : I s) : J (Machine.advance s) := by
  unfold Machine.advance
  split
  · exact law.stop s h
  next m ms n hseq =>
    have hnr' : NoReset { s with seq := .run ms n } := hnr
    exact law.perform m (hhead m ms n hseq) hnr' (law.seq s _ h)
  · exact law.ok s h
  next n _ =>
    split
    · exact law.stop s h
    next b bs _ =>
      have hnr' : NoReset { s with txt := bs, seq := .run [] n } := hnr
      exact law.perform (writeChar b) (hchar b) hnr' (law.seq _ _ (law.txt s bs h))
  next n hseq => exact law.drainText n (hdrain n hseq)

end RunLaw

end Sys2Proof.Machine
end

section
/-! PROOFS. The invariant of 10_state.md sections 2 and 5: what the registers keep while a sequence runs, and what is legal
to be still pending. -/

namespace Sys2Proof.Machine

/-! ### The part of the invariant that holds while a run goes on -/

/-- The clauses of `Inv` about the registers a run writes (R13, R72, R95). -/
structure RegsInv (s : State) : Prop where
  ds_fixed : s.dsv = true → dsFixed s.ds = dsFixed s.cfg.cmdDisplayOn
  rw_low : line s.cfg.pins .rw s.or = true → line s.cfg.pins .rw s.cfg.orReset = true
  ready_dsv : s.fsm = .ready → s.dsv = true

theorem Inv.regs {s : State} (h : Inv s) : RegsInv s := ⟨h.ds_fixed, h.rw_low, h.ready_dsv⟩

/-- A block that has finished a command, or has none, needs the registers' clauses alone. -/
theorem RegsInv.inv_of_idle {s : State} (h : RegsInv s) (hidle : Idle s) : Inv s := by
  obtain ⟨hbusy, hseq⟩ := hidle
  exact ⟨by simp [hbusy, hseq], h.ds_fixed, h.rw_low, h.ready_dsv, by simp [hseq, Seq.chars], by
    simp [hseq, Seq.ops, seqLegal]⟩

/-- A command in progress needs them, a legal sequence and a bounded text. -/
theorem RegsInv.inv_of_run {s : State} (h : RegsInv s) (hbusy : s.busy = true) {ms : List Micro} {n : Nat}
    (hseq : s.seq = .run ms n) (hn : n ≤ Config.textMax) (hlegal : seqLegal s.cfg s.dsv ms = true) : Inv s :=
  ⟨by simp [hbusy, hseq], h.ds_fixed, h.rw_low, h.ready_dsv, by simpa [hseq, Seq.chars] using hn, by
    simpa [hseq, Seq.ops] using hlegal⟩

/-- A reset restores the invariant from any state (R26, R142). -/
theorem inv_doReset (s : State) : Inv (doReset s) := by
  have hregs : RegsInv (doReset s) := ⟨fun h => by simp at h, fun h => h, fun h => by simp at h⟩
  exact hregs.inv_of_idle ⟨rfl, rfl⟩

/-- A contact with the outside writes none of these registers. -/
theorem RegsInv.of_contact {s t : State} (h : RegsInv s) (hc : Contact s t) : RegsInv t := by
  rw [hc.only]
  exact ⟨h.ds_fixed, h.rw_low, h.ready_dsv⟩

/-! ### Legal sequences (R72, R95) -/

theorem asMicros_append (ps qs : List Prim) : asMicros (ps ++ qs) = asMicros ps ++ asMicros qs := List.map_append

/-- A frame's actions are legal wherever the frame is: none of them drives RW or writes `FSM` or `DS`. -/
theorem seqLegal_expand (c : Cfg) (v : Bool) (m : Micro) (ms : List Micro) :
    seqLegal c v (asMicros (expand m) ++ ms) = seqLegal c v (m :: ms) := by
  cases m with
  | prim p => rfl
  | nibble n => simp [expand, sendNibble, setE, setDataNibble, asMicros, seqLegal]
  | byte d x => simp [expand, writeByte, setRS, sendNibble, setE, setDataNibble, asMicros, seqLegal]

theorem seqLegal_initProgram (c : Cfg) (v : Bool) : seqLegal c v (initProgram c) = true := by
  simp [initProgram, seqLegal, asMicros, setRW, lcdWakeFrame, lcdSet4bitFrame, lcdFunctionSetFrame,
    lcdClearDisplayFrame, writeCmd]

/-! ### Runs of a legal sequence -/

/-- A result that keeps the registers' clauses and leaves, with `ms` to follow, a legal rest. -/
def KeepsLegal (ms : List Micro) : Res → Prop
  | .fin t => RegsInv t ∧ seqLegal t.cfg t.dsv ms = true
  | .err t => RegsInv t
  | .held rem t => RegsInv t ∧ seqLegal t.cfg t.dsv (asMicros rem ++ ms) = true
  | .rst _ => True

/-- A contact of an action `p` that the legality of what follows does not depend on. -/
theorem keepsLegal_of_contact {p : Prim} {s : State} {ms : List Micro} (h : RegsInv s)
    (hp : seqLegal s.cfg s.dsv (.prim p :: ms) = seqLegal s.cfg s.dsv ms) (hlegal : seqLegal s.cfg s.dsv ms = true)
    (hc : Contact s (resState (runPrim p s))) : KeepsLegal ms (runPrim p s) := by
  have hregs := h.of_contact hc
  have hcfg := hc.cfg
  have hdsv := hc.dsv
  cases hr : runPrim p s with
  | fin t =>
    simp only [hr, resState_fin] at hregs hcfg hdsv
    exact ⟨hregs, by rw [hcfg, hdsv, hlegal]⟩
  | err t => rw [hr] at hregs; exact hregs
  | held rem t =>
    simp only [hr, resState_held] at hregs hcfg hdsv
    rw [runPrim_held hr]
    exact ⟨hregs, by rw [hcfg, hdsv]; exact hp.trans hlegal⟩
  | rst t => trivial

/-- RW stays low unless `OR_RESET` has it high: the one update of it that is legal clears it (R72). -/
theorem driven_rw_low {p : PinMap} {r o : Byte} (h : line p .rw o = true → line p .rw r = true) {sig : Signal}
    {level : Bool} (hsig : sig ≠ .rw ∨ level = false) (hp : p.ok = true) :
    line p .rw (driven p sig level o) = true → line p .rw r = true := by
  rw [line_driven p hp]
  split
  next heq =>
    obtain hne | rfl := hsig
    · exact absurd heq.symm hne
    · simp
  next => exact h

theorem runPrim_keepsLegal (p : Prim) {s : State} {ms : List Micro} (hpins : s.cfg.pins.ok = true) (h : RegsInv s)
    (hlegal : seqLegal s.cfg s.dsv (.prim p :: ms) = true) : KeepsLegal ms (runPrim p s) := by
  cases p with
  | commit => exact keepsLegal_of_contact (p := .commit) h rfl hlegal (commit_contact s)
  | delay x => exact keepsLegal_of_contact (p := .delay x) h rfl hlegal (waitDelay_contact x s)
  | drive sig level =>
    simp only [seqLegal, Bool.and_eq_true, Bool.or_eq_true, decide_eq_true_eq, Bool.not_eq_true'] at hlegal
    obtain ⟨hsig, hrest⟩ := hlegal
    exact ⟨⟨h.ds_fixed, driven_rw_low h.rw_low hsig hpins, h.ready_dsv⟩, hrest⟩
  | driveData n =>
    have hline := line_drivenData_of_not_data s.cfg.pins hpins (sig := .rw) (by decide) n s.or
    exact ⟨⟨h.ds_fixed, fun hrw => h.rw_low (hline.symm.trans hrw), h.ready_dsv⟩, hlegal⟩
  | fsm f =>
    simp only [seqLegal, Bool.and_eq_true, Bool.or_eq_true, decide_eq_true_eq] at hlegal
    obtain ⟨hf, hrest⟩ := hlegal
    exact ⟨⟨h.ds_fixed, h.rw_low, fun hready => hf.resolve_left fun hne => hne hready⟩, hrest⟩
  | baseline v =>
    simp only [seqLegal, Bool.and_eq_true, decide_eq_true_eq] at hlegal
    obtain ⟨rfl, hrest⟩ := hlegal
    exact ⟨⟨fun _ => rfl, h.rw_low, fun _ => rfl⟩, hrest⟩

theorem runPrims_keepsLegal (ps : List Prim) {s : State} {ms : List Micro} (hpins : s.cfg.pins.ok = true)
    (h : RegsInv s) (hlegal : seqLegal s.cfg s.dsv (asMicros ps ++ ms) = true) : KeepsLegal ms (runPrims ps s) := by
  induction ps generalizing s with
  | nil => exact ⟨h, hlegal⟩
  | cons p ps ih =>
    have hp := runPrim_keepsLegal p (ms := asMicros ps ++ ms) hpins h hlegal
    obtain ⟨hcfg, -⟩ := runPrim_frame p s
    rw [runPrims]
    cases hr : runPrim p s with
    | fin t =>
      rw [hr] at hp hcfg
      obtain ⟨ht, hrest⟩ := hp
      exact ih (by rw [← hpins]; exact congrArg (·.pins.ok) hcfg) ht hrest
    | err t => rw [hr] at hp; exact hp
    | held rem t =>
      rw [hr] at hp
      simpa only [KeepsLegal, asMicros_append, List.append_assoc] using hp
    | rst t => trivial

theorem drainText_inv {n : Nat} {s : State} (h : RegsInv s) (hn : n ≤ Config.textMax) : Inv (drainText n s) := by
  rw [drainText_spec]
  split
  · have hregs : RegsInv (raise .transportError { s with txt := s.txt.drop n }) := ⟨h.1, h.2, h.3⟩
    exact hregs.inv_of_idle ⟨rfl, rfl⟩
  · exact ⟨by simp, h.ds_fixed, h.rw_low, h.ready_dsv, (Nat.sub_le _ _).trans hn, rfl⟩

/-- The end of an element keeps the invariant when what comes after it does, from a legal rest. -/
theorem conclude_inv {m : Micro} {ms : List Micro} {n : Nat} {k : State → State} {s : State}
    (hpins : s.cfg.pins.ok = true) (h : RegsInv s) (hlegal : seqLegal s.cfg s.dsv (m :: ms) = true)
    (hn : n ≤ Config.textMax)
    (hk : ∀ t, t.cfg = s.cfg → t.busy = s.busy → t.seq = s.seq → RegsInv t → seqLegal t.cfg t.dsv ms = true → Inv (k t)) :
    Inv (conclude ms n k (runMicro m s)) := by
  obtain ⟨hcfg, -, -, -, hbusy, -, hseq⟩ := runPrims_frame (expand m) s
  have hkeeps := runPrims_keepsLegal (expand m) (ms := ms) hpins h ((seqLegal_expand s.cfg s.dsv m ms).trans hlegal)
  rw [runMicro]
  cases hr : runPrims (expand m) s with
  | fin t =>
    rw [hr] at hkeeps hcfg hbusy hseq
    obtain ⟨ht, hrest⟩ := hkeeps
    exact hk t hcfg hbusy hseq ht hrest
  | err t => rw [hr] at hkeeps; exact drainText_inv hkeeps hn
  | held rem t =>
    rw [hr] at hkeeps
    obtain ⟨ht, hrest⟩ := hkeeps
    have hregs : RegsInv { t with busy := true, seq := .run (asMicros rem ++ ms) n } := ⟨ht.1, ht.2, ht.3⟩
    exact hregs.inv_of_run rfl rfl hn hrest
  | rst t => exact inv_doReset t

theorem runText_inv {n : Nat} {s : State} (hpins : s.cfg.pins.ok = true) (hbusy : s.busy = true) (h : RegsInv s)
    (hn : n ≤ Config.textMax) : Inv (runText n s) := by
  induction n generalizing s with
  | zero =>
    have hregs : RegsInv (complete .ok s) := ⟨h.1, h.2, h.3⟩
    exact hregs.inv_of_idle ⟨rfl, rfl⟩
  | succ n ih =>
    rw [runText]
    split
    · have hregs : RegsInv { s with seq := .run [] (n + 1) } := ⟨h.1, h.2, h.3⟩
      exact hregs.inv_of_run hbusy rfl hn rfl
    next b bs _ =>
      have hregs : RegsInv { s with txt := bs } := ⟨h.1, h.2, h.3⟩
      refine conclude_inv (s := { s with txt := bs }) hpins hregs rfl (Nat.le_of_succ_le hn) ?_
      intro t hcfg hb _ ht _
      exact ih (by rw [hcfg]; exact hpins) (hb.trans hbusy) ht (Nat.le_of_succ_le hn)

theorem runOps_inv {ms : List Micro} {n : Nat} {s : State} (hpins : s.cfg.pins.ok = true) (hbusy : s.busy = true)
    (h : RegsInv s) (hlegal : seqLegal s.cfg s.dsv ms = true) (hn : n ≤ Config.textMax) : Inv (runOps ms n s) := by
  induction ms generalizing s with
  | nil => exact runText_inv hpins hbusy h hn
  | cons m ms ih =>
    refine conclude_inv hpins h hlegal hn ?_
    intro t hcfg hb _ ht hrest
    exact ih (by rw [hcfg]; exact hpins) (hb.trans hbusy) ht hrest

theorem runCommand_inv {ms : List Micro} {n : Nat} {s : State} (hpins : s.cfg.pins.ok = true) (h : RegsInv s)
    (hlegal : seqLegal s.cfg s.dsv ms = true) (hn : n ≤ Config.textMax) : Inv (runCommand ms n s) := by
  have hregs : RegsInv (accept s) := ⟨h.1, h.2, h.3⟩
  exact runOps_inv (s := accept s) hpins rfl hregs hlegal hn

/-- One element done by itself, its rest in `SEQ`, when the two together are legal. -/
theorem perform_inv {m : Micro} {s : State} (hpins : s.cfg.pins.ok = true) (h : RegsInv s)
    (hbusy : s.busy = true ↔ s.seq ≠ .idle) (hn : s.seq.chars ≤ Config.textMax)
    (hlegal : seqLegal s.cfg s.dsv (m :: s.seq.ops) = true) : Inv (perform m s) := by
  refine conclude_inv hpins h hlegal hn ?_
  intro t _ hb hseq ht hrest
  rw [← hb, ← hseq] at hbusy
  rw [← hseq] at hn hrest
  exact ⟨hbusy, ht.1, ht.2, ht.3, hn, hrest⟩

/-! ### Instructions and steps -/

theorem sendDisplayState_inv {f : Byte → Byte} {s : State} (hf : dsFixed (f s.ds) = dsFixed s.ds)
    (hpins : s.cfg.pins.ok = true) (h : Inv s) : Inv (sendDisplayState f s) := by
  cases hdsv : s.dsv with
  | false =>
    rw [sendDisplayState_unwritten f hdsv]
    have hregs : RegsInv (raise .dsUnwritten s) := ⟨h.ds_fixed, h.rw_low, h.ready_dsv⟩
    exact hregs.inv_of_idle ⟨rfl, rfl⟩
  | true =>
    rw [sendDisplayState_written f hdsv]
    have hregs : RegsInv { s with ds := f s.ds } := ⟨fun hv => hf.trans (h.ds_fixed hv), h.rw_low, h.ready_dsv⟩
    exact runCommand_inv (s := { s with ds := f s.ds }) hpins hregs rfl (Nat.zero_le _)

/-- Every well-formed instruction keeps the invariant; the bound on its text is the one WRTEXT needs (R65). -/
theorem exec_inv {i : Instr} {s t : State} (hwf : i.wellFormed = true) (hpins : s.cfg.pins.ok = true) (h : Inv s)
    (he : exec i s = .next t) : Inv t := by
  cases i with
  | init => cases he; exact runCommand_inv hpins h.regs (seqLegal_initProgram _ _) (Nat.zero_le _)
  | blon | bloff => cases he; exact runCommand_inv hpins h.regs rfl (Nat.zero_le _)
  | dispon => cases he; exact sendDisplayState_inv (by rw [dsTurnOn_eq, dsFixed_displayControlByte]) hpins h
  | dispoff => cases he; exact sendDisplayState_inv (by rw [dsTurnOff_eq, dsFixed_displayControlByte]) hpins h
  | curmode v k => cases he; exact sendDisplayState_inv (by rw [dsCursorMode_eq, dsFixed_displayControlByte]) hpins h
  | clear => cases he; exact runCommand_inv hpins h.regs rfl (Nat.zero_le _)
  | wrtext row col len => cases he; exact runCommand_inv hpins h.regs rfl (of_decide_eq_true hwf)
  | lcdWake | lcdSet4bit | lcdFunctionSet | lcdClearDisplay | lcdDisplayControl | lcdSetCursorAddress | lcdCharacter =>
    cases he; exact perform_inv hpins h.regs h.busy_iff h.chars_le h.seq_legal

/-- The next element of a command in progress keeps the invariant. -/
theorem advance_inv {s : State} (hpins : s.cfg.pins.ok = true) (h : Inv s) (hbusy : s.busy = true) :
    Inv (advance s) := by
  have hchars := h.chars_le
  have hlegal := h.seq_legal
  unfold advance
  split
  · exact h
  next m ms n hseq =>
    rw [hseq] at hchars hlegal
    have hregs : RegsInv { s with seq := .run ms n } := ⟨h.ds_fixed, h.rw_low, h.ready_dsv⟩
    exact perform_inv (s := { s with seq := .run ms n }) hpins hregs (by simp [hbusy]) hchars hlegal
  · have hregs : RegsInv (complete .ok s) := ⟨h.ds_fixed, h.rw_low, h.ready_dsv⟩
    exact hregs.inv_of_idle ⟨rfl, rfl⟩
  next n hseq =>
    split
    · exact h
    next b bs _ =>
      rw [hseq] at hchars
      have hregs : RegsInv { s with txt := bs, seq := .run [] n } := ⟨h.ds_fixed, h.rw_low, h.ready_dsv⟩
      exact perform_inv (s := { s with txt := bs, seq := .run [] n }) hpins hregs (by simp [hbusy])
        (Nat.le_of_succ_le hchars) rfl
  next n hseq =>
    rw [hseq] at hchars
    exact drainText_inv h.regs hchars

/-- Settles O45: construction leaves an idle block with `OR_RESET` in `OR` and `DSV` clear. -/
theorem resetMeetsInvariant : Obligations.ResetMeetsInvariant := by
  have hregs : RegsInv State.reset := ⟨nofun, fun h => h, nofun⟩
  exact hregs.inv_of_idle ⟨rfl, rfl⟩

/-- Settles O46, by what the step found to do: a reset restores the invariant; a command word is a well-formed
instruction or is refused; and a command in progress leaves a legal rest. -/
theorem stepKeepsInvariant : Obligations.StepKeepsInvariant := by
  intro s t h hstep
  unfold step at hstep
  obtain ⟨-, hf⟩ | ⟨-, -, hf⟩ | ⟨-, d, -, hf⟩ | ⟨⟨hpins, -⟩, -, hbusy, hf⟩ | ⟨-, -, -, -, hf⟩ |
    ⟨⟨hpins, -⟩, -, hbusy, w, ws, -, ⟨i, hd, hf⟩ | ⟨e, -, hf⟩⟩ := fetch_cases s
  · rw [hf] at hstep; cases hstep
  · rw [hf] at hstep; cases hstep
  · rw [hf] at hstep; cases hstep
    exact inv_doReset _
  · rw [hf] at hstep; cases hstep
    exact advance_inv hpins h hbusy
  · rw [hf] at hstep; cases hstep
    exact h
  · rw [hf] at hstep
    obtain ⟨hwf, -⟩ := encode_of_decodeCommand hd
    have hword : Inv { s with cmds := ws } := ⟨h.1, h.2, h.3, h.4, h.5, h.6⟩
    exact exec_inv (s := { s with cmds := ws }) hwf hpins hword hstep
  · rw [hf] at hstep; cases hstep
    have hregs : RegsInv (raise .illegalCommand { s with cmds := ws }) := ⟨h.ds_fixed, h.rw_low, h.ready_dsv⟩
    exact hregs.inv_of_idle ⟨rfl, rfl⟩

end Sys2Proof.Machine
end

section
/-! PROOFS. Noninterference of `DS` (10_state.md section 2): two runs that differ in an unwritten `DS` go on side by side
until both write it, or to the end. -/

namespace Sys2Proof.Machine

/-! ### States and results that agree up to an unwritten `DS` (R15) -/

/-- `t` is `s` but for the value of `DS`, and is `s` once `DSV` is set. -/
def DsAgree (s t : State) : Prop := ∃ x, t = { s with ds := x } ∧ (s.dsv = true → x = s.ds)

/-- The same of two results, which are of one kind and leave the same to do. -/
def ResAgree (r r' : Res) : Prop :=
  ∃ x, r' = resMap (fun t => { t with ds := x }) r ∧ ((resState r).dsv = true → x = (resState r).ds)

theorem DsAgree.refl (s : State) : DsAgree s s := ⟨s.ds, rfl, fun _ => rfl⟩

theorem DsAgree.setSeq {s t : State} (h : DsAgree s t) (q : Seq) : DsAgree { s with seq := q } { t with seq := q } := by
  obtain ⟨x, rfl, hx⟩ := h
  exact ⟨x, rfl, hx⟩

theorem DsAgree.setTxt {s t : State} (h : DsAgree s t) (bs : List Byte) :
    DsAgree { s with txt := bs } { t with txt := bs } := by
  obtain ⟨x, rfl, hx⟩ := h
  exact ⟨x, rfl, hx⟩

theorem ResAgree.refl (r : Res) : ResAgree r r := ⟨(resState r).ds, by cases r <;> rfl, fun _ => rfl⟩

/-- `DS` is not read by any action. -/
theorem runPrim_setDs {p : Prim} (hp : ∀ v, p ≠ .baseline v) (s : State) (x : Byte) :
    runPrim p { s with ds := x } = resMap (fun t => { t with ds := x }) (runPrim p s) := by
  obtain ⟨cfg, or, ds, dsv, fsm, busy, status, seq, xp, latched, trace, cmds, txt, rst, answers, waits⟩ := s
  cases p with
  | commit =>
    rcases answers with _ | ⟨a, as⟩
    · rfl
    · cases a with
      | done | pending | never => rfl
      | err d | reset d => cases d <;> rfl
  | delay t =>
    rcases waits with _ | ⟨a, as⟩
    · rfl
    · cases a <;> rfl
  | drive | driveData | fsm => rfl
  | baseline v => exact absurd rfl (hp v)

/-- Only the baseline action writes `DS` and `DSV` (R95). -/
theorem runPrim_keepsDs {p : Prim} (hp : ∀ v, p ≠ .baseline v) (s : State) :
    (resState (runPrim p s)).ds = s.ds ∧ (resState (runPrim p s)).dsv = s.dsv := by
  cases p with
  | commit => exact ⟨(commit_contact s).ds, (commit_contact s).dsv⟩
  | delay x => exact ⟨(waitDelay_contact x s).ds, (waitDelay_contact x s).dsv⟩
  | drive | driveData | fsm => exact ⟨rfl, rfl⟩
  | baseline v => exact absurd rfl (hp v)

/-- One action: the baseline makes the two states equal, any other leaves them as they were apart. -/
theorem runPrim_agree (p : Prim) {s s' : State} (h : DsAgree s s') : ResAgree (runPrim p s) (runPrim p s') := by
  obtain ⟨x, rfl, hx⟩ := h
  by_cases hp : ∀ v, p ≠ .baseline v
  · obtain ⟨hds, hdsv⟩ := runPrim_keepsDs hp s
    exact ⟨x, runPrim_setDs hp s x, by rw [hds, hdsv]; exact hx⟩
  · obtain ⟨v, rfl⟩ := not_forall_not.1 hp
    exact ResAgree.refl _

theorem runPrims_agree (ps : List Prim) {s s' : State} (h : DsAgree s s') :
    ResAgree (runPrims ps s) (runPrims ps s') := by
  induction ps generalizing s s' with
  | nil =>
    obtain ⟨x, rfl, hx⟩ := h
    exact ⟨x, rfl, hx⟩
  | cons p ps ih =>
    obtain ⟨x, hrun, hx⟩ := runPrim_agree p h
    rw [runPrims, runPrims, hrun]
    cases hr : runPrim p s with
    | fin t => rw [hr] at hx; exact ih ⟨x, rfl, hx⟩
    | err t | held rem t | rst t => rw [hr] at hx; exact ⟨x, rfl, hx⟩

/-! ### Commands -/

theorem drainText_agree (n : Nat) {s s' : State} (h : DsAgree s s') : DsAgree (drainText n s) (drainText n s') := by
  obtain ⟨x, rfl, hx⟩ := h
  simp only [drainText_spec]
  split
  · exact ⟨x, rfl, hx⟩
  · exact ⟨x, rfl, hx⟩

theorem conclude_agree (ms : List Micro) (n : Nat) {k : State → State} (m : Micro) {s s' : State}
    (hk : ∀ t t', DsAgree t t' → DsAgree (k t) (k t')) (h : DsAgree s s') :
    DsAgree (conclude ms n k (runMicro m s)) (conclude ms n k (runMicro m s')) := by
  obtain ⟨x, hrun, hx⟩ := runPrims_agree (expand m) h
  rw [runMicro, runMicro, hrun]
  cases hr : runPrims (expand m) s with
  | fin t => rw [hr] at hx; exact hk t _ ⟨x, rfl, hx⟩
  | err t => rw [hr] at hx; exact drainText_agree n ⟨x, rfl, hx⟩
  | held rem t => rw [hr] at hx; exact ⟨x, rfl, hx⟩
  | rst t => exact DsAgree.refl _

theorem runText_agree (n : Nat) {s s' : State} (h : DsAgree s s') : DsAgree (runText n s) (runText n s') := by
  induction n generalizing s s' with
  | zero => obtain ⟨x, rfl, hx⟩ := h; exact ⟨x, rfl, hx⟩
  | succ n ih =>
    obtain ⟨x, rfl, hx⟩ := h
    rw [runText, runText]
    cases s.txt with
    | nil => exact ⟨x, rfl, hx⟩
    | cons b bs => exact conclude_agree [] n (writeChar b) (fun _ _ => ih) ⟨x, rfl, hx⟩

theorem runOps_agree (ms : List Micro) (n : Nat) {s s' : State} (h : DsAgree s s') :
    DsAgree (runOps ms n s) (runOps ms n s') := by
  induction ms generalizing s s' with
  | nil => exact runText_agree n h
  | cons m ms ih => exact conclude_agree ms n m (fun _ _ => ih) h

theorem runCommand_agree (ms : List Micro) (n : Nat) {s s' : State} (h : DsAgree s s') :
    DsAgree (runCommand ms n s) (runCommand ms n s') := by
  obtain ⟨x, rfl, hx⟩ := h
  exact runOps_agree ms n ⟨x, rfl, hx⟩

theorem perform_agree (m : Micro) {s s' : State} (h : DsAgree s s') : DsAgree (perform m s) (perform m s') := by
  have hrest : s'.seq = s.seq := by obtain ⟨x, rfl, -⟩ := h; rfl
  rw [perform, perform, hrest]
  exact conclude_agree _ _ m (fun _ _ ht => ht) h

/-- A display command reads `DS` only when `DSV` is set, and then the states are equal (R105, R123). -/
theorem sendDisplayState_agree (f : Byte → Byte) {s s' : State} (h : DsAgree s s') :
    DsAgree (sendDisplayState f s) (sendDisplayState f s') := by
  obtain ⟨x, rfl, hx⟩ := h
  by_cases hdsv : s.dsv = true
  · rw [hx hdsv]
    exact DsAgree.refl _
  · have hunwritten := Bool.eq_false_of_not_eq_true hdsv
    rw [sendDisplayState_unwritten f hunwritten, sendDisplayState_unwritten (s := { s with ds := x }) f hunwritten]
    exact ⟨x, rfl, hx⟩

/-! ### An idle block (R41, R58, R26) -/

/-- An idle block runs the instruction its next command word decodes to. -/
theorem step_decoded (s : State) {w : CmdWord} {ws : List CmdWord} {i : Instr} (hcfg : CfgOk s) (hrst : s.rst = .low)
    (hbusy : s.busy = false) (hcmds : s.cmds = w :: ws) (hd : decode (.cw w) = .ok i) :
    step s = exec i { s with cmds := ws } := by
  simp [step, fetch, fetchCommand, hcfg.1, hcfg.2, hrst, hbusy, hcmds, hd]

/-- With no word presented it waits. -/
theorem step_waiting (s : State) (hcfg : CfgOk s) (hrst : s.rst = .low) (hbusy : s.busy = false) (hcmds : s.cmds = []) :
    step s = .next s := by
  simp [step, fetch, hcfg.1, hcfg.2, hrst, hbusy, hcmds]

/-! ### Instructions and steps -/

/-- Two outcomes that are of one kind and agree on the next state. -/
def OutcomeAgree (o o' : Host.Outcome State Fault Refusal) : Prop :=
  ∀ t, o = .next t → ∃ t', o' = .next t' ∧ DsAgree t t'

theorem OutcomeAgree.of_next {t t' : State} (h : DsAgree t t') : OutcomeAgree (.next t) (.next t') := by
  rintro _ ⟨⟩
  exact ⟨t', rfl, h⟩

theorem exec_agree (i : Instr) {s s' : State} (h : DsAgree s s') : OutcomeAgree (exec i s) (exec i s') := by
  have hcfg : s'.cfg = s.cfg := by obtain ⟨x, rfl, -⟩ := h; rfl
  cases i with
  | init | clear =>
    simp only [exec, execInit, execClear, hcfg]
    exact .of_next (runCommand_agree _ _ h)
  | blon | bloff | wrtext => exact .of_next (runCommand_agree _ _ h)
  | dispon | dispoff | curmode => exact .of_next (sendDisplayState_agree _ h)
  | lcdFunctionSet | lcdClearDisplay | lcdDisplayControl =>
    simp only [exec, execLcdFunctionSet, execLcdClearDisplay, execLcdDisplayControl, hcfg]
    exact .of_next (perform_agree _ h)
  | lcdWake | lcdSet4bit | lcdSetCursorAddress | lcdCharacter => exact .of_next (perform_agree _ h)

theorem advance_agree {s s' : State} (h : DsAgree s s') : DsAgree (advance s) (advance s') := by
  have hsame : s'.seq = s.seq ∧ s'.txt = s.txt := by obtain ⟨x, rfl, -⟩ := h; exact ⟨rfl, rfl⟩
  obtain ⟨hseq', htxt'⟩ := hsame
  match hseq : s.seq with
  | .idle => rwa [advance_of_idle hseq, advance_of_idle (hseq'.trans hseq)]
  | .drain n =>
    rw [advance_of_drain hseq, advance_of_drain (hseq'.trans hseq)]
    exact drainText_agree n h
  | .run (m :: ms) n =>
    rw [advance_of_cons hseq, advance_of_cons (hseq'.trans hseq)]
    exact perform_agree m (h.setSeq (.run ms n))
  | .run [] 0 =>
    rw [advance_of_done hseq, advance_of_done (hseq'.trans hseq)]
    obtain ⟨x, rfl, hx⟩ := h
    exact ⟨x, rfl, hx⟩
  | .run [] (n + 1) =>
    cases htxt : s.txt with
    | nil => rwa [advance_of_wait hseq htxt, advance_of_wait (hseq'.trans hseq) (htxt'.trans htxt)]
    | cons b bs =>
      rw [advance_of_char hseq htxt, advance_of_char (hseq'.trans hseq) (htxt'.trans htxt)]
      exact perform_agree (writeChar b) ((h.setTxt bs).setSeq (.run [] n))

/-- A reset gives `DS` one value, whatever it held. -/
theorem obeyReset_agree (d : Bool) {s s' : State} (h : DsAgree s s') : obeyReset d s' = obeyReset d s := by
  obtain ⟨x, rfl, -⟩ := h
  obtain ⟨cfg, or, ds, dsv, fsm, busy, status, seq, xp, latched, trace, cmds, txt, rst, answers, waits⟩ := s
  match seq with
  | .idle | .drain _ | .run [] _ | .run (.nibble _ :: _) _ | .run (.byte _ _ :: _) _ => rfl
  | .run (.prim p :: _) _ =>
    cases p with
    | commit => cases d <;> rfl
    | drive | driveData | delay | fsm | baseline => rfl

/-- Agreeing states find the same to do, so their steps agree. -/
theorem step_agree {s s' : State} (h : DsAgree s s') : OutcomeAgree (step s) (step s') := by
  obtain ⟨x, rfl, hx⟩ := h
  have hagree : DsAgree s { s with ds := x } := ⟨x, rfl, hx⟩
  intro t hstep
  have hfetch := fetch_cases s
  unfold step at hstep
  obtain ⟨-, hf⟩ | ⟨-, -, hf⟩ | ⟨hc, d, hr, hf⟩ | ⟨hc, hr, hb, hf⟩ | ⟨hc, hr, hb, hw, hf⟩ |
    ⟨hc, hr, hb, w, ws, hw, ⟨i, hd, hf⟩ | ⟨e, hd, hf⟩⟩ := hfetch
  · rw [hf] at hstep; cases hstep
  · rw [hf] at hstep; cases hstep
  · rw [hf] at hstep; cases hstep
    exact ⟨_, step_rst { s with ds := x } d hc hr, by rw [obeyReset_agree d hagree]; exact DsAgree.refl _⟩
  · rw [hf] at hstep; cases hstep
    exact ⟨_, step_busy { s with ds := x } hc hr hb, advance_agree hagree⟩
  · rw [hf] at hstep; cases hstep
    exact ⟨_, step_waiting { s with ds := x } hc hr hb hw, hagree⟩
  · rw [hf] at hstep
    rw [step_decoded { s with ds := x } hc hr hb hw hd]
    exact exec_agree i (s := { s with cmds := ws }) ⟨x, rfl, hx⟩ t hstep
  · rw [hf] at hstep; cases hstep
    exact ⟨_, step_undecodable (s := { s with ds := x }) hc hr hb hw hd, x, rfl, hx⟩

/-- Settles O44: the steps of the two states agree, and agreeing states differ in `DS` at most. -/
theorem unwrittenDsIsNeverUsed : Obligations.UnwrittenDsIsNeverUsed := by
  intro s t x hdsv hstep
  have hagree : DsAgree s { s with ds := x } := ⟨x, rfl, fun hset => by rw [hdsv] at hset; cases hset⟩
  obtain ⟨t', hstep', y, rfl, hy⟩ := step_agree hagree t hstep
  exact ⟨_, hstep', rfl, hy⟩

end Sys2Proof.Machine
end

section
/-! PROOFS. Frames (10_state.md, 70_reset_and_hazards.md): what each instruction and each resumed step leaves alone, and the
failure that ends a run; each is one law of single actions. -/

namespace Sys2Proof.Machine

/-! ### What each instruction consists of (R53, R88, R100 to R104, R112, R113) -/

/-- The elements an instruction runs, its text bytes apart. -/
def elements (s : State) : Instr → List Micro
  | .init => initProgram s.cfg
  | .blon => asMicros (setBacklight true)
  | .bloff => asMicros (setBacklight false)
  | .dispon => [writeCmd (dsTurnOn s.ds)]
  | .dispoff => [writeCmd (dsTurnOff s.ds)]
  | .curmode v k => [writeCmd (dsCursorMode v k s.ds)]
  | .clear => [lcdClearDisplayFrame s.cfg, .prim (.delay s.cfg.tClear)]
  | .wrtext row col _ => [setCursorPosition row col]
  | .lcdWake => [lcdWakeFrame]
  | .lcdSet4bit => [lcdSet4bitFrame]
  | .lcdFunctionSet => [lcdFunctionSetFrame s.cfg]
  | .lcdClearDisplay => [lcdClearDisplayFrame s.cfg]
  | .lcdDisplayControl on cursor blink => [lcdDisplayControlFrame s.cfg on cursor blink]
  | .lcdSetCursorAddress a => [lcdSetCursorAddressFrame a]
  | .lcdCharacter c => [lcdCharacterFrame c]

/-- `exec_cases` with the elements named: a command, a display command, or one element by itself. -/
theorem exec_elements (i : Instr) (s : State) :
    exec i s = .next (runCommand (elements s i) (textLen i) s) ∨
    (∃ f, elements s i = [writeCmd (f s.ds)] ∧ exec i s = .next (sendDisplayState f s)) ∨
    ∃ m, elements s i = [m] ∧ exec i s = .next (perform m s) := by
  cases i with
  | init | blon | bloff | clear | wrtext => exact .inl rfl
  | dispon | dispoff | curmode => exact .inr (.inl ⟨_, rfl, rfl⟩)
  | lcdWake | lcdSet4bit | lcdFunctionSet | lcdClearDisplay | lcdDisplayControl | lcdSetCursorAddress | lcdCharacter =>
    exact .inr (.inr ⟨_, rfl, rfl⟩)

/-- A law of runs is a law of instructions, when it does not speak of `DS` and allows the refusal of R123. -/
theorem RunLaw.exec {P : Prim → Prop} {I E J : State → Prop} (law : RunLaw P I E J)
    (haccept : ∀ s, I s → I (accept s)) (hds : ∀ s x, I s → I { s with ds := x })
    (hrefused : ∀ s, I s → J (raise .dsUnwritten s)) (i : Instr) {s t : State}
    (hprims : ∀ p ∈ (elements s i).flatMap expand, P p) (hchar : textLen i ≠ 0 → ∀ b, ∀ p ∈ writeByte true b, P p)
    (hnr : NoReset s) (h : I s) (he : exec i s = .next t) : J t := by
  have hnr' (x : Byte) : NoReset (accept { s with ds := x }) := hnr
  obtain hi | ⟨f, hel, hi⟩ | ⟨m, hel, hi⟩ := exec_elements i s
  · cases hi.symm.trans he
    exact law.runOps _ hprims _ hchar (hnr' s.ds) (haccept s h)
  · cases hi.symm.trans he
    rw [hel] at hprims
    by_cases hdsv : s.dsv = true
    · rw [sendDisplayState_written f hdsv]
      exact law.runOps _ hprims 0 (absurd rfl) (hnr' _) (haccept _ (hds s _ h))
    · rw [sendDisplayState_unwritten f (Bool.eq_false_of_not_eq_true hdsv)]
      exact hrefused s h
  · cases hi.symm.trans he
    rw [hel, List.flatMap_singleton] at hprims
    exact law.perform m hprims hnr h

/-! ### The ports and the configuration (R20, R59, R117) -/

theorem Untouched.mono {m n : Nat} {s t : State} (h : Untouched m s t) (hmn : m ≤ n) : Untouched n s t := by
  obtain ⟨hcfg, hcmds, hrst, k, hk, htxt⟩ := h
  exact ⟨hcfg, hcmds, hrst, k, hk.trans hmn, htxt⟩

theorem raise_untouched (x : Status) (s : State) : Untouched 0 s (raise x s) := ⟨rfl, rfl, rfl, 0, le_rfl, rfl⟩

theorem exec_untouched (i : Instr) {s t : State} (he : exec i s = .next t) :
    Untouched (textLen i + s.seq.chars) s t := by
  obtain hi | ⟨f, -, hi⟩ | ⟨m, -, hi⟩ := exec_elements i s
  · cases hi.symm.trans he
    exact (runCommand_untouched _ _ s).mono (Nat.le_add_right _ _)
  · cases hi.symm.trans he
    rw [sendDisplayState]
    split
    · exact (runCommand_untouched _ 0 { s with ds := f s.ds }).mono (Nat.zero_le _)
    · exact (raise_untouched _ s).mono (Nat.zero_le _)
  · cases hi.symm.trans he
    exact (perform_untouched m s).mono (Nat.le_add_left _ _)

/-- A resumed step takes at most the outstanding text. -/
theorem advance_untouched_chars (s : State) : Untouched s.seq.chars s (advance s) := by
  match hseq : s.seq with
  | .idle => rw [advance_of_idle hseq]; exact ⟨rfl, rfl, rfl, 0, le_rfl, rfl⟩
  | .run (m :: ms) n => rw [advance_of_cons hseq]; exact perform_untouched m { s with seq := .run ms n }
  | .run [] 0 => rw [advance_of_done hseq]; exact ⟨rfl, rfl, rfl, 0, le_rfl, rfl⟩
  | .run [] (n + 1) =>
    cases htxt : s.txt with
    | nil => rw [advance_of_wait hseq htxt]; exact ⟨rfl, rfl, rfl, 0, Nat.zero_le _, rfl⟩
    | cons b bs =>
      rw [advance_of_char hseq htxt]
      obtain ⟨hcfg, hcmds, hrst, k, hk, hbs⟩ := perform_untouched (writeChar b) { s with txt := bs, seq := .run [] n }
      exact ⟨hcfg, hcmds, hrst, k + 1, Nat.succ_le_succ hk, by rw [htxt]; exact hbs⟩
  | .drain n => rw [advance_of_drain hseq]; exact drainText_untouched n s

/-- A step that answers a next state from a busy block without reset is the next element of its command. -/
theorem eq_advance_of_step {s t : State} (hrst : s.rst = .low) (hbusy : s.busy = true) (hstep : step s = .next t) :
    CfgOk s ∧ t = advance s := by
  have hfetch := fetch_cases s
  unfold step at hstep
  obtain ⟨-, hf⟩ | ⟨-, -, hf⟩ | ⟨-, d, hr, -⟩ | ⟨hc, -, -, hf⟩ | ⟨-, -, hb, -⟩ | ⟨-, -, hb, -⟩ := hfetch
  · rw [hf] at hstep; cases hstep
  · rw [hf] at hstep; cases hstep
  · rw [hrst] at hr; cases hr
  · rw [hf] at hstep; cases hstep
    exact ⟨hc, rfl⟩
  · rw [hbusy] at hb; cases hb
  · rw [hbusy] at hb; cases hb

theorem obeyReset_cfg (d : Bool) (s : State) : (obeyReset d s).cfg = s.cfg := by
  obtain ⟨hcfg, -⟩ := cutOutside_frame d { s with rst := .low }
  rw [obeyReset, doReset_cfg, hcfg]

/-- Settles O5, by what the step found to do. -/
theorem stepKeepsConfiguration : Obligations.StepKeepsConfiguration := by
  intro s t hstep
  have hfetch := fetch_cases s
  unfold step at hstep
  obtain ⟨-, hf⟩ | ⟨-, -, hf⟩ | ⟨-, d, -, hf⟩ | ⟨-, -, -, hf⟩ | ⟨-, -, -, -, hf⟩ |
    ⟨-, -, -, w, ws, -, ⟨i, -, hf⟩ | ⟨e, -, hf⟩⟩ := hfetch
  · rw [hf] at hstep; cases hstep
  · rw [hf] at hstep; cases hstep
  · rw [hf] at hstep; cases hstep
    exact obeyReset_cfg d s
  · rw [hf] at hstep; cases hstep
    exact (advance_untouched_chars s).1
  · rw [hf] at hstep; cases hstep
    rfl
  · rw [hf] at hstep
    exact (exec_untouched i hstep).1
  · rw [hf] at hstep; cases hstep
    rfl

/-! ### `FSM`, `DS` and `DSV` (R95, R96) -/

/-- Only an `FSM` action writes `FSM` (R96). -/
theorem runPrim_keepsFsm {p : Prim} (hp : ∀ f, p ≠ .fsm f) (s : State) : (resState (runPrim p s)).fsm = s.fsm := by
  cases p with
  | commit => exact (commit_contact s).fsm
  | delay x => exact (waitDelay_contact x s).fsm
  | drive | driveData | baseline => rfl
  | fsm f => exact absurd rfl (hp f)

/-- Runs without an `FSM` action keep `FSM`. -/
theorem fsmLaw (f : Fsm) :
    RunLaw (fun p => ∀ g, p ≠ .fsm g) (fun t => t.fsm = f) (fun t => t.fsm = f) (fun t => t.fsm = f) :=
  .of_kept (fun _ s hp h => (runPrim_keepsFsm hp s).trans h) (fun _ _ _ _ _ h => h)

/-- Runs without a baseline action keep `DS` and `DSV`. -/
theorem dsLaw (d : Byte) (v : Bool) :
    RunLaw (fun p => ∀ x, p ≠ .baseline x) (fun t => t.ds = d ∧ t.dsv = v) (fun t => t.ds = d ∧ t.dsv = v)
      (fun t => t.ds = d ∧ t.dsv = v) :=
  .of_kept (fun _ s hp h => by rwa [(runPrim_keepsDs hp s).1, (runPrim_keepsDs hp s).2]) (fun _ _ _ _ _ h => h)

theorem ne_fsm_of_keepsRegs {p : Prim} (h : keepsRegs p = true) (f : Fsm) : p ≠ .fsm f := by
  rintro rfl
  cases h

theorem ne_baseline_of_keepsRegs {p : Prim} (h : keepsRegs p = true) (v : Byte) : p ≠ .baseline v := by
  rintro rfl
  cases h

/-- No instruction but INIT has an action that writes the three registers. -/
theorem keepsRegs_elements {i : Instr} (hi : i ≠ .init) (s : State) :
    ∀ p ∈ (elements s i).flatMap expand, keepsRegs p = true := by
  rw [← List.all_eq_true]
  cases i with
  | init => exact absurd rfl hi
  | blon | bloff | dispon | dispoff | curmode | clear | wrtext | lcdWake | lcdSet4bit | lcdFunctionSet
  | lcdClearDisplay | lcdDisplayControl | lcdSetCursorAddress | lcdCharacter => rfl

theorem keepsRegs_writeByte (d : Bool) (v : Byte) : ∀ p ∈ writeByte d v, keepsRegs p = true := by
  rw [← List.all_eq_true]
  rfl

/-- `DS` after an instruction other than INIT, short of a reset: the display commands write it when it is valid (R102 to
R105). -/
def dsAfter (s : State) : Instr → Byte
  | .dispon => if s.dsv then dsTurnOn s.ds else s.ds
  | .dispoff => if s.dsv then dsTurnOff s.ds else s.ds
  | .curmode v k => if s.dsv then dsCursorMode v k s.ds else s.ds
  | _ => s.ds

/-- A display command that is not refused writes `DS` and sends it, and the send keeps both registers (R105). -/
theorem sendDisplayState_regs (f : Byte → Byte) {s : State} (hnr : NoReset s) :
    (sendDisplayState f s).ds = (if s.dsv then f s.ds else s.ds) ∧ (sendDisplayState f s).dsv = s.dsv := by
  by_cases hdsv : s.dsv = true
  · rw [sendDisplayState_written f hdsv, if_pos hdsv]
    have hprims : ∀ p ∈ [writeCmd (f s.ds)].flatMap expand, ∀ x, p ≠ .baseline x := fun p hp =>
      ne_baseline_of_keepsRegs (keepsRegs_writeByte false (f s.ds) p (by simpa [writeCmd, expand] using hp))
    have hnr' : NoReset (accept { s with ds := f s.ds }) := hnr
    exact (dsLaw (f s.ds) s.dsv).runOps _ hprims 0 (absurd rfl) hnr' ⟨rfl, rfl⟩
  · rw [sendDisplayState_unwritten f (Bool.eq_false_of_not_eq_true hdsv), if_neg hdsv]
    exact ⟨rfl, rfl⟩

theorem exec_keepsFsm {i : Instr} (hi : i ≠ .init) {s t : State} (hnr : NoReset s) (he : exec i s = .next t) :
    t.fsm = s.fsm :=
  (fsmLaw s.fsm).exec (fun _ h => h) (fun _ _ h => h) (fun _ h => h) i
    (fun p hp => ne_fsm_of_keepsRegs (keepsRegs_elements hi s p hp))
    (fun _ b p hp => ne_fsm_of_keepsRegs (keepsRegs_writeByte true b p hp)) hnr rfl he

/-- What an instruction other than INIT does to `DS` and `DSV`, on any answers but a reset. -/
theorem exec_ds {i : Instr} (hi : i ≠ .init) {s t : State} (hnr : NoReset s) (he : exec i s = .next t) :
    t.ds = dsAfter s i ∧ t.dsv = s.dsv := by
  have hprims : ∀ p ∈ (elements s i).flatMap expand, ∀ x, p ≠ .baseline x :=
    fun p hp => ne_baseline_of_keepsRegs (keepsRegs_elements hi s p hp)
  have hchar (n : Nat) : n ≠ 0 → ∀ b, ∀ p ∈ writeByte true b, ∀ x, p ≠ .baseline x :=
    fun _ b p hp => ne_baseline_of_keepsRegs (keepsRegs_writeByte true b p hp)
  have hnr' : NoReset (accept s) := hnr
  have hrun (n : Nat) : (runCommand (elements s i) n s).ds = s.ds ∧ (runCommand (elements s i) n s).dsv = s.dsv :=
    (dsLaw s.ds s.dsv).runOps _ hprims n (hchar n) hnr' ⟨rfl, rfl⟩
  have hperform {m : Micro} (hm : elements s i = [m]) : (perform m s).ds = s.ds ∧ (perform m s).dsv = s.dsv := by
    rw [hm, List.flatMap_singleton] at hprims
    exact (dsLaw s.ds s.dsv).perform m hprims hnr ⟨rfl, rfl⟩
  cases i with
  | init => exact absurd rfl hi
  | blon | bloff | clear => cases he; exact hrun 0
  | wrtext row col len => cases he; exact hrun len
  | dispon | dispoff | curmode => cases he; exact sendDisplayState_regs _ hnr
  | lcdWake | lcdSet4bit | lcdFunctionSet | lcdClearDisplay | lcdDisplayControl | lcdSetCursorAddress | lcdCharacter =>
    cases he; exact hperform rfl

theorem dsAfter_of_not_display {i : Instr} (s : State) (hon : i ≠ .dispon) (hoff : i ≠ .dispoff)
    (hcur : ∀ v k, i ≠ .curmode v k) : dsAfter s i = s.ds := by
  cases i with
  | dispon => exact absurd rfl hon
  | dispoff => exact absurd rfl hoff
  | curmode v k => exact absurd rfl (hcur v k)
  | init | blon | bloff | clear | wrtext | lcdWake | lcdSet4bit | lcdFunctionSet | lcdClearDisplay | lcdDisplayControl
  | lcdSetCursorAddress | lcdCharacter => rfl

/-- Settles O42: the ports on any answers, and the three registers by the actions of each instruction. -/
theorem execFrame : Obligations.ExecFrame := by
  intro i s t he
  obtain ⟨hcfg, hcmds, hrst, htxt⟩ := exec_untouched i he
  refine ⟨hcfg, hrst, hcmds, htxt, fun hnr hi => ⟨(exec_ds hi hnr he).2, exec_keepsFsm hi hnr he⟩, ?_⟩
  intro hnr hi hon hoff hcur
  exact (exec_ds hi hnr he).1.trans (dsAfter_of_not_display s hon hoff hcur)

end Sys2Proof.Machine
end

section
/-! PROOFS. Lines, latches and the trace over a run (70_reset_and_hazards.md section 3, 60_exceptions.md section 4), and the
frame of a step that resumes a command. -/

namespace Sys2Proof.Machine

/-! ### The trace (R166) -/

/-- An action appends to the trace, and what it writes is `OR`. -/
theorem runPrim_trace (p : Prim) (s : State) :
    ∃ es, (resState (runPrim p s)).trace = s.trace ++ es ∧ ∀ b ∈ eventBytes es, b = s.or := by
  cases p with
  | commit => exact (commit_contact s).trace
  | delay x => exact (waitDelay_contact x s).trace
  | drive | driveData | fsm | baseline => exact ⟨[], (List.append_nil _).symm, by simp [eventBytes]⟩

theorem traceLaw (tr : List Event) :
    RunLaw (fun _ => True) (fun t => ∃ es, t.trace = tr ++ es) (fun t => ∃ es, t.trace = tr ++ es)
      (fun t => ∃ es, t.trace = tr ++ es) := by
  refine .of_kept ?_ (fun _ _ _ _ _ h => h)
  rintro p s - ⟨es, hes⟩
  obtain ⟨fs, hfs, -⟩ := runPrim_trace p s
  exact ⟨es ++ fs, by rw [hfs, hes, List.append_assoc]⟩

/-! ### Lines that a run does not drive (R71 to R75) -/

/-- Whether an action writes a signal's bit of `OR`. -/
def writesLine (sig : Signal) : Prim → Bool
  | .drive x _ => decide (x = sig)
  | .driveData _ => decide (sig ∈ [Signal.d4, .d5, .d6, .d7])
  | .commit => false
  | .delay _ => false
  | .fsm _ => false
  | .baseline _ => false

theorem runPrim_keepsLine {p : Prim} {sig : Signal} (hp : writesLine sig p = false) {s : State}
    (hpins : s.cfg.pins.ok = true) : line s.cfg.pins sig (resState (runPrim p s)).or = line s.cfg.pins sig s.or := by
  cases p with
  | commit => exact congrArg _ (commit_contact s).or
  | delay x => exact congrArg _ (waitDelay_contact x s).or
  | drive x level => exact line_driven_ne s.cfg.pins hpins (Ne.symm (of_decide_eq_false hp)) level s.or
  | driveData n => exact line_drivenData_of_not_data s.cfg.pins hpins (of_decide_eq_false hp) n s.or
  | fsm | baseline => rfl

/-- Under `c`, `t` has the level `l` on the line of `sig` in `OR` and in every byte written since `tr`. -/
def LineHeld (c : Cfg) (sig : Signal) (l : Bool) (tr : List Event) (t : State) : Prop :=
  t.cfg = c ∧ line c.pins sig t.or = l ∧ ∃ es, t.trace = tr ++ es ∧ ∀ b ∈ eventBytes es, line c.pins sig b = l

theorem lineHeld_start (s : State) (sig : Signal) : LineHeld s.cfg sig (line s.cfg.pins sig s.or) s.trace s :=
  ⟨rfl, rfl, [], (List.append_nil _).symm, by simp [eventBytes]⟩

/-- A line that no action of a run writes rides along unchanged in every byte. -/
theorem lineLaw {c : Cfg} (hpins : c.pins.ok = true) (sig : Signal) (l : Bool) (tr : List Event) :
    RunLaw (fun p => writesLine sig p = false) (LineHeld c sig l tr) (LineHeld c sig l tr) (LineHeld c sig l tr) := by
  refine .of_kept ?_ (fun _ _ _ _ _ h => h)
  rintro p s hp ⟨rfl, hline, es, hes, hbytes⟩
  obtain ⟨fs, hfs, hor⟩ := runPrim_trace p s
  obtain ⟨hcfg, -⟩ := runPrim_frame p s
  refine ⟨hcfg, (runPrim_keepsLine hp hpins).trans hline, es ++ fs, by rw [hfs, hes, List.append_assoc], ?_⟩
  rw [eventBytes_append, List.forall_mem_append]
  exact ⟨hbytes, fun b hb => by rw [hor b hb, hline]⟩

/-- Under `c`, E is low in `OR` and on the lines, and the LCD has latched nothing beyond `ls`. -/
def NothingLatched (c : Cfg) (ls : List Latch) (t : State) : Prop :=
  t.cfg = c ∧ line c.pins .e t.or = false ∧ line c.pins .e t.xp = false ∧ t.latched = ls

/-- With E low no edge of it can fall (R86). -/
theorem latchEdge_of_low {p : PinMap} {old : Byte} (h : line p .e old = false) (new : Byte) : latchEdge p old new = [] := by
  simp [latchEdge, h]

theorem NothingLatched.of_contact {c : Cfg} {ls : List Latch} {s t : State} (h : NothingLatched c ls s)
    (hc : Contact s t) : NothingLatched c ls t := by
  obtain ⟨rfl, hor, hxp, hls⟩ := h
  obtain ⟨hx, hl⟩ | ⟨hx, hl⟩ := hc.lines
  · exact ⟨hc.cfg, by rw [hc.or, hor], by rw [hx, hxp], hl.trans hls⟩
  · exact ⟨hc.cfg, by rw [hc.or, hor], by rw [hx, hor], by rw [hl, latchEdge_of_low hxp, List.append_nil, hls]⟩

/-- A run that leaves E low latches nothing. -/
theorem latchLaw {c : Cfg} (hpins : c.pins.ok = true) (ls : List Latch) :
    RunLaw (fun p => writesLine .e p = false) (NothingLatched c ls) (NothingLatched c ls) (NothingLatched c ls) := by
  refine .of_kept ?_ (fun _ _ _ _ _ h => h)
  intro p s hp h
  cases p with
  | commit => exact h.of_contact (commit_contact s)
  | delay x => exact h.of_contact (waitDelay_contact x s)
  | drive x level =>
    obtain ⟨rfl, hor, hxp, hls⟩ := h
    exact ⟨rfl, (runPrim_keepsLine (p := .drive x level) hp hpins).trans hor, hxp, hls⟩
  | driveData n =>
    obtain ⟨rfl, hor, hxp, hls⟩ := h
    exact ⟨rfl, (runPrim_keepsLine (p := .driveData n) hp hpins).trans hor, hxp, hls⟩
  | fsm | baseline => exact h

/-- No instruction but BLON and BLOFF drives the Backlight line. -/
theorem backlight_elements {i : Instr} (hon : i ≠ .blon) (hoff : i ≠ .bloff) (s : State) :
    ∀ p ∈ (elements s i).flatMap expand, writesLine .bl p = false := by
  have hall : ((elements s i).flatMap expand).all (fun p => !writesLine .bl p) = true := by
    cases i with
    | blon => exact absurd rfl hon
    | bloff => exact absurd rfl hoff
    | init | dispon | dispoff | curmode | clear | wrtext | lcdWake | lcdSet4bit | lcdFunctionSet | lcdClearDisplay
    | lcdDisplayControl | lcdSetCursorAddress | lcdCharacter => rfl
  intro p hp
  simpa using List.all_eq_true.1 hall p hp

theorem backlight_writeByte (d : Bool) (v : Byte) : ∀ p ∈ writeByte d v, writesLine .bl p = false := by
  have hall : (writeByte d v).all (fun p => !writesLine .bl p) = true := rfl
  intro p hp
  simpa using List.all_eq_true.1 hall p hp

/-- BLON and BLOFF drive no other line. -/
theorem backlightCommand_elements {i : Instr} (hi : i = .blon ∨ i = .bloff) (s : State) {sig : Signal}
    (hsig : sig ≠ .bl) : ∀ p ∈ (elements s i).flatMap expand, writesLine sig p = false := by
  have hexpand : ∃ l, (elements s i).flatMap expand = [.drive .bl l, .commit] := by
    rcases hi with rfl | rfl
    · exact ⟨true, rfl⟩
    · exact ⟨false, rfl⟩
  obtain ⟨l, hexpand⟩ := hexpand
  simp [hexpand, writesLine, hsig.symm]

/-- Settles O43: a line is kept by the actions that do not drive it, and a latch needs a falling E. -/
theorem backlightRidesAlong : Obligations.BacklightRidesAlong := by
  intro i s t hpins hnr he
  have hkeeps (sig : Signal) (hprims : ∀ p ∈ (elements s i).flatMap expand, writesLine sig p = false)
      (hchar : textLen i ≠ 0 → ∀ b, ∀ p ∈ writeByte true b, writesLine sig p = false) :
      LineHeld s.cfg sig (line s.cfg.pins sig s.or) s.trace t :=
    (lineLaw hpins sig _ _).exec (fun _ h => h) (fun _ _ h => h) (fun _ h => h) i hprims hchar hnr (lineHeld_start s sig) he
  constructor
  · intro hon hoff
    obtain ⟨-, hor, htrace⟩ := hkeeps .bl (backlight_elements hon hoff s) (fun _ b => backlight_writeByte true b)
    exact ⟨hor, htrace⟩
  · intro hi
    have hno : textLen i = 0 := by rcases hi with rfl | rfl <;> rfl
    refine ⟨fun sig hsig => (hkeeps sig (backlightCommand_elements hi s hsig) (absurd hno)).2.1, fun hor hxp => ?_⟩
    obtain ⟨-, -, -, hlatched⟩ := (latchLaw hpins s.latched).exec (fun _ h => h) (fun _ _ h => h) (fun _ h => h) i
      (backlightCommand_elements hi s (by decide)) (absurd hno) hnr ⟨rfl, hor, hxp, rfl⟩ he
    exact hlatched

/-! ### Failures (R121, R130) -/

/-- No write among these events failed. -/
def NoFailure (es : List Event) : Prop := ∀ b, Event.txFail b ∉ es

theorem NoFailure.append {es fs : List Event} (hes : NoFailure es) (hfs : NoFailure fs) : NoFailure (es ++ fs) :=
  fun b hb => (List.mem_append.1 hb).elim (hes b) (hfs b)

/-- Since `tr` no write has failed. -/
def NoFailureSince (tr : List Event) (t : State) : Prop := ∃ es, t.trace = tr ++ es ∧ NoFailure es

/-- Since `tr` one write has failed, the last. -/
def LastFailedSince (tr : List Event) (t : State) : Prop := ∃ es b, t.trace = tr ++ (es ++ [.txFail b]) ∧ NoFailure es

/-- A failure since `tr` is the last event and the only one, and the command has ended with `TransportError` or discards
its text. -/
def FailureReported (tr : List Event) (t : State) : Prop :=
  ∃ es, t.trace = tr ++ es ∧ ∀ b, Event.txFail b ∈ es →
    (∃ es', es = es' ++ [.txFail b] ∧ ∀ c, Event.txFail c ∉ es') ∧
    ((t.status = .transportError ∧ t.busy = false ∧ t.seq = .idle) ∨ ∃ n, t.seq = .drain (n + 1))

theorem NoFailureSince.reported {tr : List Event} {t : State} (h : NoFailureSince tr t) : FailureReported tr t := by
  obtain ⟨es, htrace, hes⟩ := h
  exact ⟨es, htrace, fun b hb => absurd hb (hes b)⟩

theorem LastFailedSince.reported {tr : List Event} {t : State} (h : LastFailedSince tr t)
    (hend : (t.status = .transportError ∧ t.busy = false ∧ t.seq = .idle) ∨ ∃ n, t.seq = .drain (n + 1)) :
    FailureReported tr t := by
  obtain ⟨es, c, htrace, hes⟩ := h
  refine ⟨es ++ [.txFail c], htrace, fun b hb => ⟨?_, hend⟩⟩
  obtain rfl : b = c := by
    obtain hmem | hmem := List.mem_append.1 hb
    · exact absurd hmem (hes b)
    · exact Event.txFail.inj (List.mem_singleton.1 hmem)
  exact ⟨es, rfl, hes⟩

theorem NoFailureSince.push {tr : List Event} {s t : State} (h : NoFailureSince tr s) {fs : List Event}
    (ht : t.trace = s.trace ++ fs) (hfs : NoFailure fs) : NoFailureSince tr t := by
  obtain ⟨es, htrace, hes⟩ := h
  exact ⟨es ++ fs, by rw [ht, htrace, List.append_assoc], hes.append hfs⟩

theorem NoFailureSince.fail {tr : List Event} {s t : State} (h : NoFailureSince tr s) {b : Byte}
    (ht : t.trace = s.trace ++ [.txFail b]) : LastFailedSince tr t := by
  obtain ⟨es, htrace, hes⟩ := h
  exact ⟨es, b, by rw [ht, htrace, List.append_assoc], hes⟩

/-- Only a write answered *error* appends a failure, and it ends the run (R121). -/
theorem runPrim_failure (p : Prim) {s : State} {tr : List Event} (h : NoFailureSince tr s) :
    Meets (NoFailureSince tr) (LastFailedSince tr) (runPrim p s) := by
  have hnone : NoFailure [] := fun b => List.not_mem_nil
  have hsame {t : State} (ht : t.trace = s.trace) : NoFailureSince tr t :=
    h.push (ht.trans (List.append_nil _).symm) hnone
  cases p with
  | commit =>
    have hdone : NoFailure [.tx s.or] := by simp [NoFailure]
    rw [runPrim, commit_eq]
    rcases s.txAnswers with _ | ⟨a, as⟩
    · exact h.push (fs := [.tx s.or]) rfl hdone
    · cases a with
      | done => exact h.push (fs := [.tx s.or]) rfl hdone
      | err d => exact h.fail (b := s.or) (by simp)
      | pending | never => exact hsame rfl
      | reset d => trivial
  | delay x =>
    have hdelay : NoFailure [.delay x] := by simp [NoFailure]
    rw [runPrim, waitDelay]
    rcases s.delayAnswers with _ | ⟨a, as⟩
    · exact h.push (fs := [.delay x]) rfl hdelay
    · cases a with
      | elapsed => exact h.push (fs := [.delay x]) rfl hdelay
      | pending | never => exact hsame rfl
      | reset => trivial
  | drive | driveData | fsm | baseline => exact hsame rfl

theorem failureLaw (tr : List Event) :
    RunLaw (fun _ => True) (NoFailureSince tr) (LastFailedSince tr) (FailureReported tr) where
  prim p _ _ h := runPrim_failure p h
  txt _ _ h := h
  seq _ _ h := h
  failTxt _ _ h := h
  hold s q h := NoFailureSince.reported (t := { s with busy := true, seq := q }) h
  stop _ h := h.reported
  ok s h := NoFailureSince.reported (t := complete .ok s) h
  failed s h := LastFailedSince.reported (t := raise .transportError s) h (.inl ⟨rfl, rfl, rfl⟩)
  drain s n h := LastFailedSince.reported (t := { s with busy := true, seq := .drain (n + 1) }) h (.inr ⟨n, rfl⟩)

/-- Settles O38: a run goes on only while no write has failed. -/
theorem failuresAreLastAndReported : Obligations.FailuresAreLastAndReported := by
  intro i s t hnr he
  have hstart : NoFailureSince s.trace s := ⟨[], (List.append_nil _).symm, fun b => List.not_mem_nil⟩
  exact (failureLaw s.trace).exec (fun _ h => h) (fun _ _ h => h)
    (fun s h => NoFailureSince.reported (t := raise .dsUnwritten s) h) i (fun _ _ => trivial) (fun _ _ _ _ => trivial)
    hnr hstart he

/-! ### The frame of a resumed step -/

/-- A run leaves `STATUS` alone until it completes (R19). -/
theorem statusLaw (c : Status) :
    RunLaw (fun _ => True) (fun t => t.status = c) (fun t => t.status = c) (fun t => t.busy = true → t.status = c) where
  prim p s _ h := by
    obtain ⟨-, -, -, -, -, hstatus, -⟩ := runPrim_frame p s
    cases hr : runPrim p s with
    | fin t | err t | held rem t => rw [hr] at hstatus; exact hstatus.trans h
    | rst t => trivial
  txt _ _ h := h
  seq _ _ h := h
  failTxt _ _ h := h
  hold _ _ h _ := h
  stop _ h _ := h
  ok _ _ hbusy := by cases hbusy
  failed _ _ hbusy := by cases hbusy
  drain _ _ h _ := h

/-- An action that no frame has is an element of its own. -/
theorem eq_prim_of_mem_expand {m : Micro} {p : Prim} (hp : p ∈ expand m) (hframe : isFrameAction p = false) :
    m = .prim p := by
  by_cases hm : ∀ q, m ≠ .prim q
  · rw [isFrameAction_of_expand hm p hp] at hframe
    cases hframe
  · obtain ⟨q, rfl⟩ := not_forall_not.1 hm
    rw [List.mem_singleton.1 hp]

/-- A block that discards text writes nothing but its own progress and completion (R117). -/
theorem drainText_outside (n : Nat) (s : State) :
    (drainText n s).or = s.or ∧ (drainText n s).xp = s.xp ∧ (drainText n s).latched = s.latched ∧
    (drainText n s).trace = s.trace ∧ (drainText n s).txAnswers = s.txAnswers ∧
    (drainText n s).delayAnswers = s.delayAnswers := by
  rw [drainText_spec]
  split <;> exact ⟨rfl, rfl, rfl, rfl, rfl, rfl⟩

/-- Settles O51: the step is one element, so each register is kept unless the action that writes it is at the head of
`SEQ`. -/
theorem resumeFrame : Obligations.ResumeFrame := by
  intro s t hrst hbusy hnr hstep
  obtain ⟨-, rfl⟩ := eq_advance_of_step hrst hbusy hstep
  obtain ⟨hcfg, hcmds, hrst', htxt⟩ := advance_untouched_chars s
  refine ⟨hcfg, hrst'.trans hrst, hcmds, htxt, ?_, ?_, ?_, ?_, ?_⟩
  · exact (statusLaw s.status).advance (fun _ _ _ => trivial) (fun _ _ _ _ _ _ => trivial) (fun _ _ => rfl) hnr rfl
  · intro hhead
    refine (fsmLaw s.fsm).advance (fun b p hp => ne_fsm_of_keepsRegs (keepsRegs_writeByte true b p hp)) ?_
      (fun _ _ => rfl) hnr rfl
    rintro m ms n hseq p hp f rfl
    rw [eq_prim_of_mem_expand hp rfl] at hseq
    exact hhead f ms n hseq
  · intro hhead
    refine (dsLaw s.ds s.dsv).advance (fun b p hp => ne_baseline_of_keepsRegs (keepsRegs_writeByte true b p hp)) ?_
      (fun _ _ => ⟨rfl, rfl⟩) hnr ⟨rfl, rfl⟩
    rintro m ms n hseq p hp v rfl
    rw [eq_prim_of_mem_expand hp rfl] at hseq
    exact hhead v ms n hseq
  · exact (traceLaw s.trace).advance (fun _ _ _ => trivial) (fun _ _ _ _ _ _ => trivial)
      (fun _ _ => ⟨[], (List.append_nil _).symm⟩) hnr ⟨[], (List.append_nil _).symm⟩
  · intro n hseq
    rw [advance_of_drain hseq]
    exact drainText_outside n s

end Sys2Proof.Machine
end

section
/-! PROOFS. The statements of 60_exceptions.md section 1, 30_encoding.md section 1 and 10_state.md section 9: the pin mapping,
its masks, construction and reset. -/

namespace Sys2Proof

open Machine

/-! ### The check of a pin mapping (R124) -/

/-- The eight signals, in the order of R5. -/
def allSignals : List Signal := [.rs, .rw, .e, .bl, .d4, .d5, .d6, .d7]

theorem PinMap.indices_eq_map (p : PinMap) : p.indices = allSignals.map p.index := rfl

/-- The check says that the signals have bits of their own (R5). -/
theorem PinMap.ok_iff_index (p : PinMap) :
    p.ok = true ↔ (∀ a, p.index a ≤ 7) ∧ ∀ a b, a ≠ b → p.index a ≠ p.index b := by
  constructor
  · intro h
    exact ⟨index_le p h, fun a b hab heq => hab (index_injective p h heq)⟩
  · rintro ⟨hle, hne⟩
    have hinj : Function.Injective p.index := fun a b heq => not_imp_not.1 (hne a b) heq
    rw [PinMap_ok_iff, p.indices_eq_map]
    exact ⟨by simpa using fun sig _ => hle sig, List.Nodup.map hinj (by decide)⟩

/-- No step but one of a state with a bad pin mapping faults: no meaning does (R124). -/
theorem step_fault_iff (s : State) : step s = .fault .configError ↔ s.cfg.pins.ok = false := by
  have hfetch := fetch_cases s
  unfold step
  obtain ⟨hbad, hf⟩ | ⟨hok, -, hf⟩ | ⟨⟨hok, -⟩, d, -, hf⟩ | ⟨⟨hok, -⟩, -, -, hf⟩ | ⟨⟨hok, -⟩, -, -, -, hf⟩ |
    ⟨⟨hok, -⟩, -, -, w, ws, -, ⟨i, -, hf⟩ | ⟨e, -, hf⟩⟩ := hfetch
  · simp [hf, hbad]
  · simp [hf, hok]
  · simp [hf, hok]
  · simp [hf, hok]
  · simp [hf, hok]
  · obtain ⟨t, ht⟩ := exec_next i { s with cmds := ws }
    simp [hf, hok, ht]
  · simp [hf, hok]

/-- Settles O1: the check is that of signals with bits of their own, and construction and the step only ask it. -/
theorem configErrorExactlyForBadPins : Obligations.ConfigErrorExactlyForBadPins := by
  refine ⟨PinMap.ok_iff_index, fun c h => ?_, fun c h => ?_, fun x => by cases x <;> decide, step_fault_iff⟩
  · rw [construct, h]; rfl
  · rw [construct, if_pos h]

/-! ### The masks (R49) -/

/-- A mask has the bit of its signal and no other. -/
theorem getLsbD_mask (p : PinMap) (h : p.ok = true) (sig : Signal) {i : Nat} (hi : i < 8) :
    (p.mask sig).getLsbD i = true ↔ i = p.index sig := by
  obtain ⟨x, rfl⟩ := index_surjective p h hi
  have hline : (p.mask sig).getLsbD (p.index x) = decide (x = sig) := line_mask p h x sig
  rw [hline, decide_eq_true_iff]
  exact ⟨fun heq => congrArg _ heq, fun heq => index_injective p h heq⟩

/-- Bytes agree when their lines do, and each line of an AND is that of both (R48). -/
theorem mask_and_mask (p : PinMap) (h : p.ok = true) {a b : Signal} (hab : a ≠ b) : p.mask a &&& p.mask b = 0 := by
  apply eq_of_lines p h
  intro sig
  have hand : line p sig (p.mask a &&& p.mask b) = (line p sig (p.mask a) && line p sig (p.mask b)) := BitVec.getLsbD_and
  rw [hand, line_mask p h, line_mask p h]
  by_cases ha : sig = a
  · subst ha
    simp [hab, line]
  · simp [ha, line]

/-- The lines of the union of the masks are all high. -/
theorem masks_union (p : PinMap) (h : p.ok = true) :
    p.mask .rs ||| p.mask .rw ||| p.mask .e ||| p.mask .bl ||| p.mask .d4 ||| p.mask .d5 ||| p.mask .d6 ||| p.mask .d7
      = 0xFF#8 := by
  apply eq_of_lines p h
  intro sig
  have hff : line p sig 0xFF#8 = true := by
    have hle := index_le p h sig
    have hall : ∀ i ≤ 7, (0xFF#8).getLsbD i = true := by decide
    exact hall _ hle
  rw [hff]
  simp only [line_or, line_mask p h]
  cases sig <;> rfl

/-- The bits of `M_DATA` are those of the four data signals. -/
theorem getLsbD_dataMask (p : PinMap) (h : p.ok = true) {i : Nat} (hi : i < 8) :
    p.dataMask.getLsbD i = decide (i ∈ [Signal.d4, .d5, .d6, .d7].map p.index) := by
  obtain ⟨sig, rfl⟩ := index_surjective p h hi
  have hline : p.dataMask.getLsbD (p.index sig) = line p sig p.dataMask := rfl
  have hinj : Function.Injective p.index := fun a b heq => index_injective p h heq
  rw [hline, decide_eq_decide.2 (List.mem_map_of_injective hinj)]
  simp only [PinMap.dataMask, line_or, line_mask p h]
  cases sig <;> rfl

theorem countP_dataMask (p : PinMap) (h : p.ok = true) :
    (List.range 8).countP (fun i => p.dataMask.getLsbD i) = 4 := by
  have hinj : Function.Injective p.index := fun a b heq => index_injective p h heq
  have hnodup : ([Signal.d4, .d5, .d6, .d7].map p.index).Nodup := List.Nodup.map hinj (by decide)
  have hsub : ([Signal.d4, .d5, .d6, .d7].map p.index) ⊆ List.range 8 := by
    intro i hi
    obtain ⟨sig, -, rfl⟩ := List.mem_map.1 hi
    exact List.mem_range.2 (Nat.lt_succ_of_le (index_le p h sig))
  have hfilter : (List.range 8).filter (fun i => p.dataMask.getLsbD i) =
      (List.range 8).filter (fun i => decide (i ∈ [Signal.d4, .d5, .d6, .d7].map p.index)) :=
    List.filter_congr fun i hi => getLsbD_dataMask p h (List.mem_range.1 hi)
  rw [List.countP_eq_length_filter, hfilter]
  have hperm : ((List.range 8).filter fun i => decide (i ∈ [Signal.d4, .d5, .d6, .d7].map p.index)).Perm
      ([Signal.d4, .d5, .d6, .d7].map p.index) := by
    refine (List.perm_ext_iff_of_nodup (List.nodup_range.filter _) hnodup).2 fun i => ?_
    rw [List.mem_filter, decide_eq_true_iff]
    exact ⟨And.right, fun hi => ⟨hsub hi, hi⟩⟩
  exact hperm.length_eq

/-- Settles O2: a checked mapping is a bijection of signals and bits, so masks are told apart by their lines. -/
theorem masksPartitionTheByte : Obligations.MasksPartitionTheByte := by
  intro p h
  exact ⟨fun sig => rfl, fun sig i hi => getLsbD_mask p h sig hi, fun a b hab => mask_and_mask p h hab, masks_union p h,
    rfl, countP_dataMask p h⟩

end Sys2Proof

namespace Sys2Proof.Machine

/-! ### Reset (R26, R129, R142) -/

/-- Settles O3: both are the one record of reset values. -/
theorem resetLeavesTheSpecValues : Obligations.ResetLeavesTheSpecValues :=
  ⟨⟨rfl, rfl, rfl, rfl, rfl, rfl, rfl⟩, fun _ => ⟨rfl, rfl, rfl, rfl, rfl, rfl, rfl, rfl, rfl, rfl⟩⟩

/-- What a state of this configuration becomes by a reset. -/
theorem doReset_registers {s t : State} (h : t.cfg = s.cfg) : ResetRegisters s (doReset t) :=
  (doReset_resetWith h).1

/-- The step that obeys a reset leaves the reset registers and the ports as they were. -/
theorem obeyReset_registers (d : Bool) (s : State) :
    ResetRegisters s (obeyReset d s) ∧ (obeyReset d s).cmds = s.cmds ∧ (obeyReset d s).rst = .low := by
  obtain ⟨hcfg, -, hcmds, -, hrst, -⟩ := cutOutside_frame d { s with rst := .low }
  exact ⟨doReset_registers hcfg, hcmds, hrst⟩

/-- Settles O4: a reset wins by `step_rst`, and a busy block does the next element, which takes no word. -/
theorem resetWinsAndBusyGatesThePort : Obligations.ResetWinsAndBusyGatesThePort := by
  constructor
  · intro s d hcfg hrst
    exact ⟨obeyReset d s, step_rst s d hcfg hrst, obeyReset_registers d s⟩
  · intro s hrst hbusy t hstep
    obtain ⟨-, rfl⟩ := eq_advance_of_step hrst hbusy hstep
    exact (advance_untouched_chars s).2.1

/-- The LCD's record after a byte that may have been delivered (R86, R143). -/
theorem deliverIf_latched (d : Bool) (b : Byte) (s : State) :
    (deliverIf d b s).latched = s.latched ++ (if d then latchesOf s.cfg.pins s.xp [b] else []) := by
  cases d with
  | false => exact (List.append_nil _).symm
  | true => simp [deliverIf, latchesOf]

/-- Settles O50, by what the reset meets outside: a write on the port, a running delay, or neither. -/
theorem resetMayCutAHeldCommand : Obligations.ResetMayCutAHeldCommand := by
  intro s d hcfg hrst
  refine ⟨obeyReset d s, step_rst s d hcfg hrst, (obeyReset_registers d s).1, ?_⟩
  have hport : txPort { s with rst := .low } = txPort s := rfl
  obtain ⟨ms, n, -, hwrite, hcut⟩ | ⟨x, ms, n, -, hnone, hcut⟩ | ⟨hnone, hcut⟩ := cutOutside_cases d { s with rst := .low }
  · rw [hport] at hwrite
    constructor
    · intro r hr
      obtain rfl : commitRequest s = r := Option.some.inj (hwrite.symm.trans hr)
      simp [obeyReset, hcut, commitRequest, deliverIf_latched]
    · intro hnone
      exact absurd (hwrite.symm.trans hnone) (Option.some_ne_none _)
  · rw [hport] at hnone
    exact ⟨fun r hr => absurd (hr.symm.trans hnone) (Option.some_ne_none _), fun _ => by simp [obeyReset, hcut]⟩
  · rw [hport] at hnone
    exact ⟨fun r hr => absurd (hr.symm.trans hnone) (Option.some_ne_none _), fun _ => by simp [obeyReset, hcut]⟩

end Sys2Proof.Machine
end

section
/-! PROOFS. One step (10_state.md section 3, 20_memory.md): each answer to a write or a delay, and the next element of a
command in progress. -/

namespace Sys2Proof.Machine

/-! ### A write and a delay on each answer (R31, R160, R162) -/

/-- A write answered at once, in a state of its events (R70). -/
theorem commit_of_head {s : State} (h : s.txAnswers.head? = none ∨ s.txAnswers.head? = some .done) :
    commit s = .fin (after [.tx s.or] s) := by
  rw [commit_eq]
  rcases hs : s.txAnswers with _ | ⟨a, as⟩
  · simp [after, record, deliver, eventBytes, latchesOf, writes, delays, hs]
  · obtain rfl : a = .done := by simpa [hs] using h
    simp [after, record, deliver, eventBytes, latchesOf, writes, delays, hs]

theorem commit_pending {s : State} {as : List TxAnswer} (h : s.txAnswers = .pending :: as) :
    commit s = .held [.commit] { s with txAnswers := as } := by
  rw [commit_eq, h]

theorem commit_never {s : State} {as : List TxAnswer} (h : s.txAnswers = .never :: as) :
    commit s = .held [.commit] s := by
  rw [commit_eq, h]

theorem waitDelay_of_head {x : Nat} {s : State}
    (h : s.delayAnswers.head? = none ∨ s.delayAnswers.head? = some .elapsed) :
    waitDelay x s = .fin (after [.delay x] s) := by
  rw [waitDelay]
  rcases hs : s.delayAnswers with _ | ⟨a, as⟩
  · simp [after, record, eventBytes, latchesOf, writes, delays, hs]
  · obtain rfl : a = .elapsed := by simpa [hs] using h
    simp [after, record, eventBytes, latchesOf, writes, delays, hs]

theorem waitDelay_pending (x : Nat) {s : State} {ds : List DelayAnswer} (h : s.delayAnswers = .pending :: ds) :
    waitDelay x s = .held [.delay x] { s with delayAnswers := ds } := by
  rw [waitDelay, h]

theorem waitDelay_never (x : Nat) {s : State} {ds : List DelayAnswer} (h : s.delayAnswers = .never :: ds) :
    waitDelay x s = .held [.delay x] s := by
  rw [waitDelay, h]

/-- Settles O8: the equations of `commit`, answer by answer. -/
theorem commitOnEachAnswer : Obligations.CommitOnEachAnswer := by
  intro s as
  refine ⟨fun h => ⟨_, commit_done s h, rfl, rfl, rfl, rfl⟩, fun d h => ⟨_, commit_err s h, ?_, ?_, ?_, ?_⟩,
    commit_pending, commit_never, fun d h => ⟨_, commit_reset s h, ?_, ?_, ?_⟩⟩
  · simp
  · simp
  · simp
  · simp
  · simp
  · simp
  · simp

/-! ### The text after a failure (R117) -/

/-- Discarding the rest of the announced text, `j` bytes of it already taken, is what `FailedWithText` says of all of it. -/
theorem drainText_failedWithText {n j : Nat} {s u : State} (hn : j ≤ n) (hlen : j ≤ s.txt.length)
    (htxt : u.txt = s.txt.drop j) (hstatus : u.status = s.status) : FailedWithText n s (drainText (n - j) u) := by
  have hrest : u.txt.length = s.txt.length - j := by rw [htxt, List.length_drop]
  rw [drainText_spec, FailedWithText, hrest]
  by_cases h : n ≤ s.txt.length
  · rw [if_pos h, if_pos (by omega)]
    refine ⟨rfl, rfl, rfl, ?_⟩
    rw [raise_txt, htxt, List.drop_drop, Nat.add_sub_cancel' hn]
  · rw [if_neg h, if_neg (by omega)]
    exact ⟨hstatus, rfl, congrArg Seq.drain (by omega), rfl⟩

/-! ### Instructions of an idle block -/

/-- Settles O22. -/
theorem stepRunsTheDecodedCommand : Obligations.StepRunsTheDecodedCommand :=
  ⟨fun s _ _ _ hcfg hrst hbusy hcmds hd => step_decoded s hcfg hrst hbusy hcmds hd,
    fun s hcfg hrst hbusy hcmds => step_waiting s hcfg hrst hbusy hcmds⟩

/-! ### Elements of a busy block (R22) -/

/-- An LCD item is its frame, done by itself (R53; log 14). -/
theorem exec_of_itemFrame {s : State} {i : Instr} {m : Micro} (h : itemFrame s.cfg i = some m) :
    exec i s = .next (perform m s) := by
  cases i with
  | init | blon | bloff | dispon | dispoff | curmode | clear | wrtext => cases h
  | lcdWake | lcdSet4bit | lcdFunctionSet | lcdClearDisplay | lcdDisplayControl | lcdSetCursorAddress | lcdCharacter =>
    cases h; rfl

/-- Settles O23, by the cases of the next element. -/
theorem stepRunsTheNextElement : Obligations.StepRunsTheNextElement := by
  intro s hcfg hrst hbusy
  rw [step_busy s hcfg hrst hbusy]
  refine ⟨fun m ms n i hseq hitem => ?_, fun n b bs hseq htxt => ?_, fun n hseq htxt => ?_, fun hseq => ?_,
    fun n hseq hn => ?_, fun n hseq hn => ?_⟩
  · rw [advance_of_cons hseq, exec_of_itemFrame (s := { s with seq := .run ms n }) hitem]
  · rw [advance_of_char hseq htxt]; rfl
  · rw [advance_of_wait hseq htxt]
  · rw [advance_of_done hseq]; rfl
  · rw [advance_of_drain hseq, drainText_spec, if_pos hn]; rfl
  · rw [advance_of_drain hseq, drainText_spec, if_neg (Nat.not_le_of_lt hn), ← hbusy]

/-! ### A primitive action at the head of `SEQ` -/

theorem runMicro_prim (p : Prim) (s : State) : runMicro (.prim p) s = runPrim p s := runPrims_singleton p s

/-- The step of a busy block with an action at the head of `SEQ` is that action, concluded with the rest. -/
theorem step_prim {s : State} {p : Prim} {ms : List Micro} {n : Nat} (hcfg : CfgOk s) (hrst : s.rst = .low)
    (hbusy : s.busy = true) (hseq : s.seq = .run (.prim p :: ms) n) :
    step s = .next (conclude ms n id (runPrim p { s with seq := .run ms n })) := by
  rw [step_busy s hcfg hrst hbusy, advance_of_cons hseq, perform, runMicro_prim]
  rfl

/-- Holding the element at the head of `SEQ` puts `SEQ` back as it was. -/
theorem hold_eq {s : State} {q : Seq} (hbusy : s.busy = true) (hseq : s.seq = q) :
    ({ s with busy := true, seq := q } : State) = s := by
  subst hseq
  rw [← hbusy]

theorem step_commit_pending {s : State} {ms : List Micro} {n : Nat} {as : List TxAnswer} (hcfg : CfgOk s)
    (hrst : s.rst = .low) (hbusy : s.busy = true) (hseq : s.seq = .run (.prim .commit :: ms) n)
    (ha : s.txAnswers = .pending :: as) : step s = .next { s with txAnswers := as } := by
  rw [step_prim hcfg hrst hbusy hseq, runPrim, commit_pending (s := { s with seq := .run ms n }) ha]
  exact congrArg _ (hold_eq (s := { s with txAnswers := as }) hbusy hseq)

theorem step_commit_never {s : State} {ms : List Micro} {n : Nat} {as : List TxAnswer} (hcfg : CfgOk s)
    (hrst : s.rst = .low) (hbusy : s.busy = true) (hseq : s.seq = .run (.prim .commit :: ms) n)
    (ha : s.txAnswers = .never :: as) : step s = .next s := by
  rw [step_prim hcfg hrst hbusy hseq, runPrim, commit_never (s := { s with seq := .run ms n }) ha]
  exact congrArg _ (hold_eq hbusy hseq)

theorem step_delay_pending {s : State} {x : Nat} {ms : List Micro} {n : Nat} {ds : List DelayAnswer} (hcfg : CfgOk s)
    (hrst : s.rst = .low) (hbusy : s.busy = true) (hseq : s.seq = .run (.prim (.delay x) :: ms) n)
    (ha : s.delayAnswers = .pending :: ds) : step s = .next { s with delayAnswers := ds } := by
  rw [step_prim hcfg hrst hbusy hseq, runPrim, waitDelay_pending x (s := { s with seq := .run ms n }) ha]
  exact congrArg _ (hold_eq (s := { s with delayAnswers := ds }) hbusy hseq)

theorem step_delay_never {s : State} {x : Nat} {ms : List Micro} {n : Nat} {ds : List DelayAnswer} (hcfg : CfgOk s)
    (hrst : s.rst = .low) (hbusy : s.busy = true) (hseq : s.seq = .run (.prim (.delay x) :: ms) n)
    (ha : s.delayAnswers = .never :: ds) : step s = .next s := by
  rw [step_prim hcfg hrst hbusy hseq, runPrim, waitDelay_never x (s := { s with seq := .run ms n }) ha]
  exact congrArg _ (hold_eq hbusy hseq)

/-- A failing write at the head of `SEQ` (R121, R130, R117). -/
theorem step_commit_err {s : State} {ms : List Micro} {n : Nat} {d : Bool} {as : List TxAnswer} (hcfg : CfgOk s)
    (hrst : s.rst = .low) (hbusy : s.busy = true) (hseq : s.seq = .run (.prim .commit :: ms) n)
    (ha : s.txAnswers = .err d :: as) :
    ∃ t, step s = .next t ∧ t.trace = s.trace ++ [.txFail s.or] ∧ t.or = s.or ∧ t.xp = (if d then s.or else s.xp) ∧
      FailedWithText n s t := by
  have hstep := step_prim hcfg hrst hbusy hseq
  rw [runPrim, commit_err { s with seq := .run ms n } ha, conclude_err] at hstep
  obtain ⟨hor, hxp, -, htrace, -, -⟩ := drainText_outside n
    (record (.txFail s.or) (deliverIf d s.or { s with seq := .run ms n, txAnswers := as }))
  refine ⟨_, hstep, htrace.trans (by simp), hor.trans (by simp), hxp.trans (by simp), ?_⟩
  exact drainText_failedWithText (j := 0) (Nat.zero_le _) (Nat.zero_le _) (by simp) (by simp)

/-- Settles O47, action by action and answer by answer. -/
theorem stepRunsThePrimitiveAction : Obligations.StepRunsThePrimitiveAction := by
  intro s ms n hcfg hrst hbusy
  refine ⟨fun sig level hseq => step_prim hcfg hrst hbusy hseq, fun x hseq => step_prim hcfg hrst hbusy hseq,
    fun f hseq => step_prim hcfg hrst hbusy hseq, fun v hseq => step_prim hcfg hrst hbusy hseq, fun hseq => ?_,
    fun x hseq => ?_⟩
  · refine ⟨fun h => ?_, fun d h => step_commit_err hcfg hrst hbusy hseq (List.eq_cons_of_mem_head? h),
      fun h => step_commit_pending hcfg hrst hbusy hseq (List.eq_cons_of_mem_head? h),
      fun h => step_commit_never hcfg hrst hbusy hseq (List.eq_cons_of_mem_head? h), fun d h => ?_⟩
    · rw [step_prim hcfg hrst hbusy hseq, runPrim, commit_of_head (s := { s with seq := .run ms n }) h]
      rfl
    · refine ⟨_, step_prim hcfg hrst hbusy hseq, ?_⟩
      rw [runPrim, commit_reset { s with seq := .run ms n } (List.eq_cons_of_mem_head? h), conclude_rst]
      exact ⟨doReset_registers (by simp), by simp⟩
  · refine ⟨fun h => ?_, fun h => step_delay_pending hcfg hrst hbusy hseq (List.eq_cons_of_mem_head? h),
      fun h => step_delay_never hcfg hrst hbusy hseq (List.eq_cons_of_mem_head? h), fun h => ?_⟩
    · rw [step_prim hcfg hrst hbusy hseq, runPrim, waitDelay_of_head (s := { s with seq := .run ms n }) h]
      rfl
    · refine ⟨_, step_prim hcfg hrst hbusy hseq, ?_⟩
      rw [runPrim, waitDelay_reset x { s with seq := .run ms n } (List.eq_cons_of_mem_head? h), conclude_rst]
      exact ⟨doReset_registers rfl, rfl⟩

/-- Settles O40: INIT's first two actions are the write of `FSM` and the delay that holds it (R89, R96). -/
theorem initFirstMakesFsmUnknown : Obligations.InitFirstMakesFsmUnknown := by
  intro s ds hd
  have hexec := exec_hostSequence_init s
  rw [runCommand, initProgram, List.append_assoc, List.cons_append, runOps_cons, runMicro_fsm, conclude_fin,
    List.cons_append, runOps_cons, runMicro_prim, runPrim,
    waitDelay_pending _ (s := { accept s with fsm := .unknown }) hd] at hexec
  exact ⟨_, hexec, rfl, rfl, rfl, rfl, rfl, rfl, rfl⟩

end Sys2Proof.Machine
end

section
/-! PROOFS. Runs of host commands: what a sequence of actions does when the outside answers, and where a command stands when
a write fails, is held or is never answered (60_exceptions.md, 41_byte_transfer.md). -/

namespace Sys2Proof.Machine

/-! ### Planned events, part by part (R30, R166) -/

/-- Whether an action waits for a delay. -/
def isDelay : Prim → Bool
  | .delay _ => true
  | .drive _ _ => false
  | .driveData _ => false
  | .commit => false
  | .fsm _ => false
  | .baseline _ => false

theorem writes_plannedPrims (p : PinMap) (ps : List Prim) (o : Byte) :
    writes (plannedPrims p ps o) = ps.countP (· == .commit) := by
  induction ps generalizing o with
  | nil => rfl
  | cons a ps ih => cases a <;> simp [plannedPrims, writes, ih]

theorem delays_plannedPrims (p : PinMap) (ps : List Prim) (o : Byte) :
    delays (plannedPrims p ps o) = ps.countP isDelay := by
  induction ps generalizing o with
  | nil => rfl
  | cons a ps ih => cases a <;> simp [plannedPrims, delays, isDelay, List.countP_cons, ih]

theorem plannedPrims_append (p : PinMap) (ps qs : List Prim) (o : Byte) :
    plannedPrims p (ps ++ qs) o = plannedPrims p ps o ++ plannedPrims p qs (endOr p ps o) := by
  induction ps generalizing o with
  | nil => rfl
  | cons a ps ih => cases a <;> simp [plannedPrims, endOr, ih]

theorem noFailure_plannedPrims (p : PinMap) (ps : List Prim) (o : Byte) : NoFailure (plannedPrims p ps o) := by
  induction ps generalizing o with
  | nil => exact fun b => List.not_mem_nil
  | cons a ps ih =>
    intro b
    cases a <;> simpa [plannedPrims] using ih _ b

/-! ### Events cut at one of them (R130) -/

theorem length_eventBytes (es : List Event) : (eventBytes es).length = writes es := by
  induction es with
  | nil => rfl
  | cons e es ih => cases e <;> simp [eventBytes, writes, ih]

theorem NoFailure.of_cons {e : Event} {es : List Event} (h : NoFailure (e :: es)) : NoFailure es :=
  fun b hb => h b (List.mem_cons_of_mem _ hb)

theorem failAt_append {es : List Event} (h : NoFailure es) (b : Byte) (fs : List Event) :
    failAt (writes es) (es ++ .tx b :: fs) = es ++ [.txFail b] := by
  induction es with
  | nil => rfl
  | cons e es ih =>
    have hrest := ih h.of_cons
    cases e with
    | tx c => simpa [writes, failAt] using hrest
    | txFail c => exact absurd List.mem_cons_self (h c)
    | delay t => simpa [writes, failAt] using hrest

theorem beforeWrite_append {es : List Event} (h : NoFailure es) (b : Byte) (fs : List Event) :
    beforeWrite (writes es) (es ++ .tx b :: fs) = es := by
  induction es with
  | nil => rfl
  | cons e es ih =>
    have hrest := ih h.of_cons
    cases e with
    | tx c => simpa [writes, beforeWrite] using hrest
    | txFail c => exact absurd List.mem_cons_self (h c)
    | delay t => simpa [writes, beforeWrite] using hrest

theorem beforeDelay_append (es : List Event) (t : Nat) (fs : List Event) :
    beforeDelay (delays es) (es ++ .delay t :: fs) = es := by
  induction es with
  | nil => rfl
  | cons e es ih => cases e <;> simpa [delays, beforeDelay] using ih

/-! ### Actions that are all done (R37, R38) -/

/-- `FSM`, `DS` and `DSV` after actions that were all done, the three being `r` before them. -/
def endRegs : List Prim → Fsm × Byte × Bool → Fsm × Byte × Bool
  | [], r => r
  | .drive _ _ :: ps, r => endRegs ps r
  | .driveData _ :: ps, r => endRegs ps r
  | .commit :: ps, r => endRegs ps r
  | .delay _ :: ps, r => endRegs ps r
  | .fsm f :: ps, r => endRegs ps (f, r.2)
  | .baseline v :: ps, r => endRegs ps (r.1, v, true)

/-- `s` after the actions `ps`, every write and delay of which was met at once. -/
def afterActions (ps : List Prim) (s : State) : State :=
  { after (plannedPrims s.cfg.pins ps s.or) s with
    or := endOr s.cfg.pins ps s.or
    fsm := (endRegs ps (s.fsm, s.ds, s.dsv)).1
    ds := (endRegs ps (s.fsm, s.ds, s.dsv)).2.1
    dsv := (endRegs ps (s.fsm, s.ds, s.dsv)).2.2 }

/-- The answers to come begin with as many *done* and *elapsed* as `ps` has writes and delays. -/
def AnswersAll (ps : List Prim) (s : State) : Prop :=
  (∀ a ∈ s.txAnswers.take (ps.countP (· == .commit)), a = .done) ∧
  (∀ a ∈ s.delayAnswers.take (ps.countP isDelay), a = .elapsed)

/-- The first entry of a list all of whose first `n + 1` are `a`. -/
theorem head?_of_take_succ {α : Type} {l : List α} {n : Nat} {a : α} (h : ∀ x ∈ l.take (n + 1), x = a) :
    l.head? = none ∨ l.head? = some a := by
  cases l with
  | nil => exact .inl rfl
  | cons x l => exact .inr (congrArg some (h x (by simp)))

theorem forall_take_drop {α : Type} {l : List α} {n : Nat} {a : α} (h : ∀ x ∈ l.take (n + 1), x = a) :
    ∀ x ∈ (l.drop 1).take n, x = a := by
  cases l with
  | nil => simp
  | cons y l => exact fun x hx => h x (List.mem_cons_of_mem _ hx)

/-- The run of actions whose every write and delay is answered at once. -/
theorem runPrims_answered (ps : List Prim) {s : State} (h : AnswersAll ps s) :
    runPrims ps s = .fin (afterActions ps s) := by
  induction ps generalizing s with
  | nil => simp [afterActions, plannedPrims, endOr, endRegs]
  | cons p ps ih =>
    obtain ⟨htx, hdelay⟩ := h
    have hcons (e : Event) : after (e :: plannedPrims s.cfg.pins ps s.or) s =
        after (plannedPrims s.cfg.pins ps s.or) (after [e] s) := after_append [e] _ s
    cases p with
    | drive sig l => exact ih (s := { s with or := driven s.cfg.pins sig l s.or }) ⟨htx, hdelay⟩
    | driveData n => exact ih (s := { s with or := drivenData s.cfg.pins n s.or }) ⟨htx, hdelay⟩
    | fsm f => exact ih (s := { s with fsm := f }) ⟨htx, hdelay⟩
    | baseline v => exact ih (s := { s with ds := v, dsv := true }) ⟨htx, hdelay⟩
    | commit =>
      rw [List.countP_cons_of_pos rfl] at htx
      rw [runPrims, runPrim, commit_of_head (head?_of_take_succ htx)]
      refine (ih (s := after [.tx s.or] s) ⟨forall_take_drop htx, hdelay⟩).trans ?_
      simp only [afterActions, plannedPrims, hcons]
      rfl
    | delay x =>
      rw [List.countP_cons_of_pos rfl] at hdelay
      rw [runPrims, runPrim, waitDelay_of_head (head?_of_take_succ hdelay)]
      refine (ih (s := after [.delay x] s) ⟨htx, forall_take_drop hdelay⟩).trans ?_
      simp only [afterActions, plannedPrims, hcons]
      rfl

/-! ### A run up to one of its writes or delays -/

/-- A list is cut before the entry number `k` (from 0) that has a property. -/
theorem exists_split_of_lt_countP {α : Type} (f : α → Bool) (l : List α) {k : Nat} (h : k < l.countP f) :
    ∃ l₁ x l₂, l = l₁ ++ x :: l₂ ∧ f x = true ∧ l₁.countP f = k := by
  induction l generalizing k with
  | nil => simp at h
  | cons y l ih =>
    by_cases hy : f y = true
    · cases k with
      | zero => exact ⟨[], y, l, rfl, hy, rfl⟩
      | succ k =>
        rw [List.countP_cons_of_pos hy] at h
        obtain ⟨l₁, x, l₂, rfl, hx, hk⟩ := ih (Nat.lt_of_succ_lt_succ h)
        exact ⟨y :: l₁, x, l₂, rfl, hx, by rw [List.countP_cons_of_pos hy, hk]⟩
    · rw [List.countP_cons_of_neg hy] at h
      obtain ⟨l₁, x, l₂, rfl, hx, hk⟩ := ih h
      exact ⟨y :: l₁, x, l₂, rfl, hx, by rw [List.countP_cons_of_neg hy, hk]⟩

/-- `u` is what `s` has become, of a run that plans `es`, when write number `k` is about to be made. -/
structure BeforeWrite (k : Nat) (es : List Event) (s u : State) : Prop where
  trace : u.trace = s.trace ++ beforeWrite k es
  fails : failAt k es = beforeWrite k es ++ [.txFail u.or]
  byte : (eventBytes es)[k]? = some u.or
  xp : u.xp = ((eventBytes es).take k).getLastD s.xp

/-- When the first `k` writes and the delays before it are answered at once, the run comes to write number `k`. -/
theorem runPrims_to_write {ps : List Prim} {k : Nat} {s : State} {as : List TxAnswer}
    (hk : k < writes (plannedPrims s.cfg.pins ps s.or)) (ha : s.txAnswers = List.replicate k .done ++ as)
    (hd : ∀ a ∈ s.delayAnswers.take (delays (plannedPrims s.cfg.pins ps s.or)), a = .elapsed) :
    ∃ rs u, runPrims ps s = runPrims (.commit :: rs) u ∧ u.txAnswers = as ∧
      BeforeWrite k (plannedPrims s.cfg.pins ps s.or) s u := by
  rw [writes_plannedPrims] at hk
  obtain ⟨qs, c, rs, rfl, hc, hqs⟩ := exists_split_of_lt_countP _ ps hk
  obtain rfl : c = .commit := eq_of_beq hc
  have hplan := plannedPrims_append s.cfg.pins qs (.commit :: rs) s.or
  have hwrites : writes (plannedPrims s.cfg.pins qs s.or) = k := by rw [writes_plannedPrims, hqs]
  have hlength : (eventBytes (plannedPrims s.cfg.pins qs s.or)).length = k := by rw [length_eventBytes, hwrites]
  have hnone := noFailure_plannedPrims s.cfg.pins qs s.or
  have hmet : AnswersAll qs s := by
    constructor
    · rw [hqs, ha, List.take_left' List.length_replicate]
      exact fun a => List.eq_of_mem_replicate
    · refine fun a h => hd a (List.take_subset_take_left _ ?_ h)
      rw [delays_plannedPrims, List.countP_append]
      exact Nat.le_add_right _ _
  rw [plannedPrims] at hplan
  refine ⟨rs, afterActions qs s, by rw [runPrims_append, runPrims_answered qs hmet], ?_, ?_, ?_, ?_, ?_⟩
  · simp [afterActions, hwrites, ha]
  · rw [hplan, ← hwrites, beforeWrite_append hnone]
    rfl
  · rw [hplan, ← hwrites, beforeWrite_append hnone, failAt_append hnone]
    rfl
  · rw [hplan, eventBytes_append, List.getElem?_append_right hlength.le, hlength, Nat.sub_self]
    rfl
  · rw [hplan, eventBytes_append, List.take_left' hlength]
    rfl

/-- When the writes before it and the first `k` delays are answered at once, the run comes to delay number `k`. -/
theorem runPrims_to_delay {ps : List Prim} {k : Nat} {s : State} {ds : List DelayAnswer}
    (hk : k < delays (plannedPrims s.cfg.pins ps s.or)) (hd : s.delayAnswers = List.replicate k .elapsed ++ ds)
    (ha : ∀ a ∈ s.txAnswers, a = .done) :
    ∃ x rs u, runPrims ps s = runPrims (.delay x :: rs) u ∧ u.delayAnswers = ds ∧
      u.trace = s.trace ++ beforeDelay k (plannedPrims s.cfg.pins ps s.or) := by
  rw [delays_plannedPrims] at hk
  obtain ⟨qs, c, rs, rfl, hc, hqs⟩ := exists_split_of_lt_countP _ ps hk
  obtain ⟨x, rfl⟩ : ∃ x, c = .delay x := by
    cases c with
    | delay x => exact ⟨x, rfl⟩
    | drive | driveData | commit | fsm | baseline => cases hc
  have hplan := plannedPrims_append s.cfg.pins qs (.delay x :: rs) s.or
  have hdelays : delays (plannedPrims s.cfg.pins qs s.or) = k := by rw [delays_plannedPrims, hqs]
  have hmet : AnswersAll qs s := by
    constructor
    · exact fun a h => ha a (List.mem_of_mem_take h)
    · rw [hqs, hd, List.take_left' List.length_replicate]
      exact fun a => List.eq_of_mem_replicate
  rw [plannedPrims] at hplan
  refine ⟨x, rs, afterActions qs s, by rw [runPrims_append, runPrims_answered qs hmet], ?_, ?_⟩
  · simp [afterActions, hdelays, hd]
  · rw [hplan, ← hdelays, beforeDelay_append]
    rfl

/-- A run whose write number `k` fails ends there; nothing is rolled back (R121, R130). -/
theorem runPrims_fails_at {ps : List Prim} {k : Nat} {s : State} {d : Bool} {as : List TxAnswer}
    (hk : k < writes (plannedPrims s.cfg.pins ps s.or)) (ha : s.txAnswers = List.replicate k .done ++ .err d :: as)
    (hd : ∀ a ∈ s.delayAnswers.take (delays (plannedPrims s.cfg.pins ps s.or)), a = .elapsed) :
    ∃ t, runPrims ps s = .err t ∧ t.trace = s.trace ++ failAt k (plannedPrims s.cfg.pins ps s.or) ∧
      some t.or = (eventBytes (failAt k (plannedPrims s.cfg.pins ps s.or))).getLast? ∧
      t.xp = (if d then t.or else ((eventBytes (plannedPrims s.cfg.pins ps s.or)).take k).getLastD s.xp) ∧
      t.txAnswers = as := by
  obtain ⟨rs, u, hrun, hans, h⟩ := runPrims_to_write hk ha hd
  rw [runPrims, runPrim, commit_err u hans] at hrun
  refine ⟨_, hrun, ?_, ?_, ?_, by simp⟩
  · simp [h.fails, h.trace]
  · simp [h.fails, eventBytes_append, eventBytes]
  · rw [← h.xp]
    simp

/-- A run whose write number `k` is not answered yet, or never, is held before it (R127, R162). -/
theorem runPrims_held_at_write {ps : List Prim} {k : Nat} {s : State} {a : TxAnswer} {as : List TxAnswer}
    (hk : k < writes (plannedPrims s.cfg.pins ps s.or)) (ha : s.txAnswers = List.replicate k .done ++ a :: as)
    (hpending : a = .pending ∨ a = .never)
    (hd : ∀ a ∈ s.delayAnswers.take (delays (plannedPrims s.cfg.pins ps s.or)), a = .elapsed) :
    ∃ rs t, runPrims ps s = .held (.commit :: rs) t ∧ BeforeWrite k (plannedPrims s.cfg.pins ps s.or) s t ∧
      t.txAnswers = (if a = .pending then as else .never :: as) := by
  obtain ⟨rs, u, hrun, hans, h⟩ := runPrims_to_write hk ha hd
  rcases hpending with rfl | rfl
  · rw [runPrims, runPrim, commit_pending hans] at hrun
    exact ⟨rs, _, hrun, ⟨h.trace, h.fails, h.byte, h.xp⟩, rfl⟩
  · rw [runPrims, runPrim, commit_never hans] at hrun
    exact ⟨rs, u, hrun, h, hans⟩

/-- A run whose delay number `k` never ends is held before it (R162). -/
theorem runPrims_held_at_delay {ps : List Prim} {k : Nat} {s : State} {ds : List DelayAnswer}
    (hk : k < delays (plannedPrims s.cfg.pins ps s.or))
    (hd : s.delayAnswers = List.replicate k .elapsed ++ .never :: ds) (ha : ∀ a ∈ s.txAnswers, a = .done) :
    ∃ x rs t, runPrims ps s = .held (.delay x :: rs) t ∧
      t.trace = s.trace ++ beforeDelay k (plannedPrims s.cfg.pins ps s.or) ∧ t.delayAnswers = .never :: ds := by
  obtain ⟨x, rs, u, hrun, hans, htrace⟩ := runPrims_to_delay hk hd ha
  rw [runPrims, runPrim, waitDelay_never x hans] at hrun
  exact ⟨x, rs, u, hrun, htrace, hans⟩

/-! ### A sequence with its text is one list of actions (R22, R113, R117) -/

/-- `t` is how a command stands whose actions, `n` text bytes included, ran to `r` with `bs` on the text port at the start:
completed or waiting for text; the rest of its text discarded; held in `SEQ`; or reset. -/
def Ends (n : Nat) (bs : List Byte) : Res → State → Prop
  | .fin u, t => t = if n ≤ bs.length then complete .ok { u with txt := bs.drop n }
      else { u with txt := [], seq := .run [] (n - bs.length) }
  | .err u, t => ∃ j, j ≤ n ∧ j ≤ bs.length ∧ t = drainText (n - j) { u with txt := bs.drop j }
  | .held rem u, t => ∃ p qs ms j, rem = p :: qs ∧ j ≤ n ∧ j ≤ bs.length ∧
      t = { u with txt := bs.drop j, busy := true, seq := .run (.prim p :: ms) (n - j) }
  | .rst u, t => ∃ j, t = doReset { u with txt := bs.drop j }

/-- One more text byte taken before the run. -/
theorem Ends.cons {n : Nat} {b : Byte} {bs : List Byte} {r : Res} {t : State}
    (h : Ends n bs (resMap (fun u => { u with txt := bs }) r) t) : Ends (n + 1) (b :: bs) r t := by
  cases r with
  | fin u => simpa [Ends] using h
  | err u =>
    obtain ⟨j, hn, hlen, rfl⟩ := h
    exact ⟨j + 1, Nat.succ_le_succ hn, Nat.succ_le_succ hlen, by rw [Nat.add_sub_add_right]; rfl⟩
  | held rem u =>
    obtain ⟨p, qs, ms, j, rfl, hn, hlen, rfl⟩ := h
    exact ⟨p, qs, ms, j + 1, rfl, Nat.succ_le_succ hn, Nat.succ_le_succ hlen, by rw [Nat.add_sub_add_right]; rfl⟩
  | rst u =>
    obtain ⟨j, rfl⟩ := h
    exact ⟨j + 1, rfl⟩

/-- Something is left to do of a run that is held. -/
theorem runPrims_held_cons {ps : List Prim} {s u : State} {rem : List Prim} (h : runPrims ps s = .held rem u) :
    ∃ p qs, rem = p :: qs := by
  have hcases := runPrims_cases ps s
  rw [h] at hcases
  obtain ⟨qs, -, -, -, rs, rfl | ⟨x, rfl⟩⟩ := hcases
  · exact ⟨_, _, rfl⟩
  · exact ⟨_, _, rfl⟩

/-- An element that is not done is where the run ends; else what follows it is. -/
theorem conclude_ends {m : Micro} {ms : List Micro} {n : Nat} {k : State → State} {qs : List Prim} {s : State}
    (hk : ∀ s', s'.txt = s.txt → Ends n s.txt (runPrims qs s') (k s')) :
    Ends n s.txt (runPrims (expand m ++ qs) s) (conclude ms n k (runMicro m s)) := by
  obtain ⟨-, -, htxt, -⟩ := runPrims_frame (expand m) s
  rw [runMicro, runPrims_append]
  cases hr : runPrims (expand m) s with
  | fin s' => rw [hr] at htxt; exact hk s' htxt
  | err u =>
    rw [hr] at htxt
    exact ⟨0, Nat.zero_le _, Nat.zero_le _, congrArg (drainText n) (by rw [List.drop_zero, ← htxt]; rfl)⟩
  | held rem u =>
    rw [hr] at htxt
    obtain ⟨p, rs, rfl⟩ := runPrims_held_cons hr
    refine ⟨p, rs ++ qs, asMicros rs ++ ms, 0, rfl, Nat.zero_le _, Nat.zero_le _, ?_⟩
    rw [List.drop_zero, ← htxt]
    rfl
  | rst u =>
    rw [hr] at htxt
    exact ⟨0, congrArg doReset (by rw [List.drop_zero, ← htxt]; rfl)⟩

theorem runText_ends (n : Nat) (s : State) :
    Ends n s.txt (runPrims (((s.txt.take n).map writeChar).flatMap expand) s) (runText n s) := by
  induction n generalizing s with
  | zero => simp [Ends]
  | succ n ih =>
    rw [runText]
    cases htxt : s.txt with
    | nil => simp [Ends]
    | cons b bs =>
      have hlater (s' : State) (hs' : s'.txt = bs) :
          Ends n bs (runPrims (((bs.take n).map writeChar).flatMap expand) s') (runText n s') := hs' ▸ ih s'
      have hends := conclude_ends (m := writeChar b) (ms := []) (s := { s with txt := bs }) hlater
      rw [runPrims_setTxt] at hends
      exact Ends.cons hends

/-- `runOps` is the run of all its actions, and its end. -/
theorem runOps_ends (ms : List Micro) (n : Nat) (s : State) :
    Ends n s.txt (runPrims ((ms ++ (s.txt.take n).map writeChar).flatMap expand) s) (runOps ms n s) := by
  induction ms generalizing s with
  | nil => exact runText_ends n s
  | cons m ms ih =>
    rw [List.cons_append, List.flatMap_cons]
    exact conclude_ends fun s' hs' => hs' ▸ ih s'

/-- A host command runs its elements with its text, `DS` having been written where it is a display command. -/
theorem exec_hostCommand {s : State} {i : Instr} {ms : List Micro} (h : hostSequence s i = some ms) :
    exec i s = .next (runCommand (elements s i) (textLen i) { s with ds := dsAfter s i }) ∧
      ms = elements s i ++ (s.txt.take (textLen i)).map writeChar := by
  have hdisplay {f : Byte → Byte} (hf : (if s.dsv then some [writeCmd (f s.ds)] else none) = some ms) :
      sendDisplayState f s = runCommand [writeCmd (f s.ds)] 0 { s with ds := if s.dsv then f s.ds else s.ds } ∧
        ms = [writeCmd (f s.ds)] := by
    obtain ⟨hdsv, hms⟩ := Option.ite_none_right_eq_some.1 hf
    rw [sendDisplayState_written f hdsv, if_pos hdsv]
    exact ⟨rfl, (Option.some.inj hms).symm⟩
  cases i with
  | init | blon | bloff | clear => obtain rfl := Option.some.inj h; exact ⟨rfl, by simp [textLen, elements]⟩
  | wrtext row col len => exact ⟨rfl, (Option.some.inj h).symm⟩
  | dispon | dispoff | curmode =>
    obtain ⟨hsend, hms⟩ := hdisplay h
    exact ⟨congrArg _ hsend, by rw [hms, textLen, List.take_zero]; rfl⟩
  | lcdWake | lcdSet4bit | lcdFunctionSet | lcdClearDisplay | lcdDisplayControl | lcdSetCursorAddress | lcdCharacter =>
    cases h

/-- A host command ends as the run of its sequence does. -/
theorem exec_ends {s : State} {i : Instr} {ms : List Micro} (h : hostSequence s i = some ms) :
    ∃ t, exec i s = .next t ∧
      Ends (textLen i) s.txt (runPrims (ms.flatMap expand) (accept { s with ds := dsAfter s i })) t := by
  obtain ⟨hexec, rfl⟩ := exec_hostCommand h
  exact ⟨_, hexec, runOps_ends _ _ (accept { s with ds := dsAfter s i })⟩

/-! ### Failing writes (R87, R121, R130) -/

/-- A command whose actions end in a failure keeps what the failure left and discards its text (R117). -/
theorem Ends.of_err {n : Nat} {s u t : State} (h : Ends n s.txt (.err u) t) (hstatus : u.status = s.status) :
    t.trace = u.trace ∧ t.or = u.or ∧ t.xp = u.xp ∧ t.txAnswers = u.txAnswers ∧ FailedWithText n s t := by
  obtain ⟨j, hn, hlen, rfl⟩ := h
  obtain ⟨hor, hxp, -, htrace, htx, -⟩ := drainText_outside (n - j) { u with txt := s.txt.drop j }
  exact ⟨htrace, hor, hxp, htx, drainText_failedWithText hn hlen rfl hstatus⟩

/-- Settles O35: the run of the whole sequence ends at the failing write. -/
theorem transportErrorEndsTheCommand : Obligations.TransportErrorEndsTheCommand := by
  intro s i ms k d rest hseq hdelays hanswers hk
  obtain ⟨t, hexec, hends⟩ := exec_ends hseq
  obtain ⟨u, hrun, htrace, hor, hxp, htx⟩ := runPrims_fails_at (ps := ms.flatMap expand)
    (s := accept { s with ds := dsAfter s i }) hk hanswers fun a h => hdelays a (List.mem_of_mem_take h)
  have hframe := runPrims_frame (ms.flatMap expand) (accept { s with ds := dsAfter s i })
  rw [hrun] at hends hframe
  obtain ⟨-, -, -, -, -, hstatus, -⟩ := hframe
  obtain ⟨htrace', hor', hxp', htx', hfailed⟩ := hends.of_err hstatus
  rw [← hor'] at hor hxp
  exact ⟨t, hexec, htrace'.trans htrace, hor, hxp'.trans hxp, hfailed, htx'.trans htx⟩

/-- A frame makes no delay. -/
theorem delays_of_frame {m : Micro} (hm : ∀ p, m ≠ .prim p) (p : PinMap) (o : Byte) :
    delays (plannedPrims p (expand m) o) = 0 := by
  rw [delays_plannedPrims]
  cases m with
  | prim q => exact absurd rfl (hm q)
  | nibble | byte => rfl

theorem planned_singleton (p : PinMap) (m : Micro) (o : Byte) : planned p [m] o = plannedPrims p (expand m) o := by
  rw [planned, List.flatMap_singleton]

/-- Settles O12: the frame ends at the failing write, and the command with it. -/
theorem failureStopsTheFrame : Obligations.FailureStopsTheFrame := by
  intro s m k d rest hm hanswers hk
  rw [planned_singleton] at *
  obtain ⟨u, hrun, htrace, hor, -, -⟩ := runPrims_fails_at hk hanswers (by simp [delays_of_frame hm])
  have hframe := runPrims_frame (expand m) s
  rw [hrun] at hframe
  obtain ⟨-, -, htxt, -, -, hstatus, -⟩ := hframe
  obtain ⟨hor', -, -, htrace', -, -⟩ := drainText_outside s.seq.chars u
  rw [perform, runMicro, hrun, conclude_err]
  refine ⟨htrace'.trans htrace, by rw [hor', hor], ?_⟩
  exact drainText_failedWithText (j := 0) (Nat.zero_le _) (Nat.zero_le _) htxt hstatus

/-- A display command whose send fails has written `DS` before (R105 b). -/
theorem failedSend_keepsDs {s : State} {i : Instr} {v : Byte} {k : Nat} {d : Bool} {rest : List TxAnswer}
    (hseq : hostSequence s i = some [writeCmd v]) (htext : textLen i = 0) (hk : k < 7)
    (hanswers : s.txAnswers = List.replicate k .done ++ .err d :: rest) :
    ∃ t, exec i s = .next t ∧ t.status = .transportError ∧ t.dsv = s.dsv ∧ t.ds = dsAfter s i := by
  obtain ⟨t, hexec, hends⟩ := exec_ends hseq
  rw [htext, List.flatMap_singleton] at hends
  have hframe : ∀ p, writeCmd v ≠ .prim p := fun p => Micro.noConfusion
  have hwrites (p : PinMap) (o : Byte) : writes (plannedPrims p (expand (writeCmd v)) o) = 7 := by
    rw [writes_plannedPrims]; rfl
  obtain ⟨u, hrun, -⟩ := runPrims_fails_at (ps := expand (writeCmd v)) (s := accept { s with ds := dsAfter s i })
    (by rw [hwrites]; exact hk) hanswers (by simp [delays_of_frame hframe])
  have hregs := (dsLaw (dsAfter s i) s.dsv).runPrims (expand (writeCmd v))
    (fun p hp => ne_baseline_of_keepsRegs (keepsRegs_writeByte false v p hp))
    (s := accept { s with ds := dsAfter s i }) ⟨rfl, rfl⟩
  rw [hrun] at hends hregs
  obtain ⟨hds, hdsv⟩ := hregs
  obtain ⟨j, hj, -, rfl⟩ := hends
  obtain rfl := Nat.le_zero.1 hj
  exact ⟨_, hexec, rfl, hdsv, hds⟩

/-- Settles O37: the three commands send the new `DS` after writing it. -/
theorem failedSendKeepsTheNewDs : Obligations.FailedSendKeepsTheNewDs := by
  intro s k d rest hdsv hk hanswers
  have hfails {i : Instr} {v w : Byte} (hseq : hostSequence s i = some [writeCmd v]) (htext : textLen i = 0)
      (hw : dsAfter s i = w) : ∃ t, exec i s = .next t ∧ t.status = .transportError ∧ t.dsv = true ∧ t.ds = w := by
    obtain ⟨t, hexec, hstatus, hdsv', hds⟩ := failedSend_keepsDs hseq htext hk hanswers
    exact ⟨t, hexec, hstatus, hdsv'.trans hdsv, hds.trans hw⟩
  refine ⟨hfails (if_pos hdsv) rfl ?_, hfails (if_pos hdsv) rfl ?_, fun v b => hfails (if_pos hdsv) rfl ?_⟩
  · rw [dsAfter, if_pos hdsv, dsTurnOn_eq]
  · rw [dsAfter, if_pos hdsv, dsTurnOff_eq]
  · rw [dsAfter, if_pos hdsv, dsCursorMode_eq]

end Sys2Proof.Machine
end

section
/-! PROOFS. Waiting and progress (10_state.md section 3, 70_reset_and_hazards.md section 4): a held command, an endless wait,
and the completion of every command whose outside answers. -/

namespace Sys2Proof.Machine

/-! ### Repeated steps (R22) -/

theorem coreRun_step (M : Host.Core) (k : Nat) (s : M.State) :
    M.run (k + 1) s =
      match M.step s with
      | .next t => M.run k t
      | .fault f => .fault f
      | .refused r => .refused r := rfl

theorem coreRun_succ (M : Host.Core) {s t : M.State} (h : M.step s = .next t) (k : Nat) :
    M.run (k + 1) s = M.run k t := by
  rw [coreRun_step, h]

theorem coreRun_add (M : Host.Core) {s t : M.State} {k : Nat} (h : M.run k s = .next t) (j : Nat) :
    M.run (k + j) s = M.run j t := by
  induction k generalizing s with
  | zero =>
    obtain rfl : s = t := Host.Outcome.next.inj h
    rw [Nat.zero_add]
  | succ k ih =>
    rw [Nat.succ_add_eq_add_succ, Nat.add_succ, coreRun_step]
    rw [coreRun_step] at h
    cases hs : M.step s with
    | next s' => rw [hs] at h; exact ih h
    | fault f => rw [hs] at h; cases h
    | refused r => rw [hs] at h; cases h

theorem run_succ {s t : State} (h : step s = .next t) (k : Nat) :
    Sys2Proof.core.run (k + 1) s = Sys2Proof.core.run k t := coreRun_succ Sys2Proof.core h k

/-- A step that changes nothing can be repeated. -/
theorem run_of_fixed {s : State} (h : step s = .next s) (k : Nat) : Sys2Proof.core.run k s = .next s := by
  induction k with
  | zero => rfl
  | succ k ih => rw [run_succ h, ih]

theorem CfgOk.of_cfg {s t : State} (hcfg : t.cfg = s.cfg) (h : CfgOk s) : CfgOk t := by
  simpa only [CfgOk, hcfg] using h

theorem ResetRegisters.of_cfg {s s' t : State} (hcfg : s'.cfg = s.cfg) (h : ResetRegisters s' t) :
    ResetRegisters s t := by
  simpa only [ResetRegisters, hcfg] using h

/-! ### A command that is held (R127, R162) -/

/-- A host command whose run is held before the action `p` waits with `BUSY = 1` and `p` at the head of `SEQ`. -/
theorem exec_held {s u : State} {i : Instr} {ms : List Micro} {p : Prim} {rs : List Prim}
    (hseq : hostSequence s i = some ms)
    (hrun : runPrims (ms.flatMap expand) (accept { s with ds := dsAfter s i }) = .held (p :: rs) u) :
    ∃ bs ms' n, exec i s = .next { u with txt := bs, busy := true, seq := .run (.prim p :: ms') n } ∧
      u.cfg = s.cfg ∧ u.rst = s.rst ∧ u.status = s.status := by
  obtain ⟨t, hexec, hends⟩ := exec_ends hseq
  have hframe := runPrims_frame (ms.flatMap expand) (accept { s with ds := dsAfter s i })
  rw [hrun] at hends hframe
  obtain ⟨hcfg, -, -, hrst, -, hstatus, -⟩ := hframe
  obtain ⟨q, qs, ms', j, hrem, -, -, rfl⟩ := hends
  obtain ⟨rfl, -⟩ := List.cons.inj hrem
  exact ⟨_, ms', _, hexec, hcfg, hrst, hstatus⟩

/-- Settles O39: the command is held before the write, and only a used entry of the answers tells the next steps. -/
theorem unansweredWriteHolds : Obligations.UnansweredWriteHolds := by
  intro s i ms k as hc hrst hseq hdelays hanswers hk
  obtain ⟨rs, u, hrun, hat, htx⟩ := runPrims_held_at_write (ps := ms.flatMap expand)
    (s := accept { s with ds := dsAfter s i }) hk hanswers (.inl rfl) fun a h => hdelays a (List.mem_of_mem_take h)
  obtain ⟨bs, ms', n, hexec, hcfg, hrst', hstatus⟩ := exec_held hseq hrun
  refine ⟨_, hexec, rfl, hstatus, hat.trace, hat.byte.symm, hat.xp, htx, ?_, rfl, ?_⟩
  · simp [txPort, commitRequest, hcfg]
  · rintro as' rfl
    exact step_commit_pending (hc.of_cfg hcfg) (hrst'.trans hrst) rfl rfl htx

/-- The wait for a write that is never answered goes on, whatever the host presents meanwhile (R162). -/
theorem hangs_at_write {t : State} {ms : List Micro} {n : Nat} {as : List TxAnswer} (hc : CfgOk t) (hrst : t.rst = .low)
    (hbusy : t.busy = true) (hseq : t.seq = .run (.prim .commit :: ms) n) (ha : t.txAnswers = .never :: as) (j : Nat)
    (cs : List CmdWord) (bs : List Byte) :
    Sys2Proof.core.run j { t with cmds := t.cmds ++ cs, txt := t.txt ++ bs } =
      .next { t with cmds := t.cmds ++ cs, txt := t.txt ++ bs } :=
  run_of_fixed (step_commit_never (s := { t with cmds := t.cmds ++ cs, txt := t.txt ++ bs }) hc hrst hbusy hseq ha) j

theorem hangs_at_delay {t : State} {x : Nat} {ms : List Micro} {n : Nat} {ds : List DelayAnswer} (hc : CfgOk t)
    (hrst : t.rst = .low) (hbusy : t.busy = true) (hseq : t.seq = .run (.prim (.delay x) :: ms) n)
    (ha : t.delayAnswers = .never :: ds) (j : Nat) (cs : List CmdWord) (bs : List Byte) :
    Sys2Proof.core.run j { t with cmds := t.cmds ++ cs, txt := t.txt ++ bs } =
      .next { t with cmds := t.cmds ++ cs, txt := t.txt ++ bs } :=
  run_of_fixed (step_delay_never (s := { t with cmds := t.cmds ++ cs, txt := t.txt ++ bs }) hc hrst hbusy hseq ha) j

/-- A reset ends the wait for a write that is never answered (R162). -/
theorem reset_ends_write {t : State} {ms : List Micro} {n : Nat} {as : List TxAnswer} (hc : CfgOk t)
    (hseq : t.seq = .run (.prim .commit :: ms) n) (ha : t.txAnswers = .never :: as) (d : Bool) :
    ∃ u, step { t with rst := .high d } = .next u ∧ ResetRegisters t u ∧ u.txAnswers = as ∧
      u.xp = (if d then t.or else t.xp) := by
  obtain ⟨hregs, -, -⟩ := obeyReset_registers d { t with rst := .high d }
  refine ⟨_, step_rst { t with rst := .high d } d hc rfl, hregs, ?_, ?_⟩
  · simp [obeyReset, cutOutside, hseq, ha, dropNever]
  · simp [obeyReset, cutOutside, hseq]

/-- A reset ends the wait for a delay that never ends (R162). -/
theorem reset_ends_delay {t : State} {x : Nat} {ms : List Micro} {n : Nat} {ds : List DelayAnswer} (hc : CfgOk t)
    (hseq : t.seq = .run (.prim (.delay x) :: ms) n) (ha : t.delayAnswers = .never :: ds) (d : Bool) :
    ∃ u, step { t with rst := .high d } = .next u ∧ ResetRegisters t u ∧ u.delayAnswers = ds ∧ u.xp = t.xp := by
  obtain ⟨hregs, -, -⟩ := obeyReset_registers d { t with rst := .high d }
  refine ⟨_, step_rst { t with rst := .high d } d hc rfl, hregs, ?_, ?_⟩
  · simp [obeyReset, cutOutside, hseq, ha, dropEndless]
  · simp [obeyReset, cutOutside, hseq]

/-- Settles O48: the command is held before the write or delay that never ends, whose step changes nothing. -/
theorem endlessWaitIsAHang : Obligations.EndlessWaitIsAHang := by
  intro s i ms k hc hrst hseq
  constructor
  · intro as hdelays hanswers hk
    obtain ⟨rs, u, hrun, hat, htx⟩ := runPrims_held_at_write (ps := ms.flatMap expand)
      (s := accept { s with ds := dsAfter s i }) hk hanswers (.inr rfl) fun a h => hdelays a (List.mem_of_mem_take h)
    obtain ⟨bs, ms', n, hexec, hcfg, hrst', hstatus⟩ := exec_held hseq hrun
    have hc' := hc.of_cfg hcfg
    refine ⟨_, hexec, rfl, hstatus, hat.trace, hangs_at_write hc' (hrst'.trans hrst) rfl rfl htx, fun d => ?_⟩
    obtain ⟨v, hstep, hregs, hv⟩ := reset_ends_write (t := { u with txt := bs, busy := true, seq := _ }) hc' rfl htx d
    exact ⟨v, hstep, hregs.of_cfg hcfg, hv⟩
  · intro ds hanswers hdelays hk
    obtain ⟨x, rs, u, hrun, htrace, hd⟩ := runPrims_held_at_delay (ps := ms.flatMap expand)
      (s := accept { s with ds := dsAfter s i }) hk hdelays hanswers
    obtain ⟨bs, ms', n, hexec, hcfg, hrst', hstatus⟩ := exec_held hseq hrun
    have hc' := hc.of_cfg hcfg
    refine ⟨_, hexec, rfl, hstatus, htrace, hangs_at_delay hc' (hrst'.trans hrst) rfl rfl hd, fun d => ?_⟩
    obtain ⟨v, hstep, hregs, hv⟩ := reset_ends_delay (t := { u with txt := bs, busy := true, seq := _ }) hc' rfl hd d
    exact ⟨v, hstep, hregs.of_cfg hcfg, hv⟩

/-! ### Big steps and small steps (R22) -/

/-- What a busy block leaves to a later step is a busy block under the same configuration, without a reset. -/
def InProgress (s : State) : Prop := CfgOk s ∧ s.rst = .low ∧ s.busy = true

theorem InProgress.step {s : State} (h : InProgress s) : Machine.step s = .next (advance s) :=
  step_busy s h.1 h.2.1 h.2.2

/-- One element by itself goes on as the run of the whole does. -/
theorem perform_reaches {m : Micro} {ms : List Micro} {n : Nat} {k : State → State} {s : State}
    (h : InProgress s) (hset : ∀ t q, k { t with seq := q } = k t)
    (hk : ∀ t, InProgress t → t.seq = .run ms n → ∃ j, Sys2Proof.core.run j t = .next (k t)) :
    ∃ j, Sys2Proof.core.run j (perform m { s with seq := .run ms n }) = .next (conclude ms n k (runMicro m s)) := by
  obtain ⟨hcfg, -, -, hrst, hbusy, -, -⟩ := runPrims_frame (expand m) s
  rw [perform, runMicro, runPrims_setSeq, runMicro]
  cases hr : runPrims (expand m) s with
  | fin t =>
    rw [hr] at hcfg hrst hbusy
    have ht : InProgress { t with seq := .run ms n } :=
      ⟨h.1.of_cfg hcfg, hrst.trans h.2.1, hbusy.trans h.2.2⟩
    obtain ⟨j, hj⟩ := hk _ ht rfl
    rw [hset] at hj
    exact ⟨j, hj⟩
  | err t => exact ⟨0, congrArg _ (drainText_setSeq n t (.run ms n))⟩
  | held rem t => exact ⟨0, rfl⟩
  | rst t => exact ⟨0, rfl⟩

theorem runText_wait {n : Nat} {s : State} (h : s.txt = []) : runText (n + 1) s = { s with seq := .run [] (n + 1) } := by
  simp [runText, h]

theorem runText_take {n : Nat} {s : State} {b : Byte} {bs : List Byte} (h : s.txt = b :: bs) :
    runText (n + 1) s = conclude [] n (runText n) (runMicro (writeChar b) { s with txt := bs }) := by
  simp [runText, h]

theorem runText_reached {n : Nat} {s : State} (h : InProgress s) (hseq : s.seq = .run [] n) :
    ∃ j, Sys2Proof.core.run j s = .next (runText n s) := by
  induction n generalizing s with
  | zero => exact ⟨1, by rw [run_succ h.step, advance_of_done hseq]; rfl⟩
  | succ n ih =>
    cases htxt : s.txt with
    | nil => exact ⟨0, by rw [runText_wait htxt, ← hseq]; rfl⟩
    | cons b bs =>
      rw [runText_take htxt]
      have hrest : InProgress { s with txt := bs } := h
      obtain ⟨j, hj⟩ := perform_reaches (m := writeChar b) hrest (runText_setSeq n) fun t => ih
      exact ⟨j + 1, by rw [run_succ h.step, advance_of_char hseq htxt]; exact hj⟩

/-- Settles O24, by induction on the sequence and then on its text. -/
theorem bigStepIsRepeatedSmallSteps : Obligations.BigStepIsRepeatedSmallSteps := by
  intro s ms n hc hrst hbusy hseq
  have h : InProgress s := ⟨hc, hrst, hbusy⟩
  clear hc hrst hbusy
  induction ms generalizing s with
  | nil => exact runText_reached h hseq
  | cons m ms ih =>
    obtain ⟨j, hj⟩ := perform_reaches (m := m) h (runOps_setSeq ms n) fun t ht hseq' => ih t hseq' ht
    exact ⟨j + 1, by rw [run_succ h.step, advance_of_cons hseq]; exact hj⟩

/-! ### Static counts (R161, R162) -/

theorem countP_writeChars (f : Prim → Bool) {c : Nat} (hc : ∀ b, (expand (writeChar b)).countP f = c) (bs : List Byte) :
    ((bs.map writeChar).flatMap expand).countP f = c * bs.length := by
  induction bs with
  | nil => rfl
  | cons b bs ih =>
    rw [List.map_cons, List.flatMap_cons, List.countP_append, hc, ih, List.length_cons, Nat.mul_succ, Nat.add_comm]

/-- The actions of a host command that `f` counts: those of its elements and those of each text byte. -/
theorem countP_hostSequence {s : State} {i : Instr} {ms : List Micro} (h : hostSequence s i = some ms)
    (htext : textLen i ≤ s.txt.length) (f : Prim → Bool) {c : Nat} (hc : ∀ b, (expand (writeChar b)).countP f = c) :
    (ms.flatMap expand).countP f = ((elements s i).flatMap expand).countP f + c * textLen i := by
  obtain ⟨-, rfl⟩ := exec_hostCommand h
  rw [List.flatMap_append, List.countP_append, countP_writeChars f hc, List.length_take_of_le htext]

theorem writeCount_elements (s : State) (i : Instr) :
    ((elements s i).flatMap expand).countP (· == .commit) + 7 * textLen i = writeCount i := by
  cases i with
  | wrtext row col len => exact (Nat.mul_add 7 1 len).symm
  | init | blon | bloff | dispon | dispoff | curmode | clear | lcdWake | lcdSet4bit | lcdFunctionSet | lcdClearDisplay
  | lcdDisplayControl | lcdSetCursorAddress | lcdCharacter => rfl

theorem delayCount_elements (s : State) (i : Instr) :
    ((elements s i).flatMap expand).countP isDelay + 0 * textLen i = delayCount i := by
  rw [Nat.zero_mul]
  cases i with
  | init | blon | bloff | dispon | dispoff | curmode | clear | wrtext | lcdWake | lcdSet4bit | lcdFunctionSet
  | lcdClearDisplay | lcdDisplayControl | lcdSetCursorAddress | lcdCharacter => rfl

/-! ### Progress (R162) -/

/-- How many answers are listed. -/
def answersLeft (s : State) : Nat := s.txAnswers.length + s.delayAnswers.length

/-- An action keeps the outside answering, and one that has to wait uses up an entry. -/
theorem runPrim_progress (p : Prim) {s : State} (h : Answered s) :
    Answered (resState (runPrim p s)) ∧ answersLeft (resState (runPrim p s)) ≤ answersLeft s ∧
      ∀ rem t, runPrim p s = .held rem t → answersLeft t < answersLeft s := by
  obtain ⟨htx, hdelay⟩ := runPrim_answers p s
  refine ⟨⟨fun a ha => h.1 a (htx.subset ha), fun d hd => h.2 d (hdelay.subset hd)⟩,
    Nat.add_le_add htx.length_le hdelay.length_le, fun rem t hheld => ?_⟩
  cases p with
  | commit =>
    rw [runPrim, commit_eq] at hheld
    split at hheld <;> cases hheld
    next as hs => simp [answersLeft, hs]
    next as hs => exact absurd rfl (h.1 .never (by simp [hs]))
  | delay x =>
    rw [runPrim, waitDelay] at hheld
    split at hheld <;> cases hheld
    next ds hs => simp [answersLeft, hs]
    next ds hs => exact absurd rfl (h.2 .never (by simp [hs]))
  | drive | driveData | fsm | baseline => cases hheld

theorem runPrims_progress (ps : List Prim) {s : State} (h : Answered s) :
    Answered (resState (runPrims ps s)) ∧ answersLeft (resState (runPrims ps s)) ≤ answersLeft s ∧
      ∀ rem t, runPrims ps s = .held rem t → answersLeft t < answersLeft s := by
  induction ps generalizing s with
  | nil => exact ⟨h, le_rfl, fun rem t hheld => by cases hheld⟩
  | cons p ps ih =>
    obtain ⟨hp, hle, hlt⟩ := runPrim_progress p h
    rw [runPrims]
    cases hr : runPrim p s with
    | fin s' =>
      rw [hr] at hp hle
      obtain ⟨hps, hle', hlt'⟩ := ih hp
      exact ⟨hps, hle'.trans hle, fun rem t hheld => (hlt' rem t hheld).trans_le hle⟩
    | err s' => rw [hr] at hp hle; exact ⟨hp, hle, fun rem t hheld => by cases hheld⟩
    | held rem s' =>
      rw [hr] at hp hle
      refine ⟨hp, hle, fun rem' t hheld => ?_⟩
      cases hheld
      exact hlt rem s' hr
    | rst s' => rw [hr] at hp hle; exact ⟨hp, hle, fun rem t hheld => by cases hheld⟩

/-- A command in progress whose text is there and whose outside answers. -/
structure Supplied (s : State) : Prop where
  inProgress : InProgress s
  answered : Answered s
  run : ∃ ms n, s.seq = .run ms n ∧ n ≤ s.txt.length

/-- Short of a reset among the answers of `s`, `u` shows the end of a command that did not refuse (R19). -/
def Reported (s u : State) : Prop := NoReset s → u.status = .ok ∨ u.status = .transportError

/-- `t` is held, with fewer answers to wait for than `s` had. -/
structure StillHeld (s t : State) : Prop where
  supplied : Supplied t
  fewer : answersLeft t < answersLeft s
  noReset : NoReset s → NoReset t

/-- A sequence whose text is there and whose outside answers ends, or is held with an answer used up. -/
theorem runOps_outcome (ms : List Micro) {n : Nat} {s : State} (h : InProgress s) (ha : Answered s)
    (hn : n ≤ s.txt.length) :
    ((runOps ms n s).busy = false ∧ Reported s (runOps ms n s)) ∨ StillHeld s (runOps ms n s) := by
  have hends := runOps_ends ms n s
  generalize (ms ++ (s.txt.take n).map writeChar).flatMap expand = ps at hends
  obtain ⟨hcfg, -, -, hrst, -, -, -⟩ := runPrims_frame ps s
  obtain ⟨hanswered, -, hfewer⟩ := runPrims_progress ps ha
  cases hr : runPrims ps s with
  | fin u =>
    rw [hr] at hends
    have heq : runOps ms n s = _ := hends
    rw [heq, if_pos hn]
    exact .inl ⟨rfl, fun _ => .inl rfl⟩
  | err u =>
    rw [hr] at hends
    obtain ⟨j, hj, hlen, heq⟩ := hends
    rw [heq, drainText_spec, if_pos (by rw [List.length_drop]; omega)]
    exact .inl ⟨rfl, fun _ => .inr rfl⟩
  | held rem u =>
    rw [hr] at hends hcfg hrst hanswered
    obtain ⟨p, qs, ms', j, -, hj, hlen, heq⟩ := hends
    have hrest : n - j ≤ (s.txt.drop j).length := by rw [List.length_drop]; omega
    rw [heq]
    refine .inr ⟨⟨⟨h.1.of_cfg hcfg, hrst.trans h.2.1, rfl⟩, hanswered, _, _, rfl, hrest⟩, hfewer rem u hr, fun hnr => ?_⟩
    have hu := (runPrims_noReset ps hnr).1
    rw [hr] at hu
    exact hu
  | rst u =>
    rw [hr] at hends
    obtain ⟨j, heq⟩ := hends
    rw [heq]
    exact .inl ⟨rfl, fun hnr => absurd hr ((runPrims_noReset ps hnr).2 u)⟩

/-- A command in progress is run to its end by repeated steps: each big step of it ends it or uses up an answer. -/
theorem Supplied.completes {s : State} (h : Supplied s) :
    ∃ k u, Sys2Proof.core.run k s = .next u ∧ u.busy = false ∧ Reported s u := by
  induction hN : answersLeft s using Nat.strong_induction_on generalizing s with
  | _ N ih =>
    obtain ⟨⟨hc, hrst, hbusy⟩, ha, ms, n, hseq, hn⟩ := h
    obtain ⟨k, hk⟩ := bigStepIsRepeatedSmallSteps s ms n hc hrst hbusy hseq
    obtain ⟨hended, hreported⟩ | hheld := runOps_outcome ms ⟨hc, hrst, hbusy⟩ ha hn
    · exact ⟨k, _, hk, hended, hreported⟩
    · obtain ⟨k', u, hk', hended, hreported⟩ := ih _ (hN ▸ hheld.fewer) hheld.supplied rfl
      exact ⟨k + k', u, (coreRun_add Sys2Proof.core hk k').trans hk', hended, fun hnr => hreported (hheld.noReset hnr)⟩

/-- An item done in an idle block leaves it idle or holds the item's frame. -/
theorem perform_outcome (m : Micro) {s : State} (hc : CfgOk s) (hrst : s.rst = .low) (hidle : Idle s) (ha : Answered s) :
    (perform m s).busy = false ∨ Supplied (perform m s) := by
  obtain ⟨hcfg, -, -, hrst', hbusy, -, -⟩ := runPrims_frame (expand m) s
  obtain ⟨hanswered, -, -⟩ := runPrims_progress (expand m) ha
  rw [perform, runMicro, hidle.2]
  cases hr : runPrims (expand m) s with
  | fin t => rw [hr] at hbusy; exact .inl (hbusy.trans hidle.1)
  | err t | rst t => exact .inl rfl
  | held rem t =>
    rw [hr] at hcfg hrst' hanswered
    exact .inr ⟨⟨hc.of_cfg hcfg, hrst'.trans hrst, rfl⟩, hanswered, _, _, rfl, Nat.zero_le _⟩

/-- Every instruction of an idle block ends, or holds a command that can go on. -/
theorem exec_outcome (i : Instr) {s t : State} (hc : CfgOk s) (hrst : s.rst = .low) (hidle : Idle s) (ha : Answered s)
    (htext : textLen i ≤ s.txt.length) (he : exec i s = .next t) : t.busy = false ∨ Supplied t := by
  have hcommand (ms : List Micro) (n : Nat) (x : Byte) (hn : n ≤ s.txt.length) :
      (runCommand ms n { s with ds := x }).busy = false ∨ Supplied (runCommand ms n { s with ds := x }) :=
    (runOps_outcome ms (s := accept { s with ds := x }) ⟨hc, hrst, rfl⟩ ha hn).imp And.left StillHeld.supplied
  obtain hi | ⟨f, -, hi⟩ | ⟨m, -, hi⟩ := exec_elements i s
  · cases hi.symm.trans he
    exact hcommand _ _ s.ds htext
  · cases hi.symm.trans he
    rw [sendDisplayState]
    split
    · exact hcommand _ 0 _ (Nat.zero_le _)
    · exact .inl rfl
  · cases hi.symm.trans he
    exact perform_outcome m hc hrst hidle ha

/-- Settles O49: the counts are those of the elements and the text, and progress is by the answers used up. -/
theorem everyCommandCompletes : Obligations.EveryCommandCompletes := by
  refine ⟨fun s i ms hseq htext => ⟨?_, ?_⟩, fun s i hc hrst hidle ha htext => ?_,
    fun s hc hrst hbusy hseq ha htext => ?_⟩
  · rw [planned, writes_plannedPrims, countP_hostSequence (c := 7) hseq htext _ fun _ => rfl, writeCount_elements]
  · rw [planned, delays_plannedPrims, countP_hostSequence (c := 0) hseq htext _ fun _ => rfl, delayCount_elements]
  · obtain ⟨t, he⟩ := exec_next i s
    obtain hended | hsupplied := exec_outcome i hc hrst hidle ha htext he
    · exact ⟨0, t, t, he, rfl, hended⟩
    · obtain ⟨k, u, hk, hended, -⟩ := hsupplied.completes
      exact ⟨k, t, u, he, hk, hended⟩
  · cases hs : s.seq with
    | idle => exact absurd hs hseq
    | run ms n =>
      rw [hs] at htext
      exact Supplied.completes ⟨⟨hc, hrst, hbusy⟩, ha, ms, n, hs, htext⟩
    | drain n =>
      have hn : n ≤ s.txt.length := by rw [hs] at htext; exact htext
      have hstep : step s = .next (raise .transportError { s with txt := s.txt.drop n }) := by
        rw [step_busy s hc hrst hbusy, advance_of_drain hs, drainText_spec, if_pos hn]
      exact ⟨1, _, run_succ hstep 0, rfl, fun _ => .inr rfl⟩

end Sys2Proof.Machine
end

section
/-! PROOFS. The instructions under a fault-free outside (41_byte_transfer.md, 42_init_sequencer.md, 43_display_cursor.md,
44_text_output.md): each is the state after its planned events, and these are its frames, byte by byte. -/

namespace Sys2Proof.Machine

/-! ### Runs under a fault-free outside (R31) -/

theorem FaultFree.answersAll {s : State} (h : FaultFree s) (ps : List Prim) : AnswersAll ps s :=
  ⟨fun a ha => h.1 a (List.mem_of_mem_take ha), fun d hd => h.2 d (List.mem_of_mem_take hd)⟩

theorem FaultFree.noReset {s : State} (h : FaultFree s) : NoReset s :=
  ⟨fun a ha d => by rw [h.1 a ha]; exact TxAnswer.noConfusion, fun d hd => by rw [h.2 d hd]; exact DelayAnswer.noConfusion⟩

/-- Every update of `OR` among the actions is transmitted before the next action (R77). -/
def settled : List Prim → Bool
  | [] => true
  | .drive _ _ :: ps => ps.head? == some .commit && settled ps
  | .driveData _ :: ps => ps.head? == some .commit && settled ps
  | .commit :: ps => settled ps
  | .delay _ :: ps => settled ps
  | .fsm _ :: ps => settled ps
  | .baseline _ :: ps => settled ps

theorem settled_append {ps qs : List Prim} (hps : settled ps = true) (hqs : settled qs = true) :
    settled (ps ++ qs) = true := by
  have hhead {ps : List Prim} (h : ps.head? = some .commit) : (ps ++ qs).head? = some .commit := by
    rw [List.head?_append, h]
    rfl
  induction ps with
  | nil => exact hqs
  | cons p ps ih =>
    cases p with
    | drive | driveData =>
      simp only [settled, List.cons_append, Bool.and_eq_true, beq_iff_eq] at hps ⊢
      exact ⟨hhead hps.1, ih hps.2⟩
    | commit | delay | fsm | baseline => exact ih hps

/-- `OR` ends as the last byte written. -/
theorem endOr_of_settled (p : PinMap) {ps : List Prim} (h : settled ps = true) (o : Byte) :
    endOr p ps o = (eventBytes (plannedPrims p ps o)).getLastD o := by
  have hupdate {ps : List Prim} (hps : ps.head? = some .commit) (o o' : Byte) :
      (eventBytes (plannedPrims p ps o)).getLastD o = (eventBytes (plannedPrims p ps o)).getLastD o' := by
    rw [List.eq_cons_of_mem_head? hps, plannedPrims, eventBytes, List.getLastD_cons, List.getLastD_cons]
  induction ps generalizing o with
  | nil => rfl
  | cons a ps ih =>
    cases a with
    | drive | driveData =>
      simp only [settled, Bool.and_eq_true, beq_iff_eq] at h
      obtain ⟨hcommit, hrest⟩ := h
      exact (ih hrest _).trans (hupdate hcommit _ o)
    | commit =>
      rw [endOr, plannedPrims, eventBytes, List.getLastD_cons]
      exact ih h o
    | delay | fsm | baseline => exact ih h o

theorem endRegs_of_keepsRegs {ps : List Prim} (h : ∀ p ∈ ps, keepsRegs p = true) (r : Fsm × Byte × Bool) :
    endRegs ps r = r := by
  induction ps with
  | nil => rfl
  | cons p ps ih =>
    have hrest := ih fun q hq => h q (List.mem_cons_of_mem _ hq)
    have hp := h p List.mem_cons_self
    cases p with
    | drive | driveData | commit | delay => exact hrest
    | fsm | baseline => cases hp

/-- Actions that transmit each update leave the state after their events, but for the registers they write. -/
theorem afterActions_of_settled {ps : List Prim} (h : settled ps = true) (s : State) :
    afterActions ps s = { after (plannedPrims s.cfg.pins ps s.or) s with
      fsm := (endRegs ps (s.fsm, s.ds, s.dsv)).1
      ds := (endRegs ps (s.fsm, s.ds, s.dsv)).2.1
      dsv := (endRegs ps (s.fsm, s.ds, s.dsv)).2.2 } := by
  rw [afterActions, endOr_of_settled s.cfg.pins h]
  rfl

theorem afterActions_of_keepsRegs {ps : List Prim} (h : settled ps = true) (hregs : ∀ p ∈ ps, keepsRegs p = true)
    (s : State) : afterActions ps s = after (plannedPrims s.cfg.pins ps s.or) s := by
  rw [afterActions_of_settled h, endRegs_of_keepsRegs hregs]
  rfl

/-- The actions of a sequence and of the text bytes that are there for it. -/
def commandActions (ms : List Micro) (n : Nat) (s : State) : List Prim :=
  (ms ++ (s.txt.take n).map writeChar).flatMap expand

/-- A command whose text is there completes after its actions. -/
theorem runCommand_faultFree (ms : List Micro) {n : Nat} {s : State} (h : FaultFree s) (hn : n ≤ s.txt.length) :
    runCommand ms n s = completedOk { afterActions (commandActions ms n s) s with txt := s.txt.drop n } := by
  have hends := runOps_ends ms n (accept s)
  rw [runPrims_answered _ (s := accept s) (h.answersAll _)] at hends
  have heq : runCommand ms n s = _ := hends
  rw [heq]
  exact if_pos hn

/-- A command without text. -/
theorem runCommand_noText (ms : List Micro) {s : State} (h : FaultFree s) :
    runCommand ms 0 s = completedOk (afterActions (ms.flatMap expand) s) := by
  have hactions : commandActions ms 0 s = ms.flatMap expand := by
    rw [commandActions, List.take_zero, List.map_nil, List.append_nil]
  rw [runCommand_faultFree ms h (Nat.zero_le _), hactions, List.drop_zero]
  rfl

/-- One whose text is not all there waits after what there is (R117). -/
theorem runCommand_waits (ms : List Micro) {n : Nat} {s : State} (h : FaultFree s) (hn : s.txt.length < n) :
    runCommand ms n s = { afterActions (commandActions ms n s) s with
      txt := [], busy := true, seq := .run [] (n - s.txt.length) } := by
  have hends := runOps_ends ms n (accept s)
  rw [runPrims_answered _ (s := accept s) (h.answersAll _)] at hends
  have heq : runCommand ms n s = _ := hends
  rw [heq]
  exact if_neg (Nat.not_le_of_lt hn)

theorem settled_writeByte (d : Bool) (v : Byte) : settled (writeByte d v) = true := rfl

theorem settled_writeChars (bs : List Byte) : settled ((bs.map writeChar).flatMap expand) = true := by
  induction bs with
  | nil => rfl
  | cons b bs ih => exact settled_append (settled_writeByte true b) ih

theorem keepsRegs_writeChars (bs : List Byte) : ∀ p ∈ (bs.map writeChar).flatMap expand, keepsRegs p = true := by
  intro p hp
  obtain ⟨m, hm, hp⟩ := List.mem_flatMap.1 hp
  obtain ⟨b, -, rfl⟩ := List.mem_map.1 hm
  exact keepsRegs_writeByte true b p hp

theorem settled_elements (s : State) (i : Instr) : settled ((elements s i).flatMap expand) = true := by
  cases i with
  | init | blon | bloff | dispon | dispoff | curmode | clear | wrtext | lcdWake | lcdSet4bit | lcdFunctionSet
  | lcdClearDisplay | lcdDisplayControl | lcdSetCursorAddress | lcdCharacter => rfl

/-- What the actions of an instruction other than INIT leave: the state after their events. -/
theorem afterActions_elements {i : Instr} (hi : i ≠ .init) (s₀ s : State) (n : Nat) :
    afterActions (commandActions (elements s₀ i) n s) s =
      after (plannedPrims s.cfg.pins (commandActions (elements s₀ i) n s) s.or) s := by
  rw [commandActions, List.flatMap_append]
  refine afterActions_of_keepsRegs (settled_append (settled_elements s₀ i) (settled_writeChars _)) ?_ s
  rw [List.forall_mem_append]
  exact ⟨keepsRegs_elements hi s₀, keepsRegs_writeChars _⟩

/-- A command without text other than INIT, under a fault-free outside: the state after the events it plans. -/
theorem runCommand_elements {i : Instr} (hi : i ≠ .init) (s₀ : State) {s : State} (h : FaultFree s) :
    runCommand (elements s₀ i) 0 s = completedOk (after (planned s.cfg.pins (elements s₀ i) s.or) s) := by
  rw [runCommand_noText _ h, afterActions_of_keepsRegs (settled_elements s₀ i) (keepsRegs_elements hi s₀)]
  rfl

/-! ### The bytes of the frames (R50, R51, R113) -/

/-- A `BYTE` frame from `OR` as it stands. -/
theorem plannedPrims_byte (p : PinMap) (h : p.ok = true) (d : Bool) (v o : Byte) (ps : List Prim) :
    plannedPrims p (writeByte d v ++ ps) o = txs (byteBytesFrom p o d v) ++
      plannedPrims p ps (pack p d (line p .rw o) false (line p .bl o) (loNibble v)) := by
  conv_lhs => rw [← pack_lines p h o]
  rw [plannedPrims_writeByte p h, byteBytesFrom]

/-- Text bytes one after the other, E low before them. -/
theorem plannedPrims_writeChars (p : PinMap) (h : p.ok = true) (d rw bl : Bool) (old : Nib) (bs : List Byte) :
    plannedPrims p ((bs.map writeChar).flatMap expand) (pack p d rw false bl old) = txs (charsBytes p rw bl old bs) := by
  induction bs generalizing d old with
  | nil => rfl
  | cons b bs ih =>
    rw [List.map_cons, List.flatMap_cons]
    refine (plannedPrims_writeByte p h true d rw false bl old b _).trans ?_
    rw [ih, charsBytes, txs_append]

theorem planned_writeCmd (p : PinMap) (h : p.ok = true) (v o : Byte) :
    planned p [writeCmd v] o = txs (byteBytesFrom p o false v) := by
  rw [planned, List.flatMap_singleton]
  have hbyte := plannedPrims_byte p h false v o []
  rwa [List.append_nil, plannedPrims, List.append_nil] at hbyte

theorem planned_setBacklight (p : PinMap) (h : p.ok = true) (l : Bool) (o : Byte) :
    planned p (asMicros (setBacklight l)) o =
      txs [pack p (line p .rs o) (line p .rw o) (line p .e o) l (dataLines p o)] := by
  have hpack : driven p .bl l o = pack p (line p .rs o) (line p .rw o) (line p .e o) l (dataLines p o) := by
    conv_lhs => rw [← pack_lines p h o]
    rw [driven_bl_pack p h]
  rw [← hpack]
  rfl

/-- The actions of WRTEXT send, from `OR` as it stands, the cursor command and then the text that is there (R113). -/
theorem afterActions_wrtext (s : State) (h : s.cfg.pins.ok = true) (row col : Byte) (n : Nat) :
    afterActions (commandActions [setCursorPosition row col] n s) s =
      after (txs (byteBytesFrom s.cfg.pins s.or false (cursorCommand row col)
        ++ charsBytes s.cfg.pins (line s.cfg.pins .rw s.or) (line s.cfg.pins .bl s.or)
          (loNibble (cursorCommand row col)) (s.txt.take n))) s := by
  refine (afterActions_elements (i := .wrtext row col n) Instr.noConfusion s s n).trans (congrArg (after · s) ?_)
  rw [elements, commandActions, List.cons_append, List.nil_append, List.flatMap_cons]
  refine (plannedPrims_byte s.cfg.pins h false _ s.or _).trans ?_
  rw [plannedPrims_writeChars s.cfg.pins h, txs_append]

theorem length_charsBytes (p : PinMap) (rw bl : Bool) (old : Nib) (bs : List Byte) :
    (charsBytes p rw bl old bs).length = 7 * bs.length := by
  induction bs generalizing old with
  | nil => rfl
  | cons b bs ih =>
    rw [charsBytes, List.length_append, ih, byteBytes_length, List.length_cons, Nat.mul_succ, Nat.add_comm]

/-! ### The host commands -/

theorem getLastD_append_of_ne_nil {α : Type} {l l' : List α} (h : l' ≠ []) (x : α) :
    (l ++ l').getLastD x = l'.getLastD x := by
  simp [List.getLast?_append, List.getLast?_eq_some_getLast h]

/-- The last byte of INIT is that of the frame of step 7 (R95). -/
theorem initEvents_last (c : Cfg) (o x : Byte) :
    (eventBytes (initEvents c o)).getLastD x =
      pack c.pins false false false (line c.pins .bl o) (loNibble c.cmdDisplayOn) := by
  rw [initEvents, eventBytes_append, eventBytes_txs, getLastD_append_of_ne_nil (by simp [byteBytes])]
  exact byteBytes_last c.pins false false (line c.pins .bl o) false (loNibble c.cmdClearDisplay) c.cmdDisplayOn x

theorem delays_initEvents (c : Cfg) (o : Byte) : delays (initEvents c o) = 7 := by
  simp [initEvents, delays_append, delays]

/-- INIT's actions send its events, and the last writes of the registers are those of step 7 (R95, R96). -/
theorem afterActions_initProgram {s : State} (hpins : s.cfg.pins.ok = true) :
    afterActions ((initProgram s.cfg).flatMap expand) s =
      { after (initEvents s.cfg s.or) s with fsm := .ready, ds := s.cfg.cmdDisplayOn, dsv := true } := by
  have hsettled : settled ((initProgram s.cfg).flatMap expand) = true := settled_elements s .init
  have hregs : endRegs ((initProgram s.cfg).flatMap expand) (s.fsm, s.ds, s.dsv) = (.ready, s.cfg.cmdDisplayOn, true) :=
    rfl
  rw [afterActions_of_settled hsettled, plannedPrims_initProgram s.cfg hpins, hregs]

/-- Settles O25: the run is that of INIT's actions, and its last byte is that of step 7. -/
theorem initRunsTheSevenSteps : Obligations.InitRunsTheSevenSteps := by
  intro s hpins h
  refine ⟨?_, by rw [after_or, initEvents_last], by rw [after_xp, after_or, initEvents_last, initEvents_last],
    writes_initEvents s.cfg s.or, delays_initEvents s.cfg s.or⟩
  rw [exec_hostSequence_init, runCommand_noText _ h, afterActions_initProgram hpins]

/-- Settles O26. -/
theorem backlightCommandsSetAndClear : Obligations.BacklightCommandsSetAndClear := by
  intro s hpins h
  constructor
  · rw [← planned_setBacklight s.cfg.pins hpins]
    exact congrArg _ (runCommand_elements (i := .blon) (by decide) s h)
  · rw [← planned_setBacklight s.cfg.pins hpins]
    exact congrArg _ (runCommand_elements (i := .bloff) (by decide) s h)

/-- A display command with `DSV = 1`: `DS` is written and sent (R105). -/
theorem sendDisplayState_faultFree {f : Byte → Byte} {v : Byte} {s : State} (hpins : s.cfg.pins.ok = true)
    (h : FaultFree s) (hdsv : s.dsv = true) (hv : f s.ds = v) :
    sendDisplayState f s = completedOk (after (txs (byteBytesFrom s.cfg.pins s.or false v)) { s with ds := v }) := by
  subst hv
  have hplan : plannedPrims s.cfg.pins (writeByte false (f s.ds)) s.or = txs (byteBytesFrom s.cfg.pins s.or false (f s.ds)) :=
    (planned_singleton s.cfg.pins (writeCmd (f s.ds)) s.or).symm.trans (planned_writeCmd s.cfg.pins hpins (f s.ds) s.or)
  rw [sendDisplayState_written f hdsv, runCommand_noText _ (s := { s with ds := f s.ds }) h, List.flatMap_singleton,
    ← hplan]
  exact congrArg completedOk
    (afterActions_of_keepsRegs (settled_writeByte false _) (keepsRegs_writeByte false _) { s with ds := f s.ds })

/-- Settles O27: each of the three changes of `DS` is the display-control byte with its own flags. -/
theorem displayCommandsWriteAndSendDs : Obligations.DisplayCommandsWriteAndSendDs := by
  intro s hpins h hdsv x hx
  have hcurmode (v k : Bool) := congrArg (Host.Outcome.next (φ := Fault) (ρ := Refusal))
    (sendDisplayState_faultFree hpins h hdsv (dsCursorMode_eq v k s.ds))
  simp only [List.mem_cons, List.not_mem_nil, or_false] at hx
  rcases hx with rfl | rfl | rfl | rfl | rfl | rfl
  · exact congrArg _ (sendDisplayState_faultFree hpins h hdsv (dsTurnOn_eq s.ds))
  · exact congrArg _ (sendDisplayState_faultFree hpins h hdsv (dsTurnOff_eq s.ds))
  · exact hcurmode false false
  · exact hcurmode false true
  · exact hcurmode true false
  · exact hcurmode true true

/-- Settles O29: the frame of Clear-Display and then the delay. -/
theorem clearSendsThenWaits : Obligations.ClearSendsThenWaits := by
  intro s hpins h
  have hplan : planned s.cfg.pins (elements s .clear) s.or =
      txs (byteBytesFrom s.cfg.pins s.or false s.cfg.cmdClearDisplay) ++ [.delay s.cfg.tClear] :=
    plannedPrims_byte s.cfg.pins hpins false s.cfg.cmdClearDisplay s.or [.delay s.cfg.tClear]
  rw [← hplan]
  exact congrArg _ (runCommand_elements (i := .clear) (by decide) s h)

/-- Settles O30: all of the text is there, and it is what is taken. -/
theorem wrtextSendsAddressThenText : Obligations.WrtextSendsAddressThenText := by
  intro s row col text rest hpins h htxt
  have hlen : text.length ≤ s.txt.length := by rw [htxt, List.length_append]; exact Nat.le_add_right _ _
  constructor
  · have hrun := runCommand_faultFree [setCursorPosition row col] h hlen
    rw [afterActions_wrtext s hpins, htxt, List.take_left, List.drop_left] at hrun
    exact congrArg _ hrun
  · rw [List.length_append, length_charsBytes, byteBytesFrom, byteBytes_length, Nat.mul_add]

/-- Settles O31: what there is of the text is all of what the port holds. -/
theorem wrtextWaitsForMissingText : Obligations.WrtextWaitsForMissingText := by
  intro s row col len hpins h hlen
  have hrun := runCommand_waits [setCursorPosition row col] h hlen
  rw [afterActions_wrtext s hpins, List.take_of_length_le hlen.le] at hrun
  exact congrArg _ hrun

/-! ### The LCD items -/

theorem perform_nibble_faultFree {s : State} (hpins : s.cfg.pins.ok = true) (h : FaultFree s) (n : Nib) :
    perform (.nibble n) s = after (txs (nibbleBytesFrom s.cfg.pins s.or n)) s := by
  rw [perform, runMicro_nibble s hpins h]
  rfl

theorem perform_byte_faultFree {s : State} (hpins : s.cfg.pins.ok = true) (h : FaultFree s) (d : Bool) (v : Byte) :
    perform (.byte d v) s = after (txs (byteBytesFrom s.cfg.pins s.or d v)) s := by
  rw [perform, runMicro_byte s hpins h]
  rfl

/-- Settles O32. -/
theorem bareNibbleItems : Obligations.BareNibbleItems := fun _ hpins h =>
  ⟨congrArg _ (perform_nibble_faultFree hpins h 0x3), congrArg _ (perform_nibble_faultFree hpins h 0x2)⟩

/-- A cursor address with a 1 before it is its byte OR `0x80` (R54). -/
theorem one_append_eq_or (a : BitVec 7) : 0b1#1 ++ a = 0x80#8 ||| a.setWidth 8 := by
  have hor := or_0x80_eq_append (a.setWidth 8)
  rw [BitVec.setWidth_setWidth_of_le _ (by decide), BitVec.setWidth_eq] at hor
  exact hor.symm

/-- Settles O33, item by item. -/
theorem byteItems : Obligations.ByteItems := by
  intro s hpins h
  have hbyte (d : Bool) (v : Byte) := congrArg (Host.Outcome.next (φ := Fault) (ρ := Refusal))
    (perform_byte_faultFree hpins h d v)
  refine ⟨hbyte false _, hbyte false _, fun d c b => hbyte false _, fun a => ?_, fun c => hbyte true c⟩
  rw [← one_append_eq_or]
  exact hbyte false _

/-! ### What the LCD takes from a frame (R86) -/

theorem latchEdge_of_high {p : PinMap} {new : Byte} (h : line p .e new = true) (old : Byte) : latchEdge p old new = [] := by
  simp [latchEdge, h]

/-- A byte that lowers E is latched with its RS and its nibble. -/
theorem latchEdge_falling (p : PinMap) (h : p.ok = true) {old : Byte} (hold : line p .e old = true) (rs rw bl : Bool)
    (n : Nib) : latchEdge p old (pack p rs rw false bl n) = [{ rs := rs, nibble := n }] := by
  simp [latchEdge, hold, line_pack p h, dataLines_pack p h]

/-- A `NIBBLE` frame latches its nibble once, at its last byte. -/
theorem latchesOf_nibbleBytes (p : PinMap) (h : p.ok = true) (x : Byte) (rs rw bl : Bool) (old n : Nib) :
    latchesOf p x (nibbleBytes p rs rw bl old n) = [{ rs := rs, nibble := n }] := by
  have hhigh (m : Nib) : line p .e (pack p rs rw true bl m) = true := line_pack p h .e rs rw true bl m
  rw [nibbleBytes, latchesOf, latchesOf, latchesOf, latchesOf, latchEdge_of_high (hhigh old),
    latchEdge_of_high (hhigh n), latchEdge_falling p h (hhigh n)]
  rfl

/-- A `BYTE` frame begun with E low latches its two nibbles. -/
theorem latchesOf_byteBytes (p : PinMap) (h : p.ok = true) {x : Byte} (hx : line p .e x = false) (rw e bl d : Bool)
    (old : Nib) (v : Byte) :
    latchesOf p x (byteBytes p rw e bl d old v) = [{ rs := d, nibble := hiNibble v }, { rs := d, nibble := loNibble v }] := by
  rw [byteBytes, List.cons_append, latchesOf, latchEdge_of_low hx, latchesOf_append, latchesOf_nibbleBytes p h,
    latchesOf_nibbleBytes p h]
  rfl

/-- Settles O11, by the bytes of each frame. -/
theorem framesLatchTheirNibbles : Obligations.FramesLatchTheirNibbles := by
  intro s hpins h
  refine ⟨⟨_, commit_faultFree s h, ?_⟩, fun n => ⟨_, runMicro_nibble s hpins h n, ?_⟩,
    fun d v hxp => ⟨_, runMicro_byte s hpins h d v, ?_⟩⟩
  · simp [eventBytes, latchesOf, latchEdge]
  · rw [after_latched, eventBytes_txs, nibbleBytesFrom, latchesOf_nibbleBytes _ hpins]
  · rw [after_latched, eventBytes_txs, byteBytesFrom, latchesOf_byteBytes _ hpins hxp]

/-! ### Backlight and display state (R100 to R105) -/

theorem driven_driven (p : PinMap) (sig : Signal) (o : Byte) :
    driven p sig true (driven p sig true o) = driven p sig true o := by
  simp [driven, BitVec.or_assoc]

/-- BLON is one byte, `OR` with the Backlight bit set, whatever the pin mapping. -/
theorem exec_blon_faultFree {s : State} (h : FaultFree s) :
    exec .blon s = .next (completedOk (after [.tx (driven s.cfg.pins .bl true s.or)] s)) :=
  congrArg _ (runCommand_elements (i := .blon) (by decide) s h)

theorem dsTurnOn_off_on (v : Byte) : dsTurnOn (dsTurnOff (dsTurnOn v)) = dsTurnOn v := by
  simp [dsTurnOn_eq, dsTurnOff_eq]

/-- Settles O34: the frames of the commands on any answers but a reset, and the algebra of the flags of `DS`. -/
theorem backlightAndDisplayProperties : Obligations.BacklightAndDisplayProperties := by
  refine ⟨fun s t u h ht hu => ?_, fun s t u v h hdsv ht hu hv => ?_, fun s t hnr he => ?_,
    fun s t i hpins hnr hi he => ⟨?_, fun hon => ?_, fun hcur => ?_⟩⟩
  · rw [exec_blon_faultFree h] at ht
    cases ht
    rw [exec_blon_faultFree (s := completedOk (after [.tx _] s)) (FaultFree_after _ s h)] at hu
    cases hu
    simp [eventBytes, driven_driven]
  · have hs : BaselineHeld s := ⟨h.noReset, hdsv⟩
    have ht' := exec_keepsBaseline .dispon hs ht
    have hu' := exec_keepsBaseline .dispoff ht' hu
    rw [(exec_ds (by decide) hu'.1 hv).1, dsAfter, if_pos hu'.2, (exec_ds (by decide) ht'.1 hu).1, dsAfter,
      if_pos ht'.2, (exec_ds (by decide) hs.1 ht).1, dsAfter, if_pos hdsv, dsTurnOn_off_on]
  · rcases he with he | he
    · exact (exec_ds (by decide) hnr he).1
    · exact (exec_ds (by decide) hnr he).1
  · obtain ⟨hon, hoff⟩ : i ≠ .blon ∧ i ≠ .bloff := by
      rcases hi with rfl | rfl | ⟨v, k, rfl⟩ <;> exact ⟨Instr.noConfusion, Instr.noConfusion⟩
    exact ((backlightRidesAlong i s t hpins hnr he).1 hon hoff).1
  · rcases hon with rfl | rfl
    · rw [(exec_ds (by decide) hnr he).1, dsAfter]
      split <;> simp [dsTurnOn_eq]
    · rw [(exec_ds (by decide) hnr he).1, dsAfter]
      split <;> simp [dsTurnOff_eq]
  · obtain ⟨v, k, rfl⟩ := hcur
    rw [(exec_ds (by simp) hnr he).1, dsAfter]
    split <;> simp [dsCursorMode_eq]

end Sys2Proof.Machine
end
